-- ==== Sys2Proof/Word.lean ====
section
/-! DEFINITION. The word types of the block and the two records every layer shares: a colour and an
expanded palette entry. -/

namespace Sys2Proof

/-- A stream byte, a mask cell, a side-band cell or one channel of a colour (rules R17, R18, R76). -/
abbrev Byte := BitVec 8
/-- A u16 field of the TIM container (rule R71). -/
abbrev U16 := BitVec 16
/-- A command word, a u32 field of the container or a 32-bit register (rules R31, R71, R114). -/
abbrev U32 := BitVec 32
/-- A command argument, the cursor CUR or a register value (rules R12, R36, R116). -/
abbrev U64 := BitVec 64

/-- A colour `(a, r, g, b)` of four 8-bit values (rule R17). -/
structure Color where
  a : Byte
  r : Byte
  g : Byte
  b : Byte
deriving DecidableEq, Repr, Inhabited

/-- An expanded palette entry: a colour and its semi-transparency flag in a u8 (rules R42, R130). -/
structure PalEntry where
  color : Color
  stp   : Byte
deriving DecidableEq, Repr, Inhabited

end Sys2Proof
end

