-- ==== Sys2Proof/Syntax.lean ====
section
/-! DEFINITION. The syntax of what the block executes: textures, command transactions and `Instr`, one
constructor per row of spec/opcode_table.json. -/

namespace Sys2Proof

/-- The four pixel formats (rule R103). -/
inductive PixelFormat where
  | indexed4
  | indexed8
  | direct16
  | direct24
deriving DecidableEq, Repr

/-- The Texture record (rule R47). It is a payload value and need not be well formed: rule R48 is a
check that the commands make. -/
structure Texture where
  fmt       : PixelFormat
  bpp       : Nat
  width     : Nat
  height    : Nat
  originX   : U16
  originY   : U16
  x         : Nat
  y         : Nat
  page      : Nat
  clutIndex : Option Nat
  color     : List (List Color)
  mask      : Option (List (List Byte))
  isPage    : Bool
deriving DecidableEq, Repr

/-- The structured payload of a command (rules R114, R123). -/
inductive Payload where
  | none
  | texture (t : Texture)
  | textures (l : List Texture)
deriving DecidableEq, Repr

/-- One command as the host issues it: command word, two arguments, payload (rule R114). -/
structure Transaction where
  cmd     : U32
  arg0    : U64
  arg1    : U64
  payload : Payload
deriving DecidableEq, Repr

/-- The instructions: the 19 commands of rule R115 and the 16 values of the low four bits of the TIM
flags word (rules R102, R103), each of these with the 28 bits the decoder does not examine. -/
inductive Instr where
  | setup
  | decodeTim
  | readPalette (m : BitVec 2) (first : Bool) (clutWidth clutHeight : U64)
  | getModeFromClut (width : U64)
  | draw (suppress : Bool) (tex : Texture)
  | clear (p : BitVec 5)
  | clearAll
  | updatePage (p : BitVec 5) (force : Bool)
  | updateAllPages (force : Bool)
  | isUsed (p : BitVec 5)
  | containsPage (v : U64)
  | clampPage (v : U64)
  | clampCoord (v : U64)
  | exportPageColor (p : BitVec 5)
  | exportPageStp (p : BitVec 5)
  | exportTextureGrid (cols : U64) (texs : List Texture)
  | exportPageTiled (p : BitVec 5) (rx ry rw rh nx ny : U16) (hi : U32)
  | readReg (r : BitVec 5)
  | writeReg (r : BitVec 5) (v : U64)
  | timIndexed4 (hi : BitVec 28)
  | timIndexed8 (hi : BitVec 28)
  | timDirect16 (hi : BitVec 28)
  | timDirect24 (hi : BitVec 28)
  | timMixed (hi : BitVec 28)
  | timInvalid5 (hi : BitVec 28)
  | timInvalid6 (hi : BitVec 28)
  | timInvalid7 (hi : BitVec 28)
  | timIndexed4Pal (hi : BitVec 28)
  | timIndexed8Pal (hi : BitVec 28)
  | timDirect16Pal (hi : BitVec 28)
  | timDirect24Pal (hi : BitVec 28)
  | timMixedPal (hi : BitVec 28)
  | timInvalid5Pal (hi : BitVec 28)
  | timInvalid6Pal (hi : BitVec 28)
  | timInvalid7Pal (hi : BitVec 28)
deriving DecidableEq, Repr

end Sys2Proof
end

