-- ==== Sys2Proof/Decode.lean ====
section
/-! DEFINITION. The decoder of command words and TIM flags words, total and rejecting by name, and after
it the encoder, both from the tables of spec/30_encoding.md. -/

namespace Sys2Proof

/-- Why a command transaction is no instruction, in the order of rule R307. -/
inductive DecodeError where
  /-- OPC is not in rule R115. -/
  | badOpcode
  /-- Bits 31:16, or an F, P or M field that must be 0, are not 0. -/
  | reservedBits
  /-- M is 2 or 3 on READ_PALETTE. -/
  | badFormat
  /-- DRAW or EXPORT_TEXTURE_GRID without the payload of rule R114: no move of the spec. -/
  | payloadMismatch
deriving DecidableEq, Repr

/-- The two encodings of the block (spec/30_encoding.md): a command transaction, and the flags word of
a TIM container. -/
inductive Encoded where
  | command (t : Transaction)
  | timFlags (w : U32)
deriving DecidableEq, Repr

/-! ### Fields of the command word (rule R114) -/

/-- CMD bits 7:0. -/
def cmdOpc (c : U32) : BitVec 8 := c.extractLsb' 0 8
/-- CMD bit 8. -/
def cmdF (c : U32) : BitVec 1 := c.extractLsb' 8 1
/-- CMD bits 13:9. -/
def cmdP (c : U32) : BitVec 5 := c.extractLsb' 9 5
/-- CMD bits 15:14. -/
def cmdM (c : U32) : BitVec 2 := c.extractLsb' 14 2
/-- CMD bits 31:16, reserved. -/
def cmdReserved (c : U32) : BitVec 16 := c.extractLsb' 16 16

/-- Which of the fields F, P and M an opcode uses; the others must be 0 (rule R115). -/
structure FieldUse where
  f : Bool
  p : Bool
  m : Bool
deriving DecidableEq, Repr

/-- The F, P and M columns of the opcode map (rule R115); none for an undefined opcode. -/
def fieldUse (opc : Nat) : Option FieldUse :=
  match opc with
  | 0x01 => some ⟨false, false, false⟩
  | 0x02 => some ⟨false, false, false⟩
  | 0x03 => some ⟨true, false, true⟩
  | 0x04 => some ⟨false, false, false⟩
  | 0x10 => some ⟨true, false, false⟩
  | 0x11 => some ⟨false, true, false⟩
  | 0x12 => some ⟨false, false, false⟩
  | 0x13 => some ⟨true, true, false⟩
  | 0x14 => some ⟨true, false, false⟩
  | 0x15 => some ⟨false, true, false⟩
  | 0x16 => some ⟨false, false, false⟩
  | 0x17 => some ⟨false, false, false⟩
  | 0x18 => some ⟨false, false, false⟩
  | 0x20 => some ⟨false, true, false⟩
  | 0x21 => some ⟨false, true, false⟩
  | 0x22 => some ⟨false, false, false⟩
  | 0x23 => some ⟨false, true, false⟩
  | 0x30 => some ⟨false, true, false⟩
  | 0x31 => some ⟨false, true, false⟩
  | _ => none

/-- The reserved-bits check of rule R117: bits 31:16 and every field the opcode does not use are 0. -/
def reservedClear (u : FieldUse) (c : U32) : Bool :=
  cmdReserved c == 0 && (u.f || cmdF c == 0) && (u.p || cmdP c == 0) && (u.m || cmdM c == 0)

/-- The Texture payload of DRAW (rule R114). -/
def drawOf (suppress : Bool) : Payload → Except DecodeError Instr
  | .texture t => .ok (.draw suppress t)
  | .none => .error .payloadMismatch
  | .textures _ => .error .payloadMismatch

/-- The texture-list payload of EXPORT_TEXTURE_GRID (rule R114). -/
def gridOf (cols : U64) : Payload → Except DecodeError Instr
  | .textures l => .ok (.exportTextureGrid cols l)
  | .none => .error .payloadMismatch
  | .texture _ => .error .payloadMismatch

/-- The instruction of a defined opcode, its operands assembled as rule R116 says; an ARG or payload
that a command does not use is ignored. -/
def buildCommand (t : Transaction) : Except DecodeError Instr :=
  let f := cmdF t.cmd == 1
  let p := cmdP t.cmd
  match (cmdOpc t.cmd).toNat with
  | 0x01 => .ok .setup
  | 0x02 => .ok .decodeTim
  | 0x03 =>
    if (cmdM t.cmd).toNat < 2 then .ok (.readPalette (cmdM t.cmd) f t.arg0 t.arg1)
    else .error .badFormat
  | 0x04 => .ok (.getModeFromClut t.arg0)
  | 0x10 => drawOf f t.payload
  | 0x11 => .ok (.clear p)
  | 0x12 => .ok .clearAll
  | 0x13 => .ok (.updatePage p f)
  | 0x14 => .ok (.updateAllPages f)
  | 0x15 => .ok (.isUsed p)
  | 0x16 => .ok (.containsPage t.arg0)
  | 0x17 => .ok (.clampPage t.arg0)
  | 0x18 => .ok (.clampCoord t.arg0)
  | 0x20 => .ok (.exportPageColor p)
  | 0x21 => .ok (.exportPageStp p)
  | 0x22 => gridOf t.arg0 t.payload
  | 0x23 =>
    .ok (.exportPageTiled p (t.arg0.extractLsb' 0 16) (t.arg0.extractLsb' 16 16)
      (t.arg0.extractLsb' 32 16) (t.arg0.extractLsb' 48 16) (t.arg1.extractLsb' 0 16)
      (t.arg1.extractLsb' 16 16) (t.arg1.extractLsb' 32 32))
  | 0x30 => .ok (.readReg p)
  | 0x31 => .ok (.writeReg p t.arg0)
  | _ => .error .badOpcode

/-- Decoding a command: opcode, then reserved bits, then the format select (rules R117, R307). -/
def decodeCommand (t : Transaction) : Except DecodeError Instr :=
  match fieldUse (cmdOpc t.cmd).toNat with
  | none => .error .badOpcode
  | some u => if reservedClear u t.cmd then buildCommand t else .error .reservedBits

/-- Flags bits 3:0: the format code and the palette bit (rule R102). -/
def flagsCode (w : U32) : BitVec 4 := w.extractLsb' 0 4
/-- Flags bits 31:4, not examined (rules R102, R165). -/
def flagsRest (w : U32) : BitVec 28 := w.extractLsb' 4 28

/-- The row of the format table that a flags word selects (rules R102, R103). Every word selects one. -/
def decodeFlags (w : U32) : Instr :=
  let hi := flagsRest w
  match (flagsCode w).toNat with
  | 0 => .timIndexed4 hi
  | 1 => .timIndexed8 hi
  | 2 => .timDirect16 hi
  | 3 => .timDirect24 hi
  | 4 => .timMixed hi
  | 5 => .timInvalid5 hi
  | 6 => .timInvalid6 hi
  | 7 => .timInvalid7 hi
  | 8 => .timIndexed4Pal hi
  | 9 => .timIndexed8Pal hi
  | 10 => .timDirect16Pal hi
  | 11 => .timDirect24Pal hi
  | 12 => .timMixedPal hi
  | 13 => .timInvalid5Pal hi
  | 14 => .timInvalid6Pal hi
  | _ => .timInvalid7Pal hi

/-- The decoder. -/
def decode : Encoded → Except DecodeError Instr
  | .command t => decodeCommand t
  | .timFlags w => .ok (decodeFlags w)

/-! ### The encoder -/

/-- `OPC + 256*F + 512*P + 16384*M` (rule R114). -/
def cmdWord (opc : BitVec 8) (f : BitVec 1) (p : BitVec 5) (m : BitVec 2) : U32 :=
  0#16 ++ m ++ p ++ f ++ opc

/-- The one-bit field F of a flag. -/
def flagBit (b : Bool) : BitVec 1 := BitVec.ofBool b

/-- A command with no operand outside its word. -/
def plainCommand (cmd : U32) : Encoded := .command ⟨cmd, 0, 0, .none⟩

/-- A command with ARG0. -/
def arg0Command (cmd : U32) (v : U64) : Encoded := .command ⟨cmd, v, 0, .none⟩

/-- A TIM flags word: bits 31:4 as given, bits 3:0 the code (rule R102). -/
def flagsWord (hi : BitVec 28) (code : BitVec 4) : Encoded := .timFlags (hi ++ code)

/-- The words of an instruction (rules R102, R114 to R116). -/
def encode : Instr → Encoded
  | .setup => plainCommand (cmdWord 0x01 0 0 0)
  | .decodeTim => plainCommand (cmdWord 0x02 0 0 0)
  | .readPalette m first w h => .command ⟨cmdWord 0x03 (flagBit first) 0 m, w, h, .none⟩
  | .getModeFromClut w => arg0Command (cmdWord 0x04 0 0 0) w
  | .draw suppress t => .command ⟨cmdWord 0x10 (flagBit suppress) 0 0, 0, 0, .texture t⟩
  | .clear p => plainCommand (cmdWord 0x11 0 p 0)
  | .clearAll => plainCommand (cmdWord 0x12 0 0 0)
  | .updatePage p force => plainCommand (cmdWord 0x13 (flagBit force) p 0)
  | .updateAllPages force => plainCommand (cmdWord 0x14 (flagBit force) 0 0)
  | .isUsed p => plainCommand (cmdWord 0x15 0 p 0)
  | .containsPage v => arg0Command (cmdWord 0x16 0 0 0) v
  | .clampPage v => arg0Command (cmdWord 0x17 0 0 0) v
  | .clampCoord v => arg0Command (cmdWord 0x18 0 0 0) v
  | .exportPageColor p => plainCommand (cmdWord 0x20 0 p 0)
  | .exportPageStp p => plainCommand (cmdWord 0x21 0 p 0)
  | .exportTextureGrid cols l => .command ⟨cmdWord 0x22 0 0 0, cols, 0, .textures l⟩
  | .exportPageTiled p rx ry rw rh nx ny hi =>
    .command ⟨cmdWord 0x23 0 p 0, rh ++ rw ++ ry ++ rx, hi ++ ny ++ nx, .none⟩
  | .readReg r => plainCommand (cmdWord 0x30 0 r 0)
  | .writeReg r v => arg0Command (cmdWord 0x31 0 r 0) v
  | .timIndexed4 hi => flagsWord hi 0
  | .timIndexed8 hi => flagsWord hi 1
  | .timDirect16 hi => flagsWord hi 2
  | .timDirect24 hi => flagsWord hi 3
  | .timMixed hi => flagsWord hi 4
  | .timInvalid5 hi => flagsWord hi 5
  | .timInvalid6 hi => flagsWord hi 6
  | .timInvalid7 hi => flagsWord hi 7
  | .timIndexed4Pal hi => flagsWord hi 8
  | .timIndexed8Pal hi => flagsWord hi 9
  | .timDirect16Pal hi => flagsWord hi 10
  | .timDirect24Pal hi => flagsWord hi 11
  | .timMixedPal hi => flagsWord hi 12
  | .timInvalid5Pal hi => flagsWord hi 13
  | .timInvalid6Pal hi => flagsWord hi 14
  | .timInvalid7Pal hi => flagsWord hi 15

/-! ### The opcode table's numbering -/

/-- The empty Direct24 texture at the origin of page 0: the payload standing in for operand words of
zeros. -/
def emptyTexture : Texture :=
  { fmt := .direct24, bpp := 24, width := 0, height := 0, originX := 0, originY := 0, x := 0, y := 0,
    page := 0, clutIndex := none, color := [], mask := none, isPage := false }

/-- The payload that a command word of this opcode takes when its operands are all zeros. -/
def zeroPayload (c : U32) : Payload :=
  match (cmdOpc c).toNat with
  | 0x10 => .texture emptyTexture
  | 0x22 => .textures []
  | _ => .none

/-- The transaction of a command word with every operand zero. -/
def zeroTransaction (w : Nat) : Transaction :=
  { cmd := BitVec.ofNat 32 w, arg0 := 0, arg1 := 0, payload := zeroPayload (BitVec.ofNat 32 w) }

/-- What the decoder is given for a word of the opcode table: a row of 32 bits is a command word, a
shorter one the low bits of a TIM flags word (log entry 5). -/
def tableEncoded (nbits w : Nat) : Encoded :=
  if nbits < 32 then .timFlags (BitVec.ofNat 32 w) else .command (zeroTransaction w)

/-- The instruction the decoder reads from a word of the opcode table; none where it refuses. -/
def decodeTableWord (nbits w : Nat) : Option Instr :=
  match decode (tableEncoded nbits w) with
  | .ok i => some i
  | .error _ => none

end Sys2Proof
end

