-- ==== Sys2Proof/Config.lean ====
section
/-! DEFINITION. What an implementation fixes: the model parameters of rule R11 as plain data, and the free
values, constants without a body. The fixed parameters of rule R8 (32 pages of 256 x 256 cells, clut
dimensions up to 256, rows of 16 or 256 entries, TIM_TAG 0x0010, CHANNEL_SCALE 8) stand as numerals where
they are used. -/

namespace Sys2Proof

/-- Row length of Indexed8 pixel data (rules R11, R178; decision D16). -/
inductive Idx8RowRule where
  /-- `2 * strideWords` bytes per row, the default. -/
  | declared
  /-- `4 * ceil(width / 4)` bytes per row. -/
  | forced4
deriving DecidableEq, Repr

/-- What the mask of an indexed pixel holds (rules R11, R202; decision D15). -/
inductive IndexedMaskSource where
  /-- The flag of the palette entry, the default. -/
  | paletteFlag
  /-- The raw index. -/
  | rawIndex
deriving DecidableEq, Repr

/-- The value of a row entry the stream did not supply (rules R11, R137; decision D11). -/
inductive UnreadEntry where
  /-- Masking black, the default. -/
  | maskingBlack
  /-- Entry 0 of the row. -/
  | entry0
deriving DecidableEq, Repr

/-- The page flags a deferred draw sets (rules R11, R236; decision D27). -/
inductive DeferredDrawMarks where
  /-- Both flags, the default. -/
  | markBoth
  | markUsedOnly
  | markNeither
deriving DecidableEq, Repr

/-- For which covered pixels DRAW writes the side-band (rules R11, R234; decision D26). -/
inductive MaskWriteMode where
  /-- Every covered pixel, the default. -/
  | copy
  /-- Only where the colour was drawn. -/
  | followAlpha
deriving DecidableEq, Repr

/-- What a Direct24 image of width 0 (strideWords = 1) does (rules R11, R175; decision D17). -/
inductive ZeroWidthD24 where
  /-- Continue with an empty texture, the default. -/
  | emptyTexture
  /-- FormatRejected(WIDTH_ZERO). -/
  | reject
  /-- DecodeFault(ZERO_WIDTH). -/
  | fault
deriving DecidableEq, Repr

/-- What MAXRES = 0 does to a Direct24 image of width 0, where rule R33 says more than the comparison of
rules R175 and R186. DESIGN CHOICE (log entry 15): a parameter of the model's own that keeps both readings. -/
inductive ZeroMaxres where
  /-- MAXRES = 0 rejects every candidate that reaches the width check (rule R33), the default. -/
  | rejectAll
  /-- Only a width above MAXRES is too large, so width 0 passes (rules R175, R186 read alone). -/
  | compareWidth
deriving DecidableEq, Repr

/-- The model parameters of rule R11, and after them one of the model's own (log entry 15). They are a
field of State that no step changes, so that a statement ranges over every value of them (log entry 2). -/
structure Params where
  idx8RowRule       : Idx8RowRule
  indexedMaskSource : IndexedMaskSource
  unreadEntry       : UnreadEntry
  deferredDrawMarks : DeferredDrawMarks
  maskWriteMode     : MaskWriteMode
  zeroWidthD24      : ZeroWidthD24
  opaqueStp         : Byte
  zeroMaxres        : ZeroMaxres
deriving DecidableEq, Repr

/-- The defaults of rule R11, which every rule and test vector of the spec assumes; of `zeroMaxres` the
model's own (DESIGN CHOICE, log entry 15). -/
def Params.default : Params :=
  { idx8RowRule := .declared, indexedMaskSource := .paletteFlag, unreadEntry := .maskingBlack,
    deferredDrawMarks := .markBoth, maskWriteMode := .copy, zeroWidthD24 := .emptyTexture,
    opaqueStp := 0, zeroMaxres := .rejectAll }

namespace Config

/-- FREE VALUE (log entry 3). The number that the draw with this number gives for a cursor the spec
only bounds (rules R142, R183); the operation that draws it reduces it to the permitted range. -/
opaque freeCursor : Nat → Nat

/-- FREE VALUE (log entry 4). The 40 bits (ARGB32 above the u8 flag) that a palette cell with no
defined value reads as (rules R42, R139), by the draw number of the table's last load, the row and
the entry. -/
opaque freePalCell : Nat → Nat → Nat → BitVec 40

/-- FREE VALUE (log entry 4). What a row flag PAL_ROWSTP with no defined value reads as (rules R43,
R139), by the draw number of the load that was cut short, 0 for reset, and the row. -/
opaque freeRowStp : Nat → Nat → Bool

end Config

end Sys2Proof
end

