-- ==== Sys2Proof/Machine/State.lean ====
section
/-! DEFINITION. The state of the block as plain data, and the state after reset (spec/10_state.md). -/

namespace Sys2Proof.Machine

/-- The input stream's bytes: addresses strictly rising, no byte that equals what an unlisted address
reads as (`memDefault`). -/
abbrev Memory := List Host.Cell

/-- A table of cells by number, as its change points: cell numbers strictly rising, each value in force
from its cell on until the next change point. No change point repeats the value already in force, so
that equal contents are equal lists (log entry 8). -/
abbrev Cells (α : Type) := List (Nat × α)

/-- STATUS.CODE (rule R300). -/
inductive Code where
  | none
  | ok
  | formatRejected
  | truncatedInput
  | decodeFault
  | illegalCommand
deriving DecidableEq, Repr

/-- STATUS.REASON (rule R306). -/
inductive Reason where
  | none
  | tagMismatch
  | versionMismatch
  | formatCodeInvalid
  | clutWidthBad
  | clutHeightBad
  | paletteRequiredMissing
  | strideZero
  | heightZero
  | widthZero
  | widthTooLarge
  | pageOutOfRange
  | headerTruncated
  | paletteTruncated
  | imageTruncated
  | streamEnd
  | zeroWidth
  | badOpcode
  | reservedBits
  | badOperand
  | uninitialized
  | notSetup
  | badRegister
  | readOnlyRegister
deriving DecidableEq, Repr

/-- An exported image: `rows[j][i]` is row j, column i (spec/44_export.md). -/
structure Image (α : Type) where
  width  : Nat
  height : Nat
  rows   : List (List α)
deriving DecidableEq, Repr

/-- The result of a response (rule R56). -/
inductive Result where
  | none
  | texture (t : Texture)
  | bit (b : Bool)
  | int (n : Int)
  | reg (v : U64)
  | palette (rows : List (List PalEntry)) (rowStp : List Bool) (stpAny : Bool)
  | colorImage (img : Image Color)
  | stpImage (img : Image Byte)
deriving DecidableEq, Repr

/-- The response of a command (rule R56). -/
structure Response where
  code   : Code
  reason : Reason
  result : Result
deriving DecidableEq, Repr

/-- A move of the host (rules R7, R37, R87): it loads STREAM and SLEN together, or issues a command. -/
inductive HostMove where
  | loadStream (bytes : List Byte)
  | command (t : Transaction)
deriving DecidableEq, Repr

/-- A row flag PAL_ROWSTP[r] (rule R43): what a completed load stored, or no defined value, from reset or
from a load cut short (rules R55, R139), with the draw number of its free value (log entry 4). -/
inductive RowFlag where
  | stored (b : Bool)
  | undefined (draw : Nat)
deriving DecidableEq, Repr

/-- The palette table and its metadata (rules R42, R43). `rows` is what the last load defined; every other
cell has no defined value and reads as a free value of `epoch`. `rowStp` holds the row flags from row 0 on,
which stay until a load writes them; one beyond the list is as reset leaves it. -/
structure Palette where
  valid  : Bool
  fmt8   : Bool
  stpAny : Bool
  nRows  : BitVec 9
  nCols  : BitVec 9
  rows   : List (List PalEntry)
  rowStp : List RowFlag
  epoch  : Nat
deriving DecidableEq, Repr

/-- One page (rules R45, R46): cell (x, y) of either region is cell number `256 * y + x`. -/
structure Page where
  color    : Cells Color
  stp      : Cells Byte
  used     : Bool
  modified : Bool
deriving DecidableEq, Repr

/-- An Upload event (rules R52, R246). -/
structure Upload where
  page  : Fin 32
  color : Cells Color
  stp   : Cells Byte
deriving DecidableEq, Repr

/-- The state of the block. INVENTORY.md lists each field with the rule that names it. -/
structure State where
  /-- The model parameters (rule R11). -/
  params         : Params
  /-- The host moves not yet taken, oldest first. -/
  inbox          : List HostMove
  /-- The response of the last command (rule R56). -/
  response       : Option Response
  /-- STREAM (rule R37). -/
  stream         : Memory
  /-- SLEN, register 5 (rule R37). -/
  slen           : U32
  /-- CFG, register 0 (rule R32). -/
  cfg            : U32
  /-- MAXRES, register 1 (rule R33), and its written bit (rule R41). -/
  maxres         : U32
  maxresWritten  : Bool
  /-- BGCOLOR, register 2 (rule R34), and its written bit (rule R41). -/
  bgcolor        : U32
  bgcolorWritten : Bool
  /-- BGSTP, register 3 (rule R35), and its written bit (rule R41). -/
  bgstp          : Byte
  bgstpWritten   : Bool
  /-- CUR, register 4 (rule R36), and its written bit (rule R41). -/
  cur            : U64
  curWritten     : Bool
  /-- STATUS, register 6 (rule R38). -/
  status         : BitVec 16
  /-- PALDIM, register 8 (rule R40). -/
  paldim         : U64
  /-- The palette table (rules R42, R43). -/
  pal            : Palette
  /-- PAGES_READY (rule R44). -/
  pagesReady     : Bool
  /-- The page array (rule R45) with the page flags (rule R46). -/
  pages          : Vector Page 32
  /-- UPLOADS, oldest first (rule R52). -/
  uploads        : List Upload
  /-- The number of free values drawn so far. -/
  draws          : Nat
deriving DecidableEq, Repr

/-- The block stops with no fault: every command ends with a response (spec/93_implementation_defined.md
section 2, rule R310), and its outcomes are next states. So no fault has a constructor. -/
inductive Fault where
deriving DecidableEq, Repr

/-- The refusals of a step. -/
inductive Refusal where
  /-- Raised by exec for an instruction without a meaning. No arm raises it now. Safe. -/
  | notModelled (mnemonic : String)
  /-- Raised by the step when the host loads more than 2^32 - 1 bytes, which rule R37 does not admit:
  a move outside the spec. Safe. -/
  | streamTooLong
  /-- Raised by the step when the host issues DRAW or EXPORT_TEXTURE_GRID without the payload that rule
  R114 gives the command: a move outside the spec. Safe. -/
  | payloadMismatch
deriving DecidableEq, Repr

/-- The outcome of a step of the block. -/
abbrev Out := Host.Outcome State Fault Refusal

/-- A page before SETUP. Its cells and flags are unspecified by the spec and no command can read them
(rules R45, R46, R231); the values are named in log entry 1. -/
def Page.initial : Page := { color := [], stp := [], used := false, modified := false }

/-- The palette table after reset: nothing loaded, every cell and row flag a free value (rule R55). -/
def Palette.initial : Palette :=
  { valid := false, fmt8 := false, stpAny := false, nRows := 0, nCols := 0, rows := [], rowStp := [],
    epoch := 0 }

/-- The state after reset (rules R55, R330). -/
def State.reset : State :=
  { params := Params.default, inbox := [], response := none, stream := [], slen := 0, cfg := 0,
    maxres := 0, maxresWritten := false, bgcolor := 0, bgcolorWritten := false, bgstp := 0,
    bgstpWritten := false, cur := 0, curWritten := false, status := 0, paldim := 0,
    pal := Palette.initial, pagesReady := false, pages := Vector.replicate 32 Page.initial,
    uploads := [], draws := 1 }

end Sys2Proof.Machine
end

