-- ==== Sys2Proof/Machine/Cells.lean ====
section
/-! DEFINITION. Reading and writing a table of cells held as its change points. -/

namespace Sys2Proof.Machine

/-- The value of cell `q`, where `d` is in force before the first change point. -/
def cellsRead {α : Type} (d : α) : Cells α → Nat → α
  | [], _ => d
  | (a, v) :: t, q => if q < a then d else cellsRead v t q

/-- The change point `(a, v)` before `t`, left out where `v` is already in force. -/
def cellsCons {α : Type} [DecidableEq α] (d : α) (a : Nat) (v : α) (t : Cells α) : Cells α :=
  if v = d then t else (a, v) :: t

/-- The change points from cell `b` on, after a range that ended with `x` in force; `cur` is the value
in force at the head of the list. -/
def cellsResume {α : Type} [DecidableEq α] (x : α) (b : Nat) (cur : α) : Cells α → Cells α
  | [] => cellsCons x b cur []
  | (c, v) :: t => if c ≤ b then cellsResume x b v t else cellsCons x b cur ((c, v) :: t)

/-- Every cell of the nonempty range `[a, b)` becomes `x`. -/
def cellsFillFrom {α : Type} [DecidableEq α] (d : α) (a b : Nat) (x : α) : Cells α → Cells α
  | [] => cellsCons d a x (cellsResume x b d [])
  | (c, v) :: t =>
    if c < a then (c, v) :: cellsFillFrom v a b x t
    else cellsCons d a x (cellsResume x b d ((c, v) :: t))

/-- Every cell of the range `[a, b)` becomes `x`. -/
def cellsFill {α : Type} [DecidableEq α] (d : α) (m : Cells α) (a b : Nat) (x : α) : Cells α :=
  if a < b then cellsFillFrom d a b x m else m

/-- Cell `a` becomes `x`. -/
def cellsWrite {α : Type} [DecidableEq α] (d : α) (m : Cells α) (a : Nat) (x : α) : Cells α :=
  cellsFillFrom d a (a + 1) x m

/-- The canonical form of a table of the cells below `hi`, with `d` in force before it and `last` after
it: cell numbers rise from `lo`, and no change point repeats the value in force. -/
def cellsWf {α : Type} [DecidableEq α] (last d : α) (lo hi : Nat) : Cells α → Bool
  | [] => decide (d = last)
  | (a, v) :: t =>
    decide (lo ≤ a) && decide (a ≤ hi) && decide (v ≠ d) && cellsWf last v (a + 1) hi t

end Sys2Proof.Machine
end

