-- ==== Sys2Proof/Machine/Operands.lean ====
section
/-! DEFINITION. Operand forms: colours and their packings, texture well-formedness, page and register
operands, the clut and image geometry of a TIM container. -/

namespace Sys2Proof.Machine

/-! ### Colours -/

/-- ARGB32(c) (rule R17). -/
def argb32 (c : Color) : U32 := c.a ++ c.r ++ c.g ++ c.b

/-- The colour that an ARGB32 number packs (rules R17, R34, R247). -/
def colorOfArgb32 (v : U32) : Color :=
  { a := v.extractLsb' 24 8, r := v.extractLsb' 16 8, g := v.extractLsb' 8 8, b := v.extractLsb' 0 8 }

/-- Transparent black, the colour (0, 0, 0, 0). -/
def colorZero : Color := { a := 0, r := 0, g := 0, b := 0 }

/-- Masking black, MB (rule R131). -/
def maskingBlack : PalEntry := { color := colorZero, stp := 0 }

/-- One 5-bit channel scaled by CHANNEL_SCALE = 8 to 8 bits (rules R8, R108, R130). -/
def channel8 (c5 : BitVec 5) : Byte := BitVec.ofNat 8 (c5.toNat * 8)

/-- The semi-transparency flag of a raw word, bit 15 (rules R108, R133). -/
def rawStp (raw : U16) : Bool := raw.getLsbD 15

/-- A flag as the u8 that a mask cell or an entry holds (rule R18). -/
def flagByte (b : Bool) : Byte := if b then 1 else 0

/-- Expand16 (rule R130). -/
def expand16 (raw : U16) : PalEntry :=
  if raw = 0 then maskingBlack
  else
    { color :=
        { a := 255, r := channel8 (raw.extractLsb' 0 5), g := channel8 (raw.extractLsb' 5 5),
          b := channel8 (raw.extractLsb' 10 5) }
      stp := flagByte (rawStp raw) }

/-- Enc, the law's re-encoding of an entry (rule R144). The block has no encoder; the law is a statement. -/
def encodeEntry (e : PalEntry) : Nat :=
  e.color.r.toNat / 8 + 32 * (e.color.g.toNat / 8) + 1024 * (e.color.b.toNat / 8) + 32768 * e.stp.toNat

/-! ### Palette rows -/

/-- The row size S: 256 entries for Indexed8, 16 for Indexed4 (rules R8, R134). -/
def rowSize (fmt8 : Bool) : Nat := if fmt8 then 256 else 16

/-- k = min(cw, S), the entries a row takes from the stream (rule R134). -/
def rowCols (fmt8 : Bool) (cw : Nat) : Nat := min cw (rowSize fmt8)

/-- The value of an entry the stream did not supply (rule R137). -/
def unreadEntry (u : UnreadEntry) (stored : List PalEntry) : PalEntry :=
  match u with
  | .maskingBlack => maskingBlack
  | .entry0 => stored.headD maskingBlack

/-- A row of S entries from the cw words of its row in the stream (rules R134, R135, R137). -/
def expandRow (u : UnreadEntry) (fmt8 : Bool) (cw : Nat) (words : List U16) : List PalEntry :=
  let stored := (words.take (rowCols fmt8 cw)).map expand16
  stored ++ List.replicate (rowSize fmt8 - rowCols fmt8 cw) (unreadEntry u stored)

/-! ### Format, width and row length -/

/-- Bits per pixel (rules R47, R103, R175). -/
def bitsPerPixel : PixelFormat → Nat
  | .indexed4 => 4
  | .indexed8 => 8
  | .direct16 => 16
  | .direct24 => 24

/-- Whether a format looks pixels up in the palette (rule R103). -/
def isIndexed : PixelFormat → Bool
  | .indexed4 => true
  | .indexed8 => true
  | .direct16 => false
  | .direct24 => false

/-- GetModeFromClut (rule R143): true is Indexed8, false Indexed4. -/
def modeFromClut (w : Nat) : Bool := decide (256 ≤ w)

/-- The format of a container with a palette block: code 2 and 3 are re-derived from the clut width, code
0 and 1 kept (rule R168). -/
def formatWithPalette (code : PixelFormat) (cw : Nat) : PixelFormat :=
  match code with
  | .indexed4 => .indexed4
  | .indexed8 => .indexed8
  | .direct16 => if modeFromClut cw then .indexed8 else .indexed4
  | .direct24 => if modeFromClut cw then .indexed8 else .indexed4

/-- The pixel width `(s * 16) div bpp` (rule R175). -/
def pixelWidth (fmt : PixelFormat) (s : Nat) : Nat := s * 16 / bitsPerPixel fmt

/-- The width check: a width above MAXRES is too large (rule R175), and MAXRES = 0 rejects every candidate
that reaches the check (rule R33). The comparison of R175 alone would pass width 0 there: DESIGN CHOICE, R33
holds after reset, and the parameter `zeroMaxres` keeps the other reading too (log entry 15). -/
def widthTooLarge (zero : ZeroMaxres) (maxres w : Nat) : Bool :=
  decide (w > maxres) || (decide (zero = .rejectAll) && decide (maxres = 0))

/-- RowBytes (rule R178). -/
def rowBytes (rule : Idx8RowRule) (fmt : PixelFormat) (s : Nat) : Nat :=
  match fmt, rule with
  | .indexed8, .forced4 => 4 * ((pixelWidth .indexed8 s + 3) / 4)
  | _, _ => 2 * s

/-- A clut dimension as rule R183 counts it: 0 above 256. -/
def clutCount (n : Nat) : Nat := if n > 256 then 0 else n

/-- Whether a clut dimension is legal, 1 to MAX_CLUT_W = MAX_CLUT_H = 256 (rules R8, R104, R169). -/
def clutDimOk (n : Nat) : Bool := decide (n ≠ 0) && decide (n ≤ 256)

/-! ### Page addressing (rules R176, R177) -/

/-- pageX = ox div 64. -/
def originPageX (ox : Nat) : Nat := ox / 64
/-- pageY = oy div 256. -/
def originPageY (oy : Nat) : Nat := oy / 256
/-- page = pageY * 16 + pageX. -/
def originPage (ox oy : Nat) : Nat := originPageY oy * 16 + originPageX ox
/-- x = ((ox - pageX * 64) * 16) div bpp, in decoded pixels. -/
def localX (fmt : PixelFormat) (ox : Nat) : Nat :=
  (ox - originPageX ox * 64) * 16 / bitsPerPixel fmt
/-- y = oy - pageY * 256. -/
def localY (oy : Nat) : Nat := oy - originPageY oy * 256
/-- The page check: pageX < 16 and pageY < 2. -/
def originOnPage (ox oy : Nat) : Bool := decide (originPageX ox < 16) && decide (originPageY oy < 2)

/-! ### Texture payloads -/

/-- An array of exactly `h` rows of `w` cells. -/
def hasDims {α : Type} (w h : Nat) (rows : List (List α)) : Bool :=
  decide (rows.length = h) && rows.all fun r => decide (r.length = w)

/-- Whether a format carries a mask (rules R47, R208). -/
def hasMask : PixelFormat → Bool
  | .indexed4 => true
  | .indexed8 => true
  | .direct16 => true
  | .direct24 => false

/-- The mask is present exactly when the format has one, and then has the texture's dimensions. -/
def maskOk (fmt : PixelFormat) (w h : Nat) : Option (List (List Byte)) → Bool
  | none => !hasMask fmt
  | some rows => hasMask fmt && hasDims w h rows

/-- A binary alpha: 0 or 255. -/
def alphaOk (c : Color) : Bool := c.a == 0 || c.a == 255

/-- WellFormed(t): exactly the checks that rule R48 lists. No rule says what a payload does whose other
fields (bpp, clutIndex, the origin, the offset) disagree with its format or placement: DESIGN CHOICE, such
a payload passes, and of those fields only the offset has an effect, in DRAW (log entry 16). -/
def textureOk (t : Texture) : Bool :=
  hasDims t.width t.height t.color && maskOk t.fmt t.width t.height t.mask && decide (t.page ≤ 31) &&
    !t.isPage && t.color.all (·.all alphaOk)

/-- The mask rows DRAW writes: the texture's, or OPAQUE_STP for a texture without one (rule R234). -/
def drawMask (opaqueStp : Byte) (t : Texture) : List (List Byte) :=
  match t.mask with
  | some rows => rows
  | none => t.color.map fun row => row.map fun _ => opaqueStp

/-! ### Command operands -/

/-- sint64 (rule R14). -/
def sint64 (v : U64) : Int := v.toInt

/-- The page that the P field names (rule R114). -/
def pageOf (p : BitVec 5) : Fin 32 := ⟨p.toNat, by have := p.isLt; omega⟩

/-- The page of a texture; a well-formed texture's page is below 32 (rule R48). -/
def pageOfNat (n : Nat) : Fin 32 := ⟨n % 32, Nat.mod_lt _ (by decide)⟩

/-- The number of cell (x, y) in a region of a page (rule R45). -/
def cellNo (x y : Nat) : Nat := y * 256 + x

/-- Colour cell (x, y) of a page, `P[p].color[y][x]`. -/
def colorCell (pg : Page) (x y : Nat) : Color := cellsRead colorZero pg.color (cellNo x y)

/-- Side-band cell (x, y) of a page, `P[p].stp[y][x]`. -/
def stpCell (pg : Page) (x y : Nat) : Byte := cellsRead 0 pg.stp (cellNo x y)

/-- A cell of the physical view (rule R45). -/
inductive PhysCell where
  | color (c : Color)
  | stp (v : Byte)
deriving DecidableEq, Repr

/-- PHYS(p, X, y): the colour region left of X = 256, the side-band from it on (rule R45). -/
def physCell (pg : Page) (X y : Nat) : PhysCell :=
  if X < 256 then .color (colorCell pg X y) else .stp (stpCell pg (X - 256) y)

end Sys2Proof.Machine
end

