-- ==== Sys2Proof/Machine/Flags.lean ====
section
/-! DEFINITION. Every status and flag computation: CFG fields, STATUS, PALINFO, PALDIM, PAGEFLAGS, the
palette flags and the marks of a draw. -/

namespace Sys2Proof.Machine

/-! ### CFG (rule R32) -/

/-- CFG.IGNORE_VERSION, bit 0. -/
def State.ignoreVersion (s : State) : Bool := s.cfg.getLsbD 0
/-- CFG.ALLOW_OOB, bit 1: tolerant mode. -/
def State.tolerant (s : State) : Bool := s.cfg.getLsbD 1
/-- CFG.FIRST_ROW_ONLY, bit 2. -/
def State.firstRowOnly (s : State) : Bool := s.cfg.getLsbD 2

/-- What CFG holds after a write of v: bits 2:0, the reserved bits 0 (rules R32, R291). -/
def cfgValue (v : U64) : U32 := (v.extractLsb' 0 3).setWidth 32

/-! ### STATUS (rules R38, R300, R306) -/

/-- The number of an outcome code (rule R300). -/
def Code.toByte : Code → Byte
  | .none => 0
  | .ok => 1
  | .formatRejected => 2
  | .truncatedInput => 3
  | .decodeFault => 4
  | .illegalCommand => 5

/-- The number of a reason (rule R306). -/
def Reason.toByte : Reason → Byte
  | .none => 0
  | .tagMismatch => 1
  | .versionMismatch => 2
  | .formatCodeInvalid => 3
  | .clutWidthBad => 4
  | .clutHeightBad => 5
  | .paletteRequiredMissing => 6
  | .strideZero => 7
  | .heightZero => 8
  | .widthZero => 9
  | .widthTooLarge => 10
  | .pageOutOfRange => 11
  | .headerTruncated => 16
  | .paletteTruncated => 17
  | .imageTruncated => 18
  | .streamEnd => 32
  | .zeroWidth => 33
  | .badOpcode => 48
  | .reservedBits => 49
  | .badOperand => 50
  | .uninitialized => 51
  | .notSetup => 52
  | .badRegister => 53
  | .readOnlyRegister => 54

/-- STATUS = CODE + 256 * REASON (rules R38, R306). -/
def statusWord (c : Code) (r : Reason) : BitVec 16 := r.toByte ++ c.toByte

/-! ### PALINFO and PALDIM (rules R39, R40) -/

/-- PALINFO, a view of the palette metadata (rules R39, R43). -/
def palInfo (p : Palette) : U32 :=
  0#7 ++ p.nCols ++ 0#3 ++ p.nRows ++ 0#1 ++ BitVec.ofBool p.stpAny ++ BitVec.ofBool p.fmt8 ++
    BitVec.ofBool p.valid

/-- PALDIM from its four fields (rule R40). -/
def palDimWord (dx dy w h : U16) : U64 := h ++ w ++ dy ++ dx

/-- PAL_ROWSTP of a row from the words stored in it, the OR of their bits 15 (rule R138). -/
def rowHasStp (stored : List U16) : Bool := stored.any rawStp

/-! ### Palette cells (rules R42, R43) -/

/-- The entry that 40 free bits stand for. -/
def entryOfBits (v : BitVec 40) : PalEntry :=
  { color := colorOfArgb32 (v.extractLsb' 8 32), stp := v.extractLsb' 0 8 }

/-- PAL[r][c]: what the last load defined, a free value elsewhere (rules R42, R139; log entry 4). -/
def palCell (p : Palette) (r c : Nat) : PalEntry :=
  match p.rows[r]? with
  | some row =>
    match row[c]? with
    | some e => e
    | none => entryOfBits (Config.freePalCell p.epoch r c)
  | none => entryOfBits (Config.freePalCell p.epoch r c)

/-- What the flag of row r reads as: what was stored, or its free value. -/
def rowFlagValue (r : Nat) : RowFlag → Bool
  | .stored b => b
  | .undefined draw => Config.freeRowStp draw r

/-- PAL_ROWSTP[r]: what the last load of row r left, and before any the free value of reset, draw 0 (rules
R43, R138, R139; log entry 4). -/
def palRowFlag (p : Palette) (r : Nat) : Bool := rowFlagValue r (p.rowStp[r]?.getD (.undefined 0))

/-- The row flags after a load: those of its rows are new, the others stay (rules R43, R134). -/
def rowFlagsAfter (old new : List RowFlag) : List RowFlag := new ++ old.drop new.length

/-! ### Page flags (rules R46, R236, R247) -/

/-- The number whose bit i is entry i of the list. -/
def flagNat : List Bool → Nat
  | [] => 0
  | b :: t => b.toNat + 2 * flagNat t

/-- PAGEFLAGS: bit p is used[p], bit 32 + p is modified[p] (rule R46). -/
def pageFlags (pages : Vector Page 32) : U64 :=
  BitVec.ofNat 32 (flagNat (pages.toList.map (·.modified))) ++
    BitVec.ofNat 32 (flagNat (pages.toList.map (·.used)))

/-- MarkDraw (rule R236). -/
def markDraw (marks : DeferredDrawMarks) (suppress : Bool) (pg : Page) : Page :=
  if suppress then
    match marks with
    | .markBoth => { pg with used := true, modified := true }
    | .markUsedOnly => { pg with used := true }
    | .markNeither => pg
  else { pg with used := true, modified := true }

end Sys2Proof.Machine
end

