-- ==== Sys2Proof/Machine/Memory.lean ====
section
/-! DEFINITION. The input stream: its canonical form, loading it, and the cursor reads and skips of
spec/20_memory.md. -/

namespace Sys2Proof.Machine

/-- What an unlisted byte of the stream reads as. A load lists every byte but the zeros, so inside the
stream this is the byte the host loaded; beyond SLEN nothing is read (log entry 7). -/
def memDefault : Byte := 0

/-- STREAM[a]. -/
def memByte : Memory → Nat → Byte
  | [], _ => memDefault
  | (b, v) :: t, a => if a = b then v else memByte t a

/-- The stream whose bytes from address `base` on are these, in canonical form. -/
def memOfBytes (base : Nat) : List Byte → Memory
  | [] => []
  | v :: t => if v = memDefault then memOfBytes (base + 1) t else (base, v) :: memOfBytes (base + 1) t

/-- The canonical form of bytes at addresses from `lo` up to but not including `hi`: addresses rise and
no listed byte reads as an unlisted one. -/
def memWfFrom (lo hi : Nat) : Memory → Bool
  | [] => true
  | (a, v) :: t =>
    decide (lo ≤ a) && decide (a < hi) && decide (v ≠ memDefault) && memWfFrom (a + 1) hi t

/-- The canonical form of a stream of `slen` bytes. -/
def Memory.wf (slen : Nat) (m : Memory) : Bool := memWfFrom 0 slen m

/-- MemRead(addr, n): the unsigned little-endian value of n stream bytes (rules R15, R71). -/
def memRead (m : Memory) (addr : Nat) : Nat → Nat
  | 0 => 0
  | n + 1 => (memByte m addr).toNat + 256 * memRead m (addr + 1) n

/-- The result of a piece of cursor reading: a value and the cursor after it, or the end of the stream
and the cursor reached (rules R72, R73). -/
inductive ReadResult (α : Type) where
  | ok (v : α) (cur : U64)
  | eos (reached : U64)
deriving DecidableEq, Repr

/-- Something read from the stream at a cursor. -/
abbrev Reader (α : Type) := U64 → ReadResult α

/-- Rdn (rule R72): the n bytes at the cursor, which then advances past them. -/
def rdNat (m : Memory) (slen n : Nat) : Reader Nat := fun cur =>
  if cur.toNat + n ≤ slen then .ok (memRead m cur.toNat n) (cur + BitVec.ofNat 64 n) else .eos cur

/-- Nothing is read. -/
def readPure {α : Type} (v : α) : Reader α := fun cur => .ok v cur

/-- One reading after another. -/
def readThen {α β : Type} (r : Reader α) (f : α → Reader β) : Reader β := fun cur =>
  match r cur with
  | .ok v c => f v c
  | .eos c => .eos c

/-- What was read, through a function. -/
def readMap {α β : Type} (f : α → β) (r : Reader α) : Reader β := readThen r fun v => readPure (f v)

/-- The same reading n times, in stream order. -/
def readMany {α : Type} (r : Reader α) : Nat → Reader (List α)
  | 0 => readPure []
  | n + 1 => readThen r fun v => readMap (v :: ·) (readMany r n)

/-- Rd8 (rule R72). -/
def rd8 (m : Memory) (slen : Nat) : Reader Byte := readMap (BitVec.ofNat 8) (rdNat m slen 1)

/-- Rd16 (rule R72). -/
def rd16 (m : Memory) (slen : Nat) : Reader U16 := readMap (BitVec.ofNat 16) (rdNat m slen 2)

/-- Rd32 (rule R72). -/
def rd32 (m : Memory) (slen : Nat) : Reader U32 := readMap (BitVec.ofNat 32) (rdNat m slen 4)

/-- Skip(n) (rule R74): no read, no bounds check, the sum mod 2^64. -/
def skipBy (cur : U64) (n : Nat) : U64 := cur + BitVec.ofNat 64 n

/-- The bytes remaining at a cursor, max(0, SLEN - CUR) (rules R141, R170, R179). -/
def remaining (slen : Nat) (cur : U64) : Nat := slen - cur.toNat

/-- The fields of the palette header that the block keeps (rules R104, R167). -/
structure PalHeader where
  dx : U16
  dy : U16
  w  : U16
  h  : U16
deriving DecidableEq, Repr

/-- ReadPalette header: clutBlockSize, not used, then the four fields (rules R104, R167). -/
def readPalHeader (m : Memory) (slen : Nat) : Reader PalHeader :=
  readThen (rd32 m slen) fun _ => readThen (rd16 m slen) fun dx => readThen (rd16 m slen) fun dy =>
    readThen (rd16 m slen) fun w => readMap (fun h => ⟨dx, dy, w, h⟩) (rd16 m slen)

/-- The fields of the image header that the block uses (rules R106, R173). -/
structure ImgHeader where
  ox     : U16
  oy     : U16
  stride : U16
  h      : U16
deriving DecidableEq, Repr

/-- ReadImageHeader: imgBlockSize, not used, then the four fields (rules R106, R173). -/
def readImgHeader (m : Memory) (slen : Nat) : Reader ImgHeader :=
  readThen (rd32 m slen) fun _ => readThen (rd16 m slen) fun ox => readThen (rd16 m slen) fun oy =>
    readThen (rd16 m slen) fun s => readMap (fun h => ⟨ox, oy, s, h⟩) (rd16 m slen)

end Sys2Proof.Machine
end

