-- ==== Sys2Proof/Machine/Ops.lean ====
section
/-! DEFINITION. The shared operations over the state: ending a command with an outcome (the block's only
form of exception, rule R309; there is no return from one, rule R310), the bounded cursor, the palette
load, and the page operations. -/

namespace Sys2Proof.Machine

/-! ### Outcomes (spec/60_exceptions.md) -/

/-- A command ends: STATUS and the response take the outcome, nothing else changes (rules R38, R56,
R309). Every outcome of every command, raised or not, is taken here. -/
def State.finish (s : State) (code : Code) (reason : Reason) (result : Result) : State :=
  { s with status := statusWord code reason, response := some ⟨code, reason, result⟩ }

/-- A command ends with OK and its result (rule R15). -/
def State.ok (s : State) (result : Result) : State := s.finish .ok .none result

/-- IllegalCommand(reason): no state changes but STATUS (rule R304). -/
def State.illegal (s : State) (reason : Reason) : State := s.finish .illegalCommand reason .none

/-- The outcome of an encoding that is no instruction (rules R117, R307). -/
def illegalEncoding (s : State) : DecodeError → Out
  | .badOpcode => .next (s.illegal .badOpcode)
  | .reservedBits => .next (s.illegal .reservedBits)
  | .badFormat => .next (s.illegal .badOperand)
  | .payloadMismatch => .refused .payloadMismatch

/-! ### The cursor -/

/-- CUR takes a value. -/
def State.setCur (s : State) (c : U64) : State := { s with cur := c }

/-- The last cursor value of a range that a 64-bit CUR can hold (log entry 3). -/
def cursorTop (hi : Nat) : Nat := min hi (2 ^ 64 - 1)

/-- CUR becomes any value from `lo` to `hi`: a free value reduced to that range (rules R142, R183; log
entry 3). -/
def State.anyCur (s : State) (lo hi : Nat) : State :=
  { s with
    cur := BitVec.ofNat 64 (lo + Config.freeCursor s.draws % (cursorTop hi - lo + 1))
    draws := s.draws + 1 }

/-- A DECODE_TIM without result ends: CUR is any value from p0 to max(Creach, p0 + Ldecl) (rule R183). -/
def endCandidate (s : State) (p0 : Nat) (reached : U64) (ldecl : Nat) (code : Code) (reason : Reason) :
    State :=
  (s.anyCur p0 (max reached.toNat (p0 + ldecl))).finish code reason .none

/-- A candidate is rejected (rule R301). -/
def rejectCandidate (s : State) (p0 : Nat) (reached : U64) (ldecl : Nat) (reason : Reason) : State :=
  endCandidate s p0 reached ldecl .formatRejected reason

/-- The end-of-stream outcome of DECODE_TIM (rule R73): DecodeFault(STREAM_END) in strict mode,
TruncatedInput with the reason of the part being read in tolerant mode. -/
def streamEnded (s : State) (p0 : Nat) (reached : U64) (ldecl : Nat) (tolerantReason : Reason) : State :=
  if s.tolerant then endCandidate s p0 reached ldecl .truncatedInput tolerantReason
  else endCandidate s p0 reached ldecl .decodeFault .streamEnd

/-! ### The palette load (rule R134) -/

/-- PALDIM takes the fields of a palette header (rules R40, R140, R171). -/
def State.setPalDim (s : State) (dx dy w h : U16) : State := { s with paldim := palDimWord dx dy w h }

/-- The table of a completed load from the words of its rows (rules R134, R135, R138, R139). Cells the load
does not write have no defined value (rule R42); row flags it does not write stay (rules R43, R134). -/
def loadedPalette (p : Palette) (u : UnreadEntry) (fmt8 : Bool) (cw : Nat) (rowWords : List (List U16))
    (epoch : Nat) : Palette :=
  let k := rowCols fmt8 cw
  let rowStp := rowWords.map fun ws => rowHasStp (ws.take k)
  { valid := true, fmt8 := fmt8, stpAny := rowStp.any id, nRows := BitVec.ofNat 9 rowWords.length,
    nCols := BitVec.ofNat 9 k, rows := rowWords.map (expandRow u fmt8 cw), 
    rowStp := rowFlagsAfter p.rowStp (rowStp.map .stored), epoch := epoch }

/-- The table after a load of n rows was cut short: PAL_VALID is 0, no cell and no row flag of the load has a
defined value, and the flags of the other rows stay (rules R42, R43, R139). -/
def brokenPalette (p : Palette) (n epoch : Nat) : Palette :=
  { p with
    valid := false, rows := [], rowStp := rowFlagsAfter p.rowStp (List.replicate n (.undefined epoch)),
    epoch := epoch }

/-- The palette table is replaced, and with it the draw number its free values use. -/
def State.setPal (s : State) (p : Palette) : State := { s with pal := p, draws := s.draws + 1 }

/-- The rows of cw words that a load decodes (rule R134). -/
def readRows (m : Memory) (slen cw n : Nat) : Reader (List (List U16)) :=
  readMany (readMany (rd16 m slen) cw) n

/-- n, the rows a load decodes (rule R134). -/
def rowsDecoded (first : Bool) (ch : Nat) : Nat := if first then 1 else ch

/-- How a palette load ends: done, with CUR past all its rows, or at the end of the stream, with CUR
where the failing read was. -/
inductive Loaded where
  | done (s : State)
  | eos (s : State)
deriving DecidableEq, Repr

/-- PaletteLoad (rules R134 to R139), from CUR. -/
def paletteLoad (s : State) (fmt8 : Bool) (cw ch : Nat) (first : Bool) : Loaded :=
  match readRows s.stream s.slen.toNat cw (rowsDecoded first ch) s.cur with
  | .ok ws c =>
    .done ((s.setPal (loadedPalette s.pal s.params.unreadEntry fmt8 cw ws s.draws)).setCur
      (skipBy c (2 * cw * (ch - rowsDecoded first ch))))
  | .eos c => .eos ((s.setPal (brokenPalette s.pal (rowsDecoded first ch) s.draws)).setCur c)

/-! ### Pages -/

/-- Page p. -/
def State.page (s : State) (p : Fin 32) : Page := s.pages[p]

/-- Page p is replaced. -/
def State.setPage (s : State) (p : Fin 32) (pg : Page) : State := { s with pages := s.pages.set p pg }

/-- A page command runs only when the store is set up (rule R231). -/
def State.whenSetUp (s : State) (body : State) : State :=
  if s.pagesReady then body else s.illegal .notSetup

/-- What ClearPage makes of any page (rule R247). -/
def clearedPage (bgcolor : U32) (bgstp : Byte) : Page :=
  { color := cellsFill colorZero [] 0 65536 (colorOfArgb32 bgcolor)
    stp := cellsFill 0 [] 0 65536 bgstp
    used := false
    modified := true }

/-- ClearPage(p) (rule R247). -/
def clearPage (s : State) (p : Fin 32) : State := s.setPage p (clearedPage s.bgcolor s.bgstp)

/-- The pages in ascending order. -/
def allPages : List (Fin 32) := List.finRange 32

/-- ClearPage of every page, in ascending order (rules R230, R238). -/
def clearPages (s : State) : State := allPages.foldl clearPage s

/-- One covered pixel of DRAW: clipping, colour and side-band (rules R232 to R235). -/
def drawPixel (mode : MaskWriteMode) (px py : Nat) (c : Color) (m : Byte) (pg : Page) : Page :=
  if px < 256 ∧ py < 256 then
    { pg with
      color := if c.a = 255 then cellsWrite colorZero pg.color (cellNo px py) c else pg.color
      stp := if mode = .copy ∨ c.a = 255 then cellsWrite 0 pg.stp (cellNo px py) m else pg.stp }
  else pg

/-- One row of DRAW, its pixels left to right from (px, py). -/
def drawRow (mode : MaskWriteMode) (px py : Nat) : List Color → List Byte → Page → Page
  | c :: cs, m :: ms, pg => drawRow mode (px + 1) py cs ms (drawPixel mode px py c m pg)
  | [], _, pg => pg
  | _ :: _, [], pg => pg

/-- The rows of DRAW, top first, the first at (px, py). -/
def drawRows (mode : MaskWriteMode) (px py : Nat) : List (List Color) → List (List Byte) → Page → Page
  | r :: rs, m :: ms, pg => drawRows mode px (py + 1) rs ms (drawRow mode px py r m pg)
  | [], _, pg => pg
  | _ :: _, [], pg => pg

/-- What DRAW of a well-formed texture makes of its page (rules R232 to R236). -/
def drawTexture (par : Params) (suppress : Bool) (t : Texture) (pg : Page) : Page :=
  markDraw par.deferredDrawMarks suppress
    (drawRows par.maskWriteMode t.x t.y t.color (drawMask par.opaqueStp t) pg)

/-- An Upload event is appended to UPLOADS (rules R52, R246). -/
def State.upload (s : State) (p : Fin 32) : State :=
  { s with uploads := s.uploads ++ [⟨p, (s.page p).color, (s.page p).stp⟩] }

/-- The body of UPDATE_PAGE: the state after it and whether it uploaded (rule R239). -/
def updatePage (force : Bool) (s : State) (p : Fin 32) : State × Bool :=
  if force || (s.page p).modified then
    ((s.upload p).setPage p { s.page p with modified := false }, true)
  else (s, false)

/-- UpdatePage of the pages of a list in order, and how many uploaded (rule R240). -/
def updatePages (force : Bool) : List (Fin 32) → State → State × Nat
  | [], s => (s, 0)
  | p :: ps, s =>
    let r := updatePage force s p
    let q := updatePages force ps r.1
    (q.1, (if r.2 then 1 else 0) + q.2)

end Sys2Proof.Machine
end

