-- ==== Sys2Proof/Machine/Export.lean ====
section
/-! DEFINITION. The export commands (spec/44_export.md): views that change nothing but STATUS. -/

namespace Sys2Proof.Machine

/-- The W x H image whose cell (column i, row j) is `f j i`. -/
def imageOf {α : Type} (w h : Nat) (f : Nat → Nat → α) : Image α :=
  { width := w, height := h, rows := (List.range h).map fun j => (List.range w).map fun i => f j i }

/-- EXPORT_PAGE_COLOR (rule R270). -/
def execExportPageColor (p : BitVec 5) (s : State) : Out :=
  .next <| s.whenSetUp <|
    s.ok (.colorImage (imageOf 256 256 fun j i => colorCell (s.page (pageOf p)) i j))

/-- EXPORT_PAGE_STP (rule R271). -/
def execExportPageStp (p : BitVec 5) (s : State) : Out :=
  .next <| s.whenSetUp <| s.ok (.stpImage (imageOf 256 256 fun j i => stpCell (s.page (pageOf p)) i j))

/-- The largest of a list of sizes. -/
def maxOf (l : List Nat) : Nat := l.foldr max 0

/-- Cell (column i, row j) of the grid image: the cell belongs to texture k = row * cols + column of the
grid, and is transparent black outside that texture (rule R272). -/
def gridCell (texs : List Texture) (cols cw ch : Nat) (j i : Nat) : Color :=
  match texs[j / ch * cols + i / cw]? with
  | none => colorZero
  | some t =>
    match t.color[j % ch]? with
    | none => colorZero
    | some row => row[i % cw]?.getD colorZero

/-- The grid image of rule R272. -/
def gridImage (texs : List Texture) (cols : Nat) : Image Color :=
  let cw := maxOf (texs.map (·.width))
  let ch := maxOf (texs.map (·.height))
  imageOf (cols * cw) ((texs.length + cols - 1) / cols * ch) (gridCell texs cols cw ch)

/-- EXPORT_TEXTURE_GRID (rule R272). -/
def execExportTextureGrid (cols : U64) (texs : List Texture) (s : State) : Out :=
  .next <|
    if texs.length = 0 ∨ cols.toNat = 0 ∨ cols.toNat > texs.length then s.illegal .badOperand
    else if texs.all textureOk then s.ok (.colorImage (gridImage texs cols.toNat))
    else s.illegal .badOperand

/-- The tiled image of rule R273. -/
def tiledImage (pg : Page) (rx ry rw rh nx ny : Nat) : Image Color :=
  imageOf (nx * rw) (ny * rh) fun j i => colorCell pg (rx + i % rw) (ry + j % rh)

/-- The operand checks of EXPORT_PAGE_TILED, in order (rules R273, R307). -/
def tiledOk (rx ry rw rh nx ny : U16) (hi : U32) : Bool :=
  decide (hi = 0) &&
    (decide (rw ≠ 0) && decide (rh ≠ 0) && decide (nx ≠ 0) && decide (ny ≠ 0)) &&
      (decide (rx.toNat + rw.toNat ≤ 256) && decide (ry.toNat + rh.toNat ≤ 256))

/-- EXPORT_PAGE_TILED (rule R273). -/
def execExportPageTiled (p : BitVec 5) (rx ry rw rh nx ny : U16) (hi : U32) (s : State) : Out :=
  .next <| s.whenSetUp <|
    if tiledOk rx ry rw rh nx ny hi then
      s.ok (.colorImage
        (tiledImage (s.page (pageOf p)) rx.toNat ry.toNat rw.toNat rh.toNat nx.toNat ny.toNat))
    else s.illegal .badOperand

end Sys2Proof.Machine
end

