-- ==== Sys2Proof/Machine/Pages.lean ====
section
/-! DEFINITION. The page store's commands (spec/43_page_store.md). -/

namespace Sys2Proof.Machine

/-- PAGES_READY becomes 1 (rule R44). -/
def State.setReady (s : State) : State := { s with pagesReady := true }

/-- SETUP (rule R230). -/
def execSetup (s : State) : Out :=
  .next <|
    if s.bgcolorWritten && s.bgstpWritten then (clearPages s).setReady.ok .none
    else s.illegal .uninitialized

/-- DRAW (rule R232). -/
def execDraw (suppress : Bool) (t : Texture) (s : State) : Out :=
  .next <| s.whenSetUp <|
    if textureOk t then
      let p := pageOfNat t.page
      (s.setPage p (drawTexture s.params suppress t (s.page p))).ok .none
    else s.illegal .badOperand

/-- CLEAR (rule R237). -/
def execClear (p : BitVec 5) (s : State) : Out := .next <| s.whenSetUp ((clearPage s (pageOf p)).ok .none)

/-- CLEAR_ALL (rule R238). -/
def execClearAll (s : State) : Out := .next <| s.whenSetUp ((clearPages s).ok .none)

/-- UPDATE_PAGE (rule R239). -/
def execUpdatePage (p : BitVec 5) (force : Bool) (s : State) : Out :=
  .next <| s.whenSetUp <|
    let r := updatePage force s (pageOf p)
    r.1.ok (.bit r.2)

/-- UPDATE_ALL_PAGES (rule R240). -/
def execUpdateAllPages (force : Bool) (s : State) : Out :=
  .next <| s.whenSetUp <|
    let r := updatePages force allPages s
    r.1.ok (.int r.2)

/-- IS_USED (rule R241). -/
def execIsUsed (p : BitVec 5) (s : State) : Out :=
  .next <| s.whenSetUp (s.ok (.bit (s.page (pageOf p)).used))

/-- CONTAINS_PAGE (rule R242). -/
def execContainsPage (v : U64) (s : State) : Out :=
  .next (s.ok (.bit (decide (0 ≤ sint64 v) && decide (sint64 v ≤ 31))))

/-- CLAMP_PAGE (rule R243). -/
def execClampPage (v : U64) (s : State) : Out := .next (s.ok (.int (min (max (sint64 v) 0) 31)))

/-- CLAMP_COORD (rule R244). -/
def execClampCoord (v : U64) (s : State) : Out := .next (s.ok (.int (min (max (sint64 v) 0) 255)))

end Sys2Proof.Machine
end

