-- ==== Sys2Proof/Machine/Palette.lean ====
section
/-! DEFINITION. The palette decoder's commands, READ_PALETTE and GET_MODE_FROM_CLUT
(spec/40_palette.md). -/

namespace Sys2Proof.Machine

/-- The result of a completed palette load: its rows, PAL_ROWSTP of each and PAL_STPANY (rule R140). -/
def paletteResult (p : Palette) : Result :=
  .palette p.rows ((List.range p.nRows.toNat).map (palRowFlag p)) p.stpAny

/-- READ_PALETTE after its operand checks, for a legal width and height: the tolerant span check, then
the load (rules R140, R141, R142). -/
def readPaletteRows (s : State) (fmt8 first : Bool) (cw ch : Nat) : State :=
  if s.tolerant && decide (2 * cw * ch > remaining s.slen.toNat s.cur) then
    (s.setCur (skipBy s.cur (2 * cw * ch))).finish .truncatedInput .paletteTruncated .none
  else
    match paletteLoad (s.setPalDim 0 0 (BitVec.ofNat 16 cw) (BitVec.ofNat 16 ch)) fmt8 cw ch first with
    | .done s' => s'.ok (paletteResult s'.pal)
    | .eos s' =>
      (s'.anyCur s.cur.toNat (s.cur.toNat + 2 * cw * ch)).finish
        (if s.tolerant then .truncatedInput else .decodeFault)
        (if s.tolerant then .paletteTruncated else .streamEnd) .none

/-- READ_PALETTE (rule R140). -/
def execReadPalette (m : BitVec 2) (first : Bool) (clutWidth clutHeight : U64) (s : State) : Out :=
  .next <|
    if 2 ≤ m.toNat then s.illegal .badOperand
    else if !s.curWritten then s.illegal .uninitialized
    else if !clutDimOk clutHeight.toNat then s.illegal .badOperand
    else if !clutDimOk clutWidth.toNat then s.finish .formatRejected .clutWidthBad .none
    else readPaletteRows s (m == 1) first clutWidth.toNat clutHeight.toNat

/-- GET_MODE_FROM_CLUT (rule R143). -/
def execGetModeFromClut (width : U64) (s : State) : Out := .next (s.ok (.bit (modeFromClut width.toNat)))

end Sys2Proof.Machine
end

