-- ==== Sys2Proof/Machine/Registers.lean ====
section
/-! DEFINITION. Register access (spec/45_register_access.md). -/

namespace Sys2Proof.Machine

/-- zext_64(REG[r]) for a register number below 10 (rules R31, R290). -/
def regValue (s : State) (r : Nat) : U64 :=
  match r with
  | 0 => s.cfg.setWidth 64
  | 1 => s.maxres.setWidth 64
  | 2 => s.bgcolor.setWidth 64
  | 3 => s.bgstp.setWidth 64
  | 4 => s.cur
  | 5 => s.slen.setWidth 64
  | 6 => s.status.setWidth 64
  | 7 => (palInfo s.pal).setWidth 64
  | 8 => s.paldim
  | _ => pageFlags s.pages

/-- Whether a register has no written bit, or has it set (rule R41). -/
def regWritten (s : State) (r : Nat) : Bool :=
  match r with
  | 1 => s.maxresWritten
  | 2 => s.bgcolorWritten
  | 3 => s.bgstpWritten
  | 4 => s.curWritten
  | _ => true

/-- The width of a writable register (rules R31, R291). -/
def regWidth (r : Nat) : Nat :=
  match r with
  | 0 => 32
  | 1 => 32
  | 2 => 32
  | 3 => 8
  | _ => 64

/-- A writable register takes a value that fits it, and its written bit is set (rules R32, R41, R291). -/
def State.setReg (s : State) (r : Nat) (v : U64) : State :=
  match r with
  | 0 => { s with cfg := cfgValue v }
  | 1 => { s with maxres := v.setWidth 32, maxresWritten := true }
  | 2 => { s with bgcolor := v.setWidth 32, bgcolorWritten := true }
  | 3 => { s with bgstp := v.setWidth 8, bgstpWritten := true }
  | _ => { s with cur := v, curWritten := true }

/-- READ_REG (rule R290). -/
def execReadReg (r : BitVec 5) (s : State) : Out :=
  .next <|
    if 10 ≤ r.toNat then s.illegal .badRegister
    else if r.toNat = 9 ∧ s.pagesReady = false then s.illegal .notSetup
    else if regWritten s r.toNat then s.ok (.reg (regValue s r.toNat))
    else s.illegal .uninitialized

/-- WRITE_REG (rule R291). -/
def execWriteReg (r : BitVec 5) (v : U64) (s : State) : Out :=
  .next <|
    if 10 ≤ r.toNat then s.illegal .badRegister
    else if 5 ≤ r.toNat then s.illegal .readOnlyRegister
    else if 2 ^ regWidth r.toNat ≤ v.toNat then s.illegal .badOperand
    else (s.setReg r.toNat v).ok .none

end Sys2Proof.Machine
end

