-- ==== Sys2Proof/Machine/PixelConverter.lean ====
section
/-! DEFINITION. The pixel format converter: the four unpackers of spec/42_pixel_converter.md. -/

namespace Sys2Proof.Machine

/-- One row of pixels with its mask cells; a format without a mask has none. -/
structure PixelRow where
  color : List Color
  mask  : List Byte
deriving DecidableEq, Repr

/-- MaskOf (rule R202). -/
def maskOf (src : IndexedMaskSource) (idx : Byte) (st : Byte) : Byte :=
  match src with
  | .paletteFlag => st
  | .rawIndex => idx

/-- The row that palette indices select, from palette row 0 (rules R180, R201, R203). -/
def indexedRow (src : IndexedMaskSource) (pal : Palette) (idxs : List Byte) : PixelRow :=
  { color := idxs.map fun i => (palCell pal 0 i.toNat).color
    mask := idxs.map fun i => maskOf src i (palCell pal 0 i.toNat).stp }

/-- The two indices of an Indexed4 byte, left pixel first: low nibble, then high nibble (rule R110). -/
def nibbles (b : Byte) : List Byte := [(b.extractLsb' 0 4).setWidth 8, (b.extractLsb' 4 4).setWidth 8]

/-- Three bytes of a Direct24 pixel, in the order R, G, B (rule R112). -/
def rd24 (m : Memory) (slen : Nat) : Reader Color :=
  readThen (rd8 m slen) fun r => readThen (rd8 m slen) fun g =>
    readMap (fun b => { a := 255, r := r, g := g, b := b }) (rd8 m slen)

/-- The pixels of one row, from the cursor (rules R201, R203, R204, R205). -/
def readRow (s : State) (fmt : PixelFormat) (w : Nat) : Reader PixelRow :=
  let m := s.stream
  let n := s.slen.toNat
  match fmt with
  | .indexed4 =>
    readMap (fun bs => indexedRow s.params.indexedMaskSource s.pal (bs.flatMap nibbles))
      (readMany (rd8 m n) (w / 2))
  | .indexed8 => readMap (indexedRow s.params.indexedMaskSource s.pal) (readMany (rd8 m n) w)
  | .direct16 =>
    readMap
      (fun ws => { color := ws.map fun raw => (expand16 raw).color,
                   mask := ws.map fun raw => flagByte (rawStp raw) })
      (readMany (rd16 m n) w)
  | .direct24 => readMap (fun cs => { color := cs, mask := [] }) (readMany (rd24 m n) w)

/-- One row and its padding: the row's pixels, then a skip of rowBytes less the bytes used (rules R200,
R206). -/
def unpackRow (s : State) (fmt : PixelFormat) (w rowLen : Nat) : Reader PixelRow := fun rowStart =>
  match readRow s fmt w rowStart with
  | .ok row c => .ok row (skipBy c (rowLen - (c - rowStart).toNat))
  | .eos c => .eos c

/-- Unpack_fmt: h rows, top first (rule R200). -/
def unpack (s : State) (fmt : PixelFormat) (w h rowLen : Nat) : Reader (List PixelRow) :=
  readMany (unpackRow s fmt w rowLen) h

end Sys2Proof.Machine
end

