-- ==== Sys2Proof/Machine/Tim.lean ====
section
/-! DEFINITION. The TIM decoder: DECODE_TIM and the sixteen values of its flags word
(spec/41_tim_decoder.md). -/

namespace Sys2Proof.Machine

/-- The texture of a decoded image (rule R181). -/
def decodedTexture (fmt : PixelFormat) (hd : ImgHeader) (rows : List PixelRow) : Texture :=
  { fmt := fmt, bpp := bitsPerPixel fmt, width := pixelWidth fmt hd.stride.toNat, height := hd.h.toNat,
    originX := hd.ox, originY := hd.oy, x := localX fmt hd.ox.toNat, y := localY hd.oy.toNat,
    page := originPage hd.ox.toNat hd.oy.toNat, clutIndex := if isIndexed fmt then some 0 else none,
    color := rows.map (·.color), mask := if hasMask fmt then some (rows.map (·.mask)) else none,
    isPage := false }

/-- DecodePixels from CUR: the tolerant span check, the unpacker, the texture (rules R179 to R182).
`ldecl` is the container length that rule R113 computes from the fields read. -/
def decodePixels (s : State) (fmt : PixelFormat) (p0 ldecl : Nat) (hd : ImgHeader) : State :=
  let rowLen := rowBytes s.params.idx8RowRule fmt hd.stride.toNat
  if s.tolerant && decide (rowLen * hd.h.toNat > remaining s.slen.toNat s.cur) then
    endCandidate s p0 s.cur ldecl .truncatedInput .imageTruncated
  else
    match unpack s fmt (pixelWidth fmt hd.stride.toNat) hd.h.toNat rowLen s.cur with
    | .ok rows c => (s.setCur c).ok (.texture (decodedTexture fmt hd rows))
    | .eos c => streamEnded s p0 c ldecl .imageTruncated

/-- The checks between the image header and the pixels, in the order of rule R186 (rules R174 to R177). The
width check, with what rule R33 says of MAXRES = 0, is `widthTooLarge` (log entry 15). -/
def checkImage (s : State) (fmt : PixelFormat) (p0 ldecl : Nat) (hd : ImgHeader) : State :=
  let w := pixelWidth fmt hd.stride.toNat
  if hd.stride = 0 then rejectCandidate s p0 s.cur ldecl .strideZero
  else if hd.h = 0 then rejectCandidate s p0 s.cur ldecl .heightZero
  else if fmt = .direct24 ∧ w = 0 ∧ s.params.zeroWidthD24 = .reject then
    rejectCandidate s p0 s.cur ldecl .widthZero
  else if fmt = .direct24 ∧ w = 0 ∧ s.params.zeroWidthD24 = .fault then
    endCandidate s p0 s.cur ldecl .decodeFault .zeroWidth
  else if widthTooLarge s.params.zeroMaxres s.maxres.toNat w then
    rejectCandidate s p0 s.cur ldecl .widthTooLarge
  else if !originOnPage hd.ox.toNat hd.oy.toNat then rejectCandidate s p0 s.cur ldecl .pageOutOfRange
  else decodePixels s fmt p0 ldecl hd

/-- ReadImageHeader and what follows it, from CUR (rules R173 to R182). `base` is the declared length of
the container before its image header. -/
def readImage (s : State) (fmt : PixelFormat) (p0 base : Nat) : State :=
  match readImgHeader s.stream s.slen.toNat s.cur with
  | .eos c => streamEnded s p0 c base .headerTruncated
  | .ok hd c =>
    checkImage (s.setCur c) fmt p0
      (base + 12 + rowBytes s.params.idx8RowRule fmt hd.stride.toNat * hd.h.toNat) hd

/-- The declared length of a container up to its image header, when its palette header is read (rules
R113, R183). -/
def paletteBase (h : PalHeader) : Nat := 8 + (12 + 2 * clutCount h.w.toNat * clutCount h.h.toNat)

/-- The palette block after its header, from CUR, then the image (rules R169 to R171). -/
def loadPaletteBlock (s : State) (code : PixelFormat) (p0 : Nat) (h : PalHeader) : State :=
  let fmt := formatWithPalette code h.w.toNat
  if !clutDimOk h.w.toNat then rejectCandidate s p0 s.cur (paletteBase h) .clutWidthBad
  else if !clutDimOk h.h.toNat then rejectCandidate s p0 s.cur (paletteBase h) .clutHeightBad
  else if s.tolerant && decide (2 * h.w.toNat * h.h.toNat > remaining s.slen.toNat s.cur) then
    endCandidate s p0 s.cur (paletteBase h) .truncatedInput .paletteTruncated
  else
    match paletteLoad (s.setPalDim h.dx h.dy h.w h.h) (fmt == .indexed8) h.w.toNat h.h.toNat
      s.firstRowOnly with
    | .done s' => readImage s' fmt p0 (paletteBase h)
    | .eos s' => streamEnded s' p0 s'.cur (paletteBase h) .paletteTruncated

/-- ReadPalette and what follows it, from CUR (rules R167 to R182). -/
def readPaletteBlock (s : State) (code : PixelFormat) (p0 : Nat) : State :=
  match readPalHeader s.stream s.slen.toNat s.cur with
  | .eos c => streamEnded s p0 c 8 .headerTruncated
  | .ok h c => loadPaletteBlock (s.setCur c) code p0 h

/-- The candidate offset p0 of the container whose flags word ends at CUR (log entry 5). -/
def candidateOf (s : State) : Nat := s.cur.toNat - 8

/-- The fast reject of a format code of 4 or above: CUR stays just after the flags word (rule R166). -/
def fastReject (s : State) : State := s.finish .formatRejected .formatCodeInvalid .none

/-- An indexed format without a palette block (rule R172). -/
def rejectNoPalette (s : State) : State :=
  rejectCandidate s (candidateOf s) s.cur 8 .paletteRequiredMissing

/-! ### The rows of the flags word (rules R102, R103), each from CUR just after the word -/

/-- Flags 0: Indexed4 without a palette (rule R172). -/
def execTimIndexed4 (_hi : BitVec 28) (s : State) : Out := .next (rejectNoPalette s)
/-- Flags 1: Indexed8 without a palette (rule R172). -/
def execTimIndexed8 (_hi : BitVec 28) (s : State) : Out := .next (rejectNoPalette s)
/-- Flags 2: Direct16 (rules R165, R173). -/
def execTimDirect16 (_hi : BitVec 28) (s : State) : Out := .next (readImage s .direct16 (candidateOf s) 8)
/-- Flags 3: Direct24 (rules R165, R173). -/
def execTimDirect24 (_hi : BitVec 28) (s : State) : Out := .next (readImage s .direct24 (candidateOf s) 8)
/-- Flags 4: Mixed, fast-rejected (rule R166). -/
def execTimMixed (_hi : BitVec 28) (s : State) : Out := .next (fastReject s)
/-- Flags 5: invalid, fast-rejected (rule R166). -/
def execTimInvalid5 (_hi : BitVec 28) (s : State) : Out := .next (fastReject s)
/-- Flags 6: invalid, fast-rejected (rule R166). -/
def execTimInvalid6 (_hi : BitVec 28) (s : State) : Out := .next (fastReject s)
/-- Flags 7: invalid, fast-rejected (rule R166). -/
def execTimInvalid7 (_hi : BitVec 28) (s : State) : Out := .next (fastReject s)
/-- Flags 8: Indexed4 with a palette block (rules R167 to R171). -/
def execTimIndexed4Pal (_hi : BitVec 28) (s : State) : Out :=
  .next (readPaletteBlock s .indexed4 (candidateOf s))
/-- Flags 9: Indexed8 with a palette block (rules R167 to R171). -/
def execTimIndexed8Pal (_hi : BitVec 28) (s : State) : Out :=
  .next (readPaletteBlock s .indexed8 (candidateOf s))
/-- Flags 10: code 2 with a palette block, the format re-derived (rule R168). -/
def execTimDirect16Pal (_hi : BitVec 28) (s : State) : Out :=
  .next (readPaletteBlock s .direct16 (candidateOf s))
/-- Flags 11: code 3 with a palette block, the format re-derived (rule R168). -/
def execTimDirect24Pal (_hi : BitVec 28) (s : State) : Out :=
  .next (readPaletteBlock s .direct24 (candidateOf s))
/-- Flags 12: Mixed, fast-rejected whatever the palette bit says (rule R166). -/
def execTimMixedPal (_hi : BitVec 28) (s : State) : Out := .next (fastReject s)
/-- Flags 13: invalid, fast-rejected (rule R166). -/
def execTimInvalid5Pal (_hi : BitVec 28) (s : State) : Out := .next (fastReject s)
/-- Flags 14: invalid, fast-rejected (rule R166). -/
def execTimInvalid6Pal (_hi : BitVec 28) (s : State) : Out := .next (fastReject s)
/-- Flags 15: invalid, fast-rejected (rule R166). -/
def execTimInvalid7Pal (_hi : BitVec 28) (s : State) : Out := .next (fastReject s)

/-- The row that a flags word selects, run (rules R165 to R182). -/
def runFlags (code : BitVec 4) (hi : BitVec 28) (s : State) : Out :=
  match code.toNat with
  | 0 => execTimIndexed4 hi s
  | 1 => execTimIndexed8 hi s
  | 2 => execTimDirect16 hi s
  | 3 => execTimDirect24 hi s
  | 4 => execTimMixed hi s
  | 5 => execTimInvalid5 hi s
  | 6 => execTimInvalid6 hi s
  | 7 => execTimInvalid7 hi s
  | 8 => execTimIndexed4Pal hi s
  | 9 => execTimIndexed8Pal hi s
  | 10 => execTimDirect16Pal hi s
  | 11 => execTimDirect24Pal hi s
  | 12 => execTimMixedPal hi s
  | 13 => execTimInvalid5Pal hi s
  | 14 => execTimInvalid6Pal hi s
  | _ => execTimInvalid7Pal hi s

/-! ### DECODE_TIM -/

/-- How reading a container up to its flags word ends: the flags word, with CUR just after it, or the
candidate's end. -/
inductive HeaderRead where
  | flags (w : U32) (s : State)
  | ended (s : State)
deriving DecidableEq, Repr

/-- ReadFlags (rule R165). -/
def readFlags (s : State) (p0 : Nat) (cur : U64) : HeaderRead :=
  match rd32 s.stream s.slen.toNat cur with
  | .eos c => .ended (streamEnded s p0 c 8 .headerTruncated)
  | .ok flags c => .flags flags (s.setCur c)

/-- ReadHeader, the version (rule R164). -/
def readVersion (s : State) (p0 : Nat) (cur : U64) : HeaderRead :=
  match rd16 s.stream s.slen.toNat cur with
  | .eos c => .ended (streamEnded s p0 c 8 .headerTruncated)
  | .ok ver c =>
    if ver ≠ 0 ∧ s.ignoreVersion = false then .ended (rejectCandidate s p0 c 8 .versionMismatch)
    else readFlags s p0 c

/-- ReadHeader, the tag (rules R162, R163). -/
def readHeader (s : State) : HeaderRead :=
  match rd16 s.stream s.slen.toNat s.cur with
  | .eos c => .ended (streamEnded s s.cur.toNat c 8 .headerTruncated)
  | .ok tag c =>
    if tag ≠ 0x0010#16 then .ended (rejectCandidate s s.cur.toNat c 8 .tagMismatch)
    else readVersion s s.cur.toNat c

/-- DECODE_TIM (rules R160, R186). -/
def execDecodeTim (s : State) : Out :=
  if s.curWritten && s.maxresWritten then
    match readHeader s with
    | .flags w s' => runFlags (flagsCode w) (flagsRest w) s'
    | .ended s' => .next s'
  else .next (s.illegal .uninitialized)

end Sys2Proof.Machine
end

