-- ==== Sys2Proof/Machine/Dispatch.lean ====
section
/-! DEFINITION. One arm per row of spec/opcode_table.json. -/

namespace Sys2Proof.Machine

def exec (i : Instr) (s : State) : Host.Outcome State Fault Refusal :=
  match i with
  | .setup => Sys2Proof.Machine.execSetup s
  | .decodeTim => Sys2Proof.Machine.execDecodeTim s
  | .readPalette m first w h => Sys2Proof.Machine.execReadPalette m first w h s
  | .getModeFromClut w => Sys2Proof.Machine.execGetModeFromClut w s
  | .draw suppress t => Sys2Proof.Machine.execDraw suppress t s
  | .clear p => Sys2Proof.Machine.execClear p s
  | .clearAll => Sys2Proof.Machine.execClearAll s
  | .updatePage p force => Sys2Proof.Machine.execUpdatePage p force s
  | .updateAllPages force => Sys2Proof.Machine.execUpdateAllPages force s
  | .isUsed p => Sys2Proof.Machine.execIsUsed p s
  | .containsPage v => Sys2Proof.Machine.execContainsPage v s
  | .clampPage v => Sys2Proof.Machine.execClampPage v s
  | .clampCoord v => Sys2Proof.Machine.execClampCoord v s
  | .exportPageColor p => Sys2Proof.Machine.execExportPageColor p s
  | .exportPageStp p => Sys2Proof.Machine.execExportPageStp p s
  | .exportTextureGrid cols texs => Sys2Proof.Machine.execExportTextureGrid cols texs s
  | .exportPageTiled p rx ry rw rh nx ny hi => Sys2Proof.Machine.execExportPageTiled p rx ry rw rh nx ny hi s
  | .readReg r => Sys2Proof.Machine.execReadReg r s
  | .writeReg r v => Sys2Proof.Machine.execWriteReg r v s
  | .timIndexed4 hi => Sys2Proof.Machine.execTimIndexed4 hi s
  | .timIndexed8 hi => Sys2Proof.Machine.execTimIndexed8 hi s
  | .timDirect16 hi => Sys2Proof.Machine.execTimDirect16 hi s
  | .timDirect24 hi => Sys2Proof.Machine.execTimDirect24 hi s
  | .timMixed hi => Sys2Proof.Machine.execTimMixed hi s
  | .timInvalid5 hi => Sys2Proof.Machine.execTimInvalid5 hi s
  | .timInvalid6 hi => Sys2Proof.Machine.execTimInvalid6 hi s
  | .timInvalid7 hi => Sys2Proof.Machine.execTimInvalid7 hi s
  | .timIndexed4Pal hi => Sys2Proof.Machine.execTimIndexed4Pal hi s
  | .timIndexed8Pal hi => Sys2Proof.Machine.execTimIndexed8Pal hi s
  | .timDirect16Pal hi => Sys2Proof.Machine.execTimDirect16Pal hi s
  | .timDirect24Pal hi => Sys2Proof.Machine.execTimDirect24Pal hi s
  | .timMixedPal hi => Sys2Proof.Machine.execTimMixedPal hi s
  | .timInvalid5Pal hi => Sys2Proof.Machine.execTimInvalid5Pal hi s
  | .timInvalid6Pal hi => Sys2Proof.Machine.execTimInvalid6Pal hi s
  | .timInvalid7Pal hi => Sys2Proof.Machine.execTimInvalid7Pal hi s

end Sys2Proof.Machine
end

