-- ==== Sys2Proof/Machine/Fetch.lean ====
section
/-! DEFINITION. Taking the host's next move: loading the stream, and placing a table word where the step
fetches it. -/

namespace Sys2Proof.Machine

/-- The oldest pending host move is taken. -/
def State.takeMove (s : State) (rest : List HostMove) : State := { s with inbox := rest }

/-- STREAM and SLEN are loaded together (rules R37, R87). -/
def State.loadBytes (s : State) (bytes : List Byte) : State :=
  { s with stream := memOfBytes 0 bytes, slen := BitVec.ofNat 32 bytes.length }

/-- The host loads a stream of at most 2^32 - 1 bytes (rule R37). -/
def loadStream (bytes : List Byte) (s : State) : Out :=
  if bytes.length < 2 ^ 32 then .next (s.loadBytes bytes) else .refused .streamTooLong

/-- A command becomes the host's next move. -/
def placeCommand (s : State) (t : Transaction) : State := { s with inbox := .command t :: s.inbox }

/-- The four stream bytes of a u32, low byte first (rule R71). -/
def wordBytes (w : U32) : List Byte :=
  [w.extractLsb' 0 8, w.extractLsb' 8 8, w.extractLsb' 16 8, w.extractLsb' 24 8]

/-- A container with this flags word and zeros in every field after it (rules R101, R104, R106). -/
def flagsContainer (w : U32) : List Byte :=
  [0x10, 0, 0, 0] ++ wordBytes w ++ List.replicate 24 0

/-- DECODE_TIM becomes the host's next move, over a stream that begins with a container of this flags
word, with the registers it needs written (log entry 5). -/
def placeFlags (s : State) (w : U32) : State :=
  { placeCommand (s.loadBytes (flagsContainer w)) (zeroTransaction 0x02) with
    cur := 0, curWritten := true, maxresWritten := true }

/-- What `decodeTableWord` gives the decoder, placed where the step fetches it. -/
def placeEncoded (s : State) : Encoded → State
  | .command t => placeCommand s t
  | .timFlags w => placeFlags s w

end Sys2Proof.Machine
end

