-- ==== Sys2Proof/Machine/Step.lean ====
section
/-! DEFINITION. One step: the block takes the host's oldest pending move (rules R7, R83). -/

namespace Sys2Proof.Machine

/-- The step. A command is decoded and run, or ends with the outcome of its illegal encoding (rule R117);
a stream is loaded; with no move pending the block waits (rule R331). -/
def step (s : State) : Host.Outcome State Fault Refusal :=
  match s.inbox with
  | [] => .next s
  | .loadStream bytes :: rest => loadStream bytes (s.takeMove rest)
  | .command t :: rest =>
    match decode (.command t) with
    | .ok i => exec i (s.takeMove rest)
    | .error e => illegalEncoding (s.takeMove rest) e

/-- The state with a word of the opcode table where the step fetches its next instruction: a command
word as the host's next move, a TIM flags word in a container that the next move decodes. -/
def State.withFetchWord (s : State) (nbits w : Nat) : State := placeEncoded s (tableEncoded nbits w)

end Sys2Proof.Machine
end

