-- ==== Sys2Proof/Safety.lean ====
section
/-! DEFINITION. What counts as a legal state of the block, in the terms the statements use. -/

namespace Sys2Proof.Machine

/-- The stream is canonical and lies below SLEN (rule R37, log entry 7). -/
def State.streamCanonical (s : State) : Bool := Memory.wf s.slen.toNat s.stream

/-- Both regions of a page are canonical tables of its 65536 cells (rule R45, log entry 8). -/
def pageCanonical (pg : Page) : Bool :=
  cellsWf colorZero colorZero 0 65536 pg.color && cellsWf 0 0 0 65536 pg.stp

/-- Every page is canonical. -/
def State.pagesCanonical (s : State) : Prop := ∀ p : Fin 32, pageCanonical (s.page p) = true

/-- CFG bits 31:3 are 0 (rule R32). -/
def State.cfgLegal (s : State) : Prop := s.cfg.toNat < 8

/-- The palette metadata describes the rows the table holds (rules R39, R42, R43): there are at most 256 row
flags, and a valid table has PAL_ROWS rows of 16 or 256 entries, a stored flag for each row, PAL_STPANY the
OR of these flags, and at most a row's entries counted in PAL_COLS. -/
def Palette.consistent (p : Palette) : Prop :=
  p.rowStp.length ≤ 256 ∧ (p.valid = true →
    p.rows.length = p.nRows.toNat ∧ 1 ≤ p.nRows.toNat ∧ p.nRows.toNat ≤ 256 ∧
      (∀ r, r < p.nRows.toNat → ∃ b, p.rowStp[r]? = some (.stored b)) ∧
        (∀ row ∈ p.rows, row.length = rowSize p.fmt8) ∧
        p.stpAny = (List.range p.nRows.toNat).any (palRowFlag p) ∧
          1 ≤ p.nCols.toNat ∧ p.nCols.toNat ≤ rowSize p.fmt8)

/-- The store is set up only with both background registers written (rules R41, R230). -/
def State.setupWritten (s : State) : Prop :=
  s.pagesReady = true → s.bgcolorWritten = true ∧ s.bgstpWritten = true

/-- The outcome code that a reason belongs to (rule R306). -/
def Reason.code : Reason → Code
  | .none => .ok
  | .tagMismatch => .formatRejected
  | .versionMismatch => .formatRejected
  | .formatCodeInvalid => .formatRejected
  | .clutWidthBad => .formatRejected
  | .clutHeightBad => .formatRejected
  | .paletteRequiredMissing => .formatRejected
  | .strideZero => .formatRejected
  | .heightZero => .formatRejected
  | .widthZero => .formatRejected
  | .widthTooLarge => .formatRejected
  | .pageOutOfRange => .formatRejected
  | .headerTruncated => .truncatedInput
  | .paletteTruncated => .truncatedInput
  | .imageTruncated => .truncatedInput
  | .streamEnd => .decodeFault
  | .zeroWidth => .decodeFault
  | .badOpcode => .illegalCommand
  | .reservedBits => .illegalCommand
  | .badOperand => .illegalCommand
  | .uninitialized => .illegalCommand
  | .notSetup => .illegalCommand
  | .badRegister => .illegalCommand
  | .readOnlyRegister => .illegalCommand

/-- A response as rules R56, R300 and R306 have it: its reason belongs to its code, and a code other than
OK has no result. -/
def Response.legal (r : Response) : Prop := r.reason.code = r.code ∧ (r.code ≠ .ok → r.result = .none)

/-- STATUS shows the outcome of the last command, 0 before the first (rules R38, R55). -/
def State.statusMirrors (s : State) : Prop :=
  match s.response with
  | none => s.status = 0
  | some r => s.status = statusWord r.code r.reason ∧ r.legal

/-- The legal states: the invariant that every step keeps. -/
structure State.Legal (s : State) : Prop where
  stream  : s.streamCanonical = true
  pages   : s.pagesCanonical
  cfg     : s.cfgLegal
  palette : s.pal.consistent
  setup   : s.setupWritten
  status  : s.statusMirrors

/-- The last Upload event of a page. -/
def lastUpload (p : Fin 32) (l : List Upload) : Option Upload := (l.filter fun u => u.page = p).getLast?

/-- The event that would upload page p now (rule R246). -/
def State.snapshot (s : State) (p : Fin 32) : Upload := ⟨p, (s.page p).color, (s.page p).stp⟩

/-- Consumer coherence (rules R53, R88): when every draw marks its page modified, a page of a store that
is set up and is not modified equals the consumer's last event for it. -/
def State.consumerCoherent (s : State) : Prop :=
  s.params.deferredDrawMarks = .markBoth → s.pagesReady = true →
    ∀ p : Fin 32, (s.page p).modified = false → lastUpload p s.uploads = some (s.snapshot p)

/-- The u16 at a stream offset (rule R71). -/
def State.u16At (s : State) (a : Nat) : Nat := memRead s.stream a 2

/-- The u32 at a stream offset (rule R71). -/
def State.u32At (s : State) (a : Nat) : Nat := memRead s.stream a 4

/-- The byte at a stream offset. -/
def State.u8At (s : State) (a : Nat) : Byte := memByte s.stream a

/-- Row j, column i of an array of rows; none outside it. -/
def cellAt {α : Type} (rows : List (List α)) (j i : Nat) : Option α :=
  match rows[j]? with
  | some row => row[i]?
  | none => none

/-- An array of `h` rows of `w` cells. -/
def Dims {α : Type} (w h : Nat) (rows : List (List α)) : Prop :=
  rows.length = h ∧ ∀ row ∈ rows, row.length = w

/-- Texture well-formedness in the words of rule R48. -/
def WellFormedTexture (t : Texture) : Prop :=
  Dims t.width t.height t.color ∧
    (if t.fmt = .direct24 then t.mask = none
      else ∃ rows, t.mask = some rows ∧ Dims t.width t.height rows) ∧
    t.page ≤ 31 ∧ t.isPage = false ∧ ∀ row ∈ t.color, ∀ c ∈ row, c.a = 0 ∨ c.a = 255

/-- The pixel of a texture that covers cell (x, y) of its page, if one does (rules R79, R235). -/
def coveringPixel (t : Texture) (x y : Nat) : Option Color :=
  if t.x ≤ x ∧ t.y ≤ y then cellAt t.color (y - t.y) (x - t.x) else none

/-- The mask value of the pixel that covers cell (x, y): the texture's, or OPAQUE_STP for a texture
without a mask (rule R234). -/
def coveringMask (opaqueStp : Byte) (t : Texture) (x y : Nat) : Byte :=
  match t.mask with
  | some rows => (cellAt rows (y - t.y) (x - t.x)).getD opaqueStp
  | none => opaqueStp

/-- Entry c of palette row r, by the rules of the palette load, for a clut of width `cw` whose entries
start at stream offset `a`, in rows of `size` entries (rules R105, R130, R135, R137). -/
def State.entryAt (s : State) (a cw size r c : Nat) : PalEntry :=
  if c < min cw size then expand16 (BitVec.ofNat 16 (s.u16At (a + 2 * (r * cw + c))))
  else if s.params.unreadEntry = .entry0 then expand16 (BitVec.ofNat 16 (s.u16At (a + 2 * (r * cw))))
  else maskingBlack

/-- The flag of palette row r: some stored entry has bit 15 (rule R138). -/
def State.rowFlagAt (s : State) (a cw size r : Nat) : Bool :=
  (List.range (min cw size)).any fun c => decide (32768 ≤ s.u16At (a + 2 * (r * cw + c)))

/-- The 4-bit index of pixel i of an Indexed4 row at a stream offset, low nibble first (rule R110). -/
def State.nibbleAt (s : State) (a i : Nat) : Nat :=
  if i % 2 = 0 then (s.u8At (a + i / 2)).toNat % 16 else (s.u8At (a + i / 2)).toNat / 16

/-- The width check admits a width: at most MAXRES (rule R175), and none when MAXRES is 0 (rule R33) but
under `compareWidth` (log entry 15). -/
def State.admitsWidth (s : State) (w : Nat) : Prop :=
  w ≤ s.maxres.toNat ∧ (s.maxres.toNat = 0 → s.params.zeroMaxres = .compareWidth)

/-- Whether a container with a palette block has 256-entry rows and 8-bit pixels: code 1, and from clut
width 256 on codes 2 and 3 (rule R168). -/
def rowsOf256 (code : PixelFormat) (cw : Nat) : Bool :=
  decide (code = .indexed8 ∨ (code ≠ .indexed4 ∧ 256 ≤ cw))

/-- The row of the flags word for a format code with a palette block (rule R103). -/
def paletteRow : PixelFormat → BitVec 28 → Instr
  | .indexed4, hi => .timIndexed4Pal hi
  | .indexed8, hi => .timIndexed8Pal hi
  | .direct16, hi => .timDirect16Pal hi
  | .direct24, hi => .timDirect24Pal hi

/-- The rows of the flags word that are fast-rejected (rules R103, R166). -/
def fastRejectRows (hi : BitVec 28) : List Instr :=
  [.timMixed hi, .timInvalid5 hi, .timInvalid6 hi, .timInvalid7 hi, .timMixedPal hi, .timInvalid5Pal hi,
    .timInvalid6Pal hi, .timInvalid7Pal hi]

/-- The commands and rows that read the stream (rules R140, R160). -/
def readsStream : Instr → Bool
  | .decodeTim => true
  | .readPalette _ _ _ _ => true
  | .timIndexed4 _ => true
  | .timIndexed8 _ => true
  | .timDirect16 _ => true
  | .timDirect24 _ => true
  | .timMixed _ => true
  | .timInvalid5 _ => true
  | .timInvalid6 _ => true
  | .timInvalid7 _ => true
  | .timIndexed4Pal _ => true
  | .timIndexed8Pal _ => true
  | .timDirect16Pal _ => true
  | .timDirect24Pal _ => true
  | .timMixedPal _ => true
  | .timInvalid5Pal _ => true
  | .timInvalid6Pal _ => true
  | .timInvalid7Pal _ => true
  | .setup => false
  | .getModeFromClut _ => false
  | .draw _ _ => false
  | .clear _ => false
  | .clearAll => false
  | .updatePage _ _ => false
  | .updateAllPages _ => false
  | .isUsed _ => false
  | .containsPage _ => false
  | .clampPage _ => false
  | .clampCoord _ => false
  | .exportPageColor _ => false
  | .exportPageStp _ => false
  | .exportTextureGrid _ _ => false
  | .exportPageTiled _ _ _ _ _ _ _ _ => false
  | .readReg _ => false
  | .writeReg _ _ => false

/-- A command that gives an outcome and changes nothing but STATUS and the response. -/
def State.answers (s : State) (code : Code) (reason : Reason) (result : Result) : State :=
  { s with status := statusWord code reason, response := some ⟨code, reason, result⟩ }

/-- The outcome of a candidate that ends without result, from cursor range [lo, hi] (rules R56, R183):
the given code and reason, no result, CUR in the range, one free value drawn, the rest as before. -/
def State.candidateEnds (s t : State) (lo hi : Nat) (code : Code) (reason : Reason) : Prop :=
  t = { s.answers code reason .none with cur := t.cur, draws := s.draws + 1 } ∧
    lo ≤ t.cur.toNat ∧ t.cur.toNat ≤ hi

/-- The palette block whose header lies at stream offset `q` has legal dimensions (rules R104, R169). -/
def State.clutLegal (s : State) (q : Nat) : Prop :=
  1 ≤ s.u16At (q + 8) ∧ s.u16At (q + 8) ≤ 256 ∧ 1 ≤ s.u16At (q + 10) ∧ s.u16At (q + 10) ≤ 256

/-- Where the image header follows the palette block whose header lies at stream offset `q` (rule R106). -/
def State.imageAfter (s : State) (q : Nat) : Nat := q + 12 + 2 * s.u16At (q + 8) * s.u16At (q + 10)

/-- The bytes from row to row of 8-bit or 4-bit pixels: 2 * strideWords, and for Indexed8 under Forced4
4 * ceil(width / 4) with width 2 * strideWords (rules R107, R178). -/
def State.palettedRowBytes (s : State) (fmt8 : Bool) (st : Nat) : Nat :=
  if fmt8 = true ∧ s.params.idx8RowRule = .forced4 then 4 * ((2 * st + 3) / 4) else 2 * st

/-- The rows that a load of the palette block at stream offset `q` decodes: all, or the first where CFG asks
for it alone (rules R134, R171). -/
def State.rowsAsked (s : State) (q : Nat) : Nat := if s.firstRowOnly then 1 else s.u16At (q + 10)

/-- PALDIM of `t` holds the fields of the palette header at stream offset `q` of `s` (rules R40, R171). -/
def State.holdsPalDim (s t : State) (q : Nat) : Prop :=
  t.paldim.toNat = s.u16At (q + 4) + 2 ^ 16 * s.u16At (q + 6) + 2 ^ 32 * s.u16At (q + 8) +
    2 ^ 48 * s.u16At (q + 10)

/-- The palette table and PALDIM of `t` hold the completed load of the palette block at stream offset `q` of
`s` (rules R43, R134 to R139, R171): the metadata, the overall flag, the flag and every entry of each row it
decodes, and the flags of the other rows as before. -/
def State.holdsPalette (s t : State) (q : Nat) (fmt8 : Bool) : Prop :=
  let cw := s.u16At (q + 8)
  let size := if fmt8 then 256 else 16
  s.holdsPalDim t q ∧ t.pal.valid = true ∧ t.pal.fmt8 = fmt8 ∧ t.pal.nRows.toNat = s.rowsAsked q ∧
    t.pal.nCols.toNat = min cw size ∧
    t.pal.stpAny = (List.range (s.rowsAsked q)).any (s.rowFlagAt (q + 12) cw size) ∧
    (∀ r, s.rowsAsked q ≤ r → palRowFlag t.pal r = palRowFlag s.pal r) ∧
    ∀ r, r < s.rowsAsked q →
      palRowFlag t.pal r = s.rowFlagAt (q + 12) cw size r ∧
        ∀ c, c < size → palCell t.pal r c = s.entryAt (q + 12) cw size r c

/-- The outcome of a candidate that ends without result after the palette block at stream offset `q` was
loaded (rules R183, R309, R339): as `candidateEnds`, with the load kept and the two values drawn. -/
def State.candidateEndsLoaded (s t : State) (q : Nat) (fmt8 : Bool) (lo hi : Nat) (code : Code)
    (reason : Reason) : Prop :=
  t = { s.answers code reason .none with
      cur := t.cur, paldim := t.paldim, pal := t.pal, draws := s.draws + 2 } ∧
    s.holdsPalette t q fmt8 ∧ lo ≤ t.cur.toNat ∧ t.cur.toNat ≤ hi

end Sys2Proof.Machine
end

