-- ==== Sys2Proof/WellFormed.lean ====
section
/-! DEFINITION. Which terms of `Instr` an encoding exists for. Every other bound on an operand is in its
type; the checks the spec makes at run time (rule R48 among them) are the meanings' own. -/

namespace Sys2Proof

/-- The format select of READ_PALETTE is 0 or 1; 2 and 3 are illegal encodings (rules R114, R117). -/
def formatSelectOk (m : BitVec 2) : Bool := decide (m.toNat < 2)

/-- An instruction is well formed when some command word or flags word decodes to it. -/
def Instr.wf : Instr → Bool
  | .setup => true
  | .decodeTim => true
  | .readPalette m _ _ _ => formatSelectOk m
  | .getModeFromClut _ => true
  | .draw _ _ => true
  | .clear _ => true
  | .clearAll => true
  | .updatePage _ _ => true
  | .updateAllPages _ => true
  | .isUsed _ => true
  | .containsPage _ => true
  | .clampPage _ => true
  | .clampCoord _ => true
  | .exportPageColor _ => true
  | .exportPageStp _ => true
  | .exportTextureGrid _ _ => true
  | .exportPageTiled _ _ _ _ _ _ _ _ => true
  | .readReg _ => true
  | .writeReg _ _ => true
  | .timIndexed4 _ => true
  | .timIndexed8 _ => true
  | .timDirect16 _ => true
  | .timDirect24 _ => true
  | .timMixed _ => true
  | .timInvalid5 _ => true
  | .timInvalid6 _ => true
  | .timInvalid7 _ => true
  | .timIndexed4Pal _ => true
  | .timIndexed8Pal _ => true
  | .timDirect16Pal _ => true
  | .timDirect24Pal _ => true
  | .timMixedPal _ => true
  | .timInvalid5Pal _ => true
  | .timInvalid6Pal _ => true
  | .timInvalid7Pal _ => true

end Sys2Proof
end

