-- ==== Sys2Proof/Certificates/Slice0/Obligations.lean ====
section
/-! DEFINITION. The statements for the provers. Each docstring cites the rule or the sections it
formalises. -/

open Sys2Proof Sys2Proof.Machine

/-! ### Encodings and the step -/

/-- Decoding the words of a well-formed instruction gives the instruction back, every operand at every
value its encoding admits (spec/30_encoding.md R102, R114 to R116). -/
def Obligations.DecodeInvertsEncode : Prop := ∀ i : Instr, i.wf = true → decode (encode i) = .ok i

/-- Words written out from the encodings of the spec decode to the instructions they stand for
(spec/95_test_vectors.md: `WRITE_REG CFG, 2`, `READ_PALETTE 4, 2, 3, first`, `UPDATE_PAGE 17, force`,
`READ_REG STATUS`, flags 0x0A). -/
def Obligations.WrittenOutWordsDecode : Prop :=
  decode (.command ⟨0x00000031, 2, 0, .none⟩) = .ok (.writeReg 0 2) ∧
    decode (.command ⟨0x00000103, 2, 3, .none⟩) = .ok (.readPalette 0 true 2 3) ∧
    decode (.command ⟨0x00002313, 0, 0, .none⟩) = .ok (.updatePage 17 true) ∧
    decode (.command ⟨0x00000C30, 0, 0, .none⟩) = .ok (.readReg 6) ∧
    decode (.timFlags 0x0000000A) = .ok (.timDirect16Pal 0)

/-- R115, R117, R307: an undefined opcode, then a reserved bit or a nonzero field that must be 0, then M of
2 or 3 on READ_PALETTE end the command before every other check, in this order (R307), and change no state
but STATUS. The clauses are written with the arithmetic of the fields and the columns of R115. That the
host's moves stand in `inbox`, and the one taken leaves it, is the model's choice (log entry 6). -/
def Obligations.IllegalEncodingsEndTheCommand : Prop :=
  ∀ (s : State) (t : Transaction) (rest : List HostMove), s.inbox = .command t :: rest →
    let c := t.cmd.toNat
    let defined := c % 256 ∈ [1, 2, 3, 4, 16, 17, 18, 19, 20, 21, 22, 23, 24, 32, 33, 34, 35, 48, 49]
    let reserved := c / 65536 ≠ 0 ∨
      (c % 256 ∉ [3, 16, 19, 20] ∧ c / 256 % 2 ≠ 0) ∨
      (c % 256 ∉ [17, 19, 21, 32, 33, 35, 48, 49] ∧ c / 512 % 32 ≠ 0) ∨
      (c % 256 ∉ [3] ∧ c / 16384 % 4 ≠ 0)
    (¬defined →
      step s = .next { s with
        inbox := rest, status := 0x3005, response := some ⟨.illegalCommand, .badOpcode, .none⟩ }) ∧
    (defined → reserved →
      step s = .next { s with
        inbox := rest, status := 0x3105, response := some ⟨.illegalCommand, .reservedBits, .none⟩ }) ∧
    (c % 256 = 3 → ¬reserved → 2 ≤ c / 16384 % 4 →
      step s = .next { s with
        inbox := rest, status := 0x3205, response := some ⟨.illegalCommand, .badOperand, .none⟩ })

/-- R116: EXPORT_PAGE_TILED unpacks rx, ry, rw, rh from ARG0 and nx, ny from ARG1, and hands on ARG1 bits
63:32. That a payload of the command, which uses none, is ignored is the model's choice (log entry 10). -/
def Obligations.TiledOperandsUnpack : Prop :=
  ∀ (p : BitVec 5) (a0 a1 : U64) (pl : Payload),
    ∃ (rx ry rw rh nx ny : U16) (hi : U32),
      decode (.command ⟨BitVec.ofNat 32 (0x23 + 512 * p.toNat), a0, a1, pl⟩) =
          .ok (.exportPageTiled p rx ry rw rh nx ny hi) ∧
        a0.toNat = rx.toNat + 2 ^ 16 * ry.toNat + 2 ^ 32 * rw.toNat + 2 ^ 48 * rh.toNat ∧
        a1.toNat = nx.toNat + 2 ^ 16 * ny.toNat + 2 ^ 32 * hi.toNat

/-- A step runs the decoded instruction: when the host's oldest pending move is a command that decodes to
a well-formed instruction, the step is exec of it on the state with that move taken (R83, R121). That the
host's moves stand in `inbox` is the model's choice (log entry 6). -/
def Obligations.StepRunsDecodedCommand : Prop :=
  ∀ (s : State) (t : Transaction) (rest : List HostMove) (i : Instr),
    s.inbox = .command t :: rest → decode (.command t) = .ok i → i.wf = true →
      step s = exec i { s with inbox := rest }

/-- R163 to R165: when the container at CUR has the tag, an admitted version and a flags word in the
stream, DECODE_TIM runs the row of the format table that the flags word selects, from just after it. That a
row is an instruction of its own, which starts there, is the model's choice (log entry 5). -/
def Obligations.DecodeTimRunsTheFlagsWord : Prop :=
  ∀ s : State, s.curWritten = true → s.maxresWritten = true →
    s.cur.toNat + 8 ≤ s.slen.toNat → s.u16At s.cur.toNat = 0x10 →
    (s.u16At (s.cur.toNat + 2) = 0 ∨ s.ignoreVersion = true) →
      exec .decodeTim s =
        exec (decodeFlags (BitVec.ofNat 32 (s.u32At (s.cur.toNat + 4)))) { s with cur := s.cur + 8 }

/-- R37, R87: a stream load sets SLEN and every byte of STREAM, and nothing else. That it is a move of its
own in `inbox`, and the canonical form in which the stream is held, are the model's choices (log entries 6
and 7). -/
def Obligations.StepLoadsStream : Prop :=
  ∀ (s : State) (bytes : List Byte) (rest : List HostMove),
    s.inbox = .loadStream bytes :: rest → bytes.length < 2 ^ 32 →
      ∃ t, step s = .next t ∧
        t = { s with inbox := rest, stream := t.stream, slen := BitVec.ofNat 32 bytes.length } ∧
        Memory.wf bytes.length t.stream = true ∧
        ∀ a (h : a < bytes.length), t.u8At a = bytes[a]

/-- The model's choices (log entries 6 and 9, from R331 and R37): with no host move pending the block
waits, and a load longer than 2^32 - 1 bytes is refused. -/
def Obligations.StepWaitsAndRefusesOverlongLoads : Prop :=
  (∀ s : State, s.inbox = [] → step s = .next s) ∧
    ∀ (s : State) (bytes : List Byte) (rest : List HostMove),
      s.inbox = .loadStream bytes :: rest → 2 ^ 32 ≤ bytes.length → step s = .refused .streamTooLong

/-! ### Reset, legality, outcomes -/

/-- R330: the values the spec states for reset. -/
def Obligations.ResetHasTheStatedValues : Prop :=
  State.reset.cfg = 0 ∧ State.reset.status = 0 ∧ palInfo State.reset.pal = 0 ∧ State.reset.paldim = 0 ∧
    State.reset.slen = 0 ∧ State.reset.stream = [] ∧ State.reset.pagesReady = false ∧
    State.reset.uploads = [] ∧ State.reset.maxresWritten = false ∧ State.reset.bgcolorWritten = false ∧
    State.reset.bgstpWritten = false ∧ State.reset.curWritten = false

/-- The state after reset is legal and its consumer is coherent. That its stream and its pages are canonical
rests on the model's choices: the page contents named for reset (log entry 1) and the forms of the stream and
of a page (log entries 7 and 8). -/
def Obligations.ResetIsLegalAndCoherent : Prop :=
  State.reset.Legal ∧ State.reset.consumerCoherent

/-- Every step from a legal state gives a legal state: the stream and the pages stay in the model's
canonical forms (its choices, log entries 7 and 8), CFG bits 31:3 stay 0 (R32), a valid palette table keeps
its metadata in agreement with its rows (R39, R43), the store is set up only with both background registers
written (R41, R230), and STATUS shows the outcome of the last command with a reason that belongs to its code
and no result but on OK (R38, R56, R306). -/
def Obligations.StepKeepsLegal : Prop := ∀ s t : State, s.Legal → step s = .next t → t.Legal

/-- R53, R88: every step keeps consumer coherence. A page of a store that is set up and is not marked
modified equals the consumer's last event for it, when every draw marks its page. -/
def Obligations.StepKeepsConsumerCoherent : Prop :=
  ∀ s t : State, s.consumerCoherent → step s = .next t → t.consumerCoherent

/-- The model's choice (log entry 2, from R11): no step changes a model parameter. -/
def Obligations.ParamsNeverChange : Prop := ∀ s t : State, step s = .next t → t.params = s.params

/-- R56, R300, R310: every instruction ends with a response whose code and reason STATUS shows; the code
is one of OK, FORMAT_REJECTED, TRUNCATED_INPUT, DECODE_FAULT and ILLEGAL_COMMAND, the reason belongs to
it, and a code other than OK has no result. -/
def Obligations.EveryInstructionAnswers : Prop :=
  ∀ (i : Instr) (s : State), ∃ t r, exec i s = .next t ∧ t.response = some r ∧
    t.status = statusWord r.code r.reason ∧ r.code ≠ .none ∧ r.legal

/-- R300, R306: STATUS = CODE + 256 * REASON, with the numbers of the two tables. -/
def Obligations.StatusNumbers : Prop :=
  (∀ c r, (statusWord c r).toNat = c.toByte.toNat + 256 * r.toByte.toNat) ∧
    [Code.none, .ok, .formatRejected, .truncatedInput, .decodeFault, .illegalCommand].map
      (·.toByte.toNat) = [0, 1, 2, 3, 4, 5] ∧
    [Reason.none, .tagMismatch, .versionMismatch, .formatCodeInvalid, .clutWidthBad, .clutHeightBad,
      .paletteRequiredMissing, .strideZero, .heightZero, .widthZero, .widthTooLarge, .pageOutOfRange,
      .headerTruncated, .paletteTruncated, .imageTruncated, .streamEnd, .zeroWidth, .badOpcode,
      .reservedBits, .badOperand, .uninitialized, .notSetup, .badRegister, .readOnlyRegister].map
      (·.toByte.toNat) =
      [0, 1, 2, 3, 4, 5, 6, 7, 8, 9, 10, 11, 16, 17, 18, 32, 33, 48, 49, 50, 51, 52, 53, 54]

/-- R304: an instruction, and a command that the host issues with whatever encoding, that ends with
ILLEGAL_COMMAND changes no state except STATUS and the response that carries it (for a command, the host's
move is taken from `inbox`, the model's field of log entry 6). -/
def Obligations.IllegalCommandChangesOnlyStatus : Prop :=
  (∀ (i : Instr) (s t : State) (r : Response), exec i s = .next t → t.response = some r →
    r.code = .illegalCommand → t = { s with status := t.status, response := t.response }) ∧
    ∀ (s t : State) (c : Transaction) (rest : List HostMove) (r : Response),
      s.inbox = .command c :: rest → step s = .next t → t.response = some r →
        r.code = .illegalCommand →
          t = { s with inbox := rest, status := t.status, response := t.response }

/-- R231: before SETUP every page command, page export and READ_REG of PAGEFLAGS ends with
IllegalCommand(NOT_SETUP), whatever its operands; CONTAINS_PAGE, the clamps and EXPORT_TEXTURE_GRID never
do. -/
def Obligations.PageCommandsNeedSetup : Prop :=
  ∀ s : State, s.pagesReady = false →
    (∀ suppress tex, exec (.draw suppress tex) s = .next (s.answers .illegalCommand .notSetup .none)) ∧
    (∀ p, exec (.clear p) s = .next (s.answers .illegalCommand .notSetup .none)) ∧
    exec .clearAll s = .next (s.answers .illegalCommand .notSetup .none) ∧
    (∀ p force, exec (.updatePage p force) s = .next (s.answers .illegalCommand .notSetup .none)) ∧
    (∀ force, exec (.updateAllPages force) s = .next (s.answers .illegalCommand .notSetup .none)) ∧
    (∀ p, exec (.isUsed p) s = .next (s.answers .illegalCommand .notSetup .none)) ∧
    (∀ p, exec (.exportPageColor p) s = .next (s.answers .illegalCommand .notSetup .none)) ∧
    (∀ p, exec (.exportPageStp p) s = .next (s.answers .illegalCommand .notSetup .none)) ∧
    (∀ p rx ry rw rh nx ny hi, exec (.exportPageTiled p rx ry rw rh nx ny hi) s =
      .next (s.answers .illegalCommand .notSetup .none)) ∧
    exec (.readReg 9) s = .next (s.answers .illegalCommand .notSetup .none) ∧
    ∀ v l i, i ∈ [Instr.containsPage v, .clampPage v, .clampCoord v, .exportTextureGrid v l] →
      exec i s ≠ .next (s.answers .illegalCommand .notSetup .none)

/-! ### The page store -/

/-- R230: with BGCOLOR and BGSTP written, SETUP fills every cell of both regions of every page with them,
sets used to 0 and modified to 1 for every page and sets PAGES_READY; with either unwritten it ends with
IllegalCommand(UNINITIALIZED). Nothing else changes. -/
def Obligations.SetupInitialisesEveryPage : Prop :=
  ∀ s : State,
    (s.bgcolorWritten = true → s.bgstpWritten = true →
      ∃ t, exec .setup s = .next t ∧
        t = { s.answers .ok .none .none with pages := t.pages, pagesReady := true } ∧
        ∀ p : Fin 32, (t.page p).used = false ∧ (t.page p).modified = true ∧
          ∀ x y, x < 256 → y < 256 →
            argb32 (colorCell (t.page p) x y) = s.bgcolor ∧ stpCell (t.page p) x y = s.bgstp) ∧
    (s.bgcolorWritten = false ∨ s.bgstpWritten = false →
      exec .setup s = .next (s.answers .illegalCommand .uninitialized .none))

/-- R232 to R236: DRAW of a well-formed texture. On its page, a cell covered by a pixel of alpha 255 takes
that colour and every other colour cell is as before; a covered side-band cell takes the mask value (or
OPAQUE_STP), under FollowAlpha only where the colour was drawn, and every other is as before; the flags
are marked as DEFERRED_DRAW_MARKS says. Every other page, UPLOADS and every other piece of state is as
before. -/
def Obligations.DrawCompositesTheTexture : Prop :=
  ∀ (s : State) (suppress : Bool) (tex : Texture), s.pagesReady = true → WellFormedTexture tex →
    ∃ t, exec (.draw suppress tex) s = .next t ∧
      t = { s.answers .ok .none .none with pages := t.pages } ∧
      (∀ p : Fin 32, p.val ≠ tex.page → t.page p = s.page p) ∧
      ∀ p : Fin 32, p.val = tex.page →
        (∀ x y, x < 256 → y < 256 →
          colorCell (t.page p) x y =
            (match coveringPixel tex x y with
              | some c => if c.a = 255 then c else colorCell (s.page p) x y
              | none => colorCell (s.page p) x y) ∧
          stpCell (t.page p) x y =
            (match coveringPixel tex x y with
              | some c =>
                if s.params.maskWriteMode = .copy ∨ c.a = 255 then
                  coveringMask s.params.opaqueStp tex x y
                else stpCell (s.page p) x y
              | none => stpCell (s.page p) x y)) ∧
        (t.page p).used =
          (if suppress = true ∧ s.params.deferredDrawMarks = .markNeither then (s.page p).used
            else true) ∧
        (t.page p).modified =
          (if suppress = true ∧ s.params.deferredDrawMarks ≠ .markBoth then (s.page p).modified
            else true)

/-- R48: a texture payload that is not well formed ends DRAW, and EXPORT_TEXTURE_GRID whatever its
columns, with IllegalCommand(BAD_OPERAND), and nothing else changes. -/
def Obligations.BadTexturesAreRefused : Prop :=
  ∀ (s : State) (tex : Texture), ¬WellFormedTexture tex →
    (∀ suppress, s.pagesReady = true →
      exec (.draw suppress tex) s = .next (s.answers .illegalCommand .badOperand .none)) ∧
    ∀ (cols : U64) (l : List Texture), tex ∈ l →
      exec (.exportTextureGrid cols l) s = .next (s.answers .illegalCommand .badOperand .none)

/-- R48, R208: every texture that DECODE_TIM returns is well formed. -/
def Obligations.DecodedTexturesAreWellFormed : Prop :=
  ∀ (s t : State) (tex : Texture), exec .decodeTim s = .next t →
    t.response = some ⟨.ok, .none, .texture tex⟩ → WellFormedTexture tex

/-- R237, R247: CLEAR fills every cell of both regions of the page it names with BGCOLOR and BGSTP, sets
its used to 0 and its modified to 1, and changes nothing else. -/
def Obligations.ClearResetsOnePage : Prop :=
  ∀ (s : State) (p : BitVec 5), s.pagesReady = true →
    ∃ t, exec (.clear p) s = .next t ∧
      t = { s.answers .ok .none .none with pages := t.pages } ∧
      ∀ q : Fin 32,
        (q.val ≠ p.toNat → t.page q = s.page q) ∧
        (q.val = p.toNat →
          (t.page q).used = false ∧ (t.page q).modified = true ∧
            ∀ x y, x < 256 → y < 256 →
              argb32 (colorCell (t.page q) x y) = s.bgcolor ∧ stpCell (t.page q) x y = s.bgstp)

/-- Runs CLEAR of each page of a list, in order. -/
def runClears (l : List (BitVec 5)) (s : State) : Out :=
  l.foldl
    (fun o p =>
      match o with
      | .next u => exec (.clear p) u
      | .fault r => .fault r
      | .refused r => .refused r)
    (.next s)

/-- R238: CLEAR_ALL resets every page, changes nothing else, and is identical in effect to the CLEAR of
all 32 pages in any order. -/
def Obligations.ClearAllIsEveryClear : Prop :=
  ∀ s : State, s.pagesReady = true →
    (∃ t, exec .clearAll s = .next t ∧
      t = { s.answers .ok .none .none with pages := t.pages } ∧
      ∀ q : Fin 32, (t.page q).used = false ∧ (t.page q).modified = true ∧
        ∀ x y, x < 256 → y < 256 →
          argb32 (colorCell (t.page q) x y) = s.bgcolor ∧ stpCell (t.page q) x y = s.bgstp) ∧
    ∀ l : List (BitVec 5), (∀ p, p ∈ l) → runClears l s = exec .clearAll s

/-- R239, R246: UPDATE_PAGE of a modified page, or of any page when forced, appends one event with the
page's two regions, sets modified to 0 and returns 1; of any other page it does nothing and returns 0. No
cell, no used flag and no other page changes. -/
def Obligations.UpdatePageUploads : Prop :=
  ∀ (s : State) (p : BitVec 5) (force : Bool) (q : Fin 32), s.pagesReady = true → q.val = p.toNat →
    (force = true ∨ (s.page q).modified = true →
      ∃ t, exec (.updatePage p force) s = .next t ∧
        t = { s.answers .ok .none (.bit true) with
          pages := t.pages, uploads := s.uploads ++ [⟨q, (s.page q).color, (s.page q).stp⟩] } ∧
        t.page q = { s.page q with modified := false } ∧ ∀ o, o ≠ q → t.page o = s.page o) ∧
    (force = false → (s.page q).modified = false →
      exec (.updatePage p force) s = .next (s.answers .ok .none (.bit false)))

/-- R240: UPDATE_ALL_PAGES appends the events of the modified pages, of every page when forced, in
ascending page order, sets modified to 0 for each of them and returns how many there were; with force
exactly 32. -/
def Obligations.UpdateAllPagesInOrder : Prop :=
  ∀ (s : State) (force : Bool), s.pagesReady = true →
    let sel := (List.finRange 32).filter fun p => force || (s.page p).modified
    ∃ t, exec (.updateAllPages force) s = .next t ∧
      t = { s.answers .ok .none (.int sel.length) with
        pages := t.pages, uploads := s.uploads ++ sel.map s.snapshot } ∧
      (force = true → sel.length = 32) ∧
      ∀ p, t.page p = if p ∈ sel then { s.page p with modified := false } else s.page p

/-- R241: IS_USED returns used[p]. -/
def Obligations.IsUsedAnswers : Prop :=
  ∀ (s : State) (p : BitVec 5) (q : Fin 32), s.pagesReady = true → q.val = p.toNat →
    exec (.isUsed p) s = .next (s.answers .ok .none (.bit (s.page q).used))

/-- R242 to R244: CONTAINS_PAGE, CLAMP_PAGE and CLAMP_COORD, on ARG0 as a signed 64-bit number. -/
def Obligations.RangeHelpersAnswer : Prop :=
  ∀ (s : State) (v : U64),
    exec (.containsPage v) s =
        .next (s.answers .ok .none (.bit (decide (0 ≤ v.toInt ∧ v.toInt ≤ 31)))) ∧
      exec (.clampPage v) s = .next (s.answers .ok .none (.int (min (max v.toInt 0) 31))) ∧
      exec (.clampCoord v) s = .next (s.answers .ok .none (.int (min (max v.toInt 0) 255)))

/-- The state after a second instruction run on the outcome of a first. -/
def andThenRun (o : Out) (i : Instr) : Out :=
  match o with
  | .next u => exec i u
  | .fault r => .fault r
  | .refused r => .refused r

/-- R84: two draws to different pages give the same state in either order. -/
def Obligations.DrawsToDistinctPagesCommute : Prop :=
  ∀ (s : State) (f g : Bool) (a b : Texture), s.pagesReady = true → WellFormedTexture a →
    WellFormedTexture b → a.page ≠ b.page →
      andThenRun (exec (.draw f a) s) (.draw g b) = andThenRun (exec (.draw g b) s) (.draw f a)

/-- R236, R312: only UPDATE_PAGE and UPDATE_ALL_PAGES append to UPLOADS, and no instruction removes from
it. -/
def Obligations.OnlyUpdatesEmitUploads : Prop :=
  ∀ (i : Instr) (s t : State), exec i s = .next t →
    (∃ l, t.uploads = s.uploads ++ l) ∧
      ((∀ p f, i ≠ .updatePage p f) → (∀ f, i ≠ .updateAllPages f) → t.uploads = s.uploads)

/-- The model's choice (log entry 8): the form in which a page is held is canonical, so two canonical
pages with the same cells and flags are the same data. -/
def Obligations.EqualContentsAreEqualPages : Prop :=
  ∀ a b : Page, pageCanonical a = true → pageCanonical b = true → a.used = b.used →
    a.modified = b.modified →
    (∀ x y, x < 256 → y < 256 → colorCell a x y = colorCell b x y ∧ stpCell a x y = stpCell b x y) →
      a = b

/-! ### Export -/

/-- R270, R271: the page exports return the 256 x 256 image of the region's cells and change nothing but
STATUS. -/
def Obligations.PageExportsReturnTheRegions : Prop :=
  ∀ (s : State) (p : BitVec 5) (q : Fin 32), s.pagesReady = true → q.val = p.toNat →
    (∃ img, exec (.exportPageColor p) s = .next (s.answers .ok .none (.colorImage img)) ∧
      img.width = 256 ∧ img.height = 256 ∧ Dims 256 256 img.rows ∧
      ∀ j i, j < 256 → i < 256 → cellAt img.rows j i = some (colorCell (s.page q) i j)) ∧
    ∃ img, exec (.exportPageStp p) s = .next (s.answers .ok .none (.stpImage img)) ∧
      img.width = 256 ∧ img.height = 256 ∧ Dims 256 256 img.rows ∧
      ∀ j i, j < 256 → i < 256 → cellAt img.rows j i = some (stpCell (s.page q) i j)

/-- R273: EXPORT_PAGE_TILED repeats a legal sub-rectangle nx times across and ny times down; ARG1 bits
63:32 not 0, a zero size or count, or a rectangle past x or y = 256 end with BAD_OPERAND. Nothing but
STATUS changes. -/
def Obligations.TiledExportRepeatsTheRectangle : Prop :=
  ∀ (s : State) (p : BitVec 5) (q : Fin 32) (rx ry rw rh nx ny : U16) (hi : U32),
    s.pagesReady = true → q.val = p.toNat →
    let legal := hi = 0 ∧ rw ≠ 0 ∧ rh ≠ 0 ∧ nx ≠ 0 ∧ ny ≠ 0 ∧ rx.toNat + rw.toNat ≤ 256 ∧
      ry.toNat + rh.toNat ≤ 256
    let w := nx.toNat * rw.toNat
    let h := ny.toNat * rh.toNat
    (legal →
      ∃ img, exec (.exportPageTiled p rx ry rw rh nx ny hi) s =
          .next (s.answers .ok .none (.colorImage img)) ∧
        img.width = w ∧ img.height = h ∧ Dims w h img.rows ∧
        ∀ j i, j < h → i < w →
          cellAt img.rows j i =
            some (colorCell (s.page q) (rx.toNat + i % rw.toNat) (ry.toNat + j % rh.toNat))) ∧
    (¬legal → exec (.exportPageTiled p rx ry rw rh nx ny hi) s =
      .next (s.answers .illegalCommand .badOperand .none))

/-- R272: EXPORT_TEXTURE_GRID of n well-formed textures in 1 to n columns. Cells are as wide as the widest
and as high as the highest texture; texture k stands at the top left of cell (k mod cols, k div cols), its
colours copied; every other cell of the image is (0, 0, 0, 0). A list or column count out of range ends
with BAD_OPERAND. Nothing but STATUS changes. -/
def Obligations.GridExportPlacesTheTextures : Prop :=
  ∀ (s : State) (cols : U64) (l : List Texture),
    (l.length = 0 ∨ cols.toNat = 0 ∨ cols.toNat > l.length →
      exec (.exportTextureGrid cols l) s = .next (s.answers .illegalCommand .badOperand .none)) ∧
    (0 < cols.toNat → cols.toNat ≤ l.length → (∀ tex ∈ l, WellFormedTexture tex) →
      ∃ img cw ch, exec (.exportTextureGrid cols l) s = .next (s.answers .ok .none (.colorImage img)) ∧
        (∀ tex ∈ l, tex.width ≤ cw ∧ tex.height ≤ ch) ∧
        (∃ tex ∈ l, tex.width = cw) ∧ (∃ tex ∈ l, tex.height = ch) ∧
        img.width = cols.toNat * cw ∧ img.height = (l.length + cols.toNat - 1) / cols.toNat * ch ∧
        Dims img.width img.height img.rows ∧
        (∀ k (hk : k < l.length) j i, j < l[k].height → i < l[k].width →
          cellAt img.rows (k / cols.toNat * ch + j) (k % cols.toNat * cw + i) =
            cellAt l[k].color j i) ∧
        ∀ y x, y < img.height → x < img.width →
          (∀ k (hk : k < l.length) j i, j < l[k].height → i < l[k].width →
            ¬(y = k / cols.toNat * ch + j ∧ x = k % cols.toNat * cw + i)) →
          cellAt img.rows y x = some colorZero)

/-- R274: no export command changes anything but STATUS and the response, and one that does not end with
OK returns no image. -/
def Obligations.ExportsAreReadOnly : Prop :=
  ∀ (s t : State) (i : Instr),
    ((∃ p, i = .exportPageColor p) ∨ (∃ p, i = .exportPageStp p) ∨
      (∃ c l, i = .exportTextureGrid c l) ∨
      ∃ p rx ry rw rh nx ny hi, i = .exportPageTiled p rx ry rw rh nx ny hi) →
    exec i s = .next t →
      t = { s with status := t.status, response := t.response } ∧
        ∃ r, t.response = some r ∧ (r.code ≠ .ok → r.result = .none)

/-! ### Registers -/

/-- R290: READ_REG in its order of checks. A number of 10 or above is BAD_REGISTER; PAGEFLAGS before SETUP
is NOT_SETUP; a register never written is UNINITIALIZED; otherwise it returns the register zero-extended,
STATUS as it was before the command. Only STATUS changes. -/
def Obligations.ReadRegReturnsTheRegister : Prop :=
  ∀ (s : State) (r : BitVec 5),
    (10 ≤ r.toNat → exec (.readReg r) s = .next (s.answers .illegalCommand .badRegister .none)) ∧
    (r = 9 → s.pagesReady = false →
      exec (.readReg r) s = .next (s.answers .illegalCommand .notSetup .none)) ∧
    ((r = 1 ∧ s.maxresWritten = false) ∨ (r = 2 ∧ s.bgcolorWritten = false) ∨
      (r = 3 ∧ s.bgstpWritten = false) ∨ (r = 4 ∧ s.curWritten = false) →
      exec (.readReg r) s = .next (s.answers .illegalCommand .uninitialized .none)) ∧
    ∀ v : Nat,
      ((r = 0 ∧ v = s.cfg.toNat) ∨ (r = 1 ∧ s.maxresWritten = true ∧ v = s.maxres.toNat) ∨
        (r = 2 ∧ s.bgcolorWritten = true ∧ v = s.bgcolor.toNat) ∨
        (r = 3 ∧ s.bgstpWritten = true ∧ v = s.bgstp.toNat) ∨
        (r = 4 ∧ s.curWritten = true ∧ v = s.cur.toNat) ∨ (r = 5 ∧ v = s.slen.toNat) ∨
        (r = 6 ∧ v = s.status.toNat) ∨ (r = 7 ∧ v = (palInfo s.pal).toNat) ∨
        (r = 8 ∧ v = s.paldim.toNat) ∨
        (r = 9 ∧ s.pagesReady = true ∧ v = (pageFlags s.pages).toNat)) →
      exec (.readReg r) s = .next (s.answers .ok .none (.reg (BitVec.ofNat 64 v)))

/-- R291: WRITE_REG in its order of checks. A number of 10 or above is BAD_REGISTER; 5 to 9 is
READ_ONLY_REGISTER; a value wider than the register is BAD_OPERAND; otherwise CFG takes bits 2:0, any
other register the value, and its written bit is set. Nothing else changes. -/
def Obligations.WriteRegSetsTheRegister : Prop :=
  ∀ (s : State) (r : BitVec 5) (v : U64),
    (10 ≤ r.toNat → exec (.writeReg r v) s = .next (s.answers .illegalCommand .badRegister .none)) ∧
    (5 ≤ r.toNat → r.toNat < 10 →
      exec (.writeReg r v) s = .next (s.answers .illegalCommand .readOnlyRegister .none)) ∧
    ((r.toNat ≤ 2 ∧ 2 ^ 32 ≤ v.toNat) ∨ (r = 3 ∧ 2 ^ 8 ≤ v.toNat) →
      exec (.writeReg r v) s = .next (s.answers .illegalCommand .badOperand .none)) ∧
    (v.toNat < 2 ^ 32 → exec (.writeReg 0 v) s =
      .next { s.answers .ok .none .none with cfg := BitVec.ofNat 32 (v.toNat % 8) }) ∧
    (v.toNat < 2 ^ 32 → exec (.writeReg 1 v) s =
      .next { s.answers .ok .none .none with
        maxres := BitVec.ofNat 32 v.toNat, maxresWritten := true }) ∧
    (v.toNat < 2 ^ 32 → exec (.writeReg 2 v) s =
      .next { s.answers .ok .none .none with
        bgcolor := BitVec.ofNat 32 v.toNat, bgcolorWritten := true }) ∧
    (v.toNat < 2 ^ 8 → exec (.writeReg 3 v) s =
      .next { s.answers .ok .none .none with
        bgstp := BitVec.ofNat 8 v.toNat, bgstpWritten := true }) ∧
    exec (.writeReg 4 v) s = .next { s.answers .ok .none .none with cur := v, curWritten := true }

/-- R39: the fields of PALINFO. -/
def Obligations.PalInfoLayout : Prop :=
  ∀ p : Palette, (palInfo p).toNat =
    p.valid.toNat + 2 * p.fmt8.toNat + 4 * p.stpAny.toNat + 16 * p.nRows.toNat + 65536 * p.nCols.toNat

/-- R46: PAGEFLAGS bit p is used[p] and bit 32 + p is modified[p]. -/
def Obligations.PageFlagsLayout : Prop :=
  ∀ (s : State) (p : Fin 32), (pageFlags s.pages).getLsbD p = (s.page p).used ∧
    (pageFlags s.pages).getLsbD (32 + p) = (s.page p).modified

/-! ### The palette decoder -/

/-- R130 to R132: expansion of a raw word. Raw 0 is masking black; any other word has alpha 255, each
channel 8 times its 5-bit field, a multiple of 8 up to 248 that gives the field back, and bit 15 as its
flag. -/
def Obligations.ExpandedEntries : Prop :=
  expand16 0 = ⟨⟨0, 0, 0, 0⟩, 0⟩ ∧
    ∀ raw : U16, raw ≠ 0 →
      (expand16 raw).color.a = 255 ∧
        (expand16 raw).color.r.toNat = raw.toNat % 32 * 8 ∧
        (expand16 raw).color.g.toNat = raw.toNat / 32 % 32 * 8 ∧
        (expand16 raw).color.b.toNat = raw.toNat / 1024 % 32 * 8 ∧
        (expand16 raw).stp.toNat = raw.toNat / 32768

/-- R144: re-encoding an expanded entry gives the raw word back, for every raw word. -/
def Obligations.ReencodingRecoversTheWord : Prop :=
  ∀ raw : U16, encodeEntry (expand16 raw) = raw.toNat

/-- R143: GET_MODE_FROM_CLUT returns 1 (Indexed8) from width 256 on and 0 (Indexed4) below. -/
def Obligations.GetModeFromClutAnswers : Prop :=
  ∀ (s : State) (w : U64),
    exec (.getModeFromClut w) s = .next (s.answers .ok .none (.bit (decide (256 ≤ w.toNat))))

/-- R134, R135, R137, R138, R139, R140: READ_PALETTE whose decoded rows (in tolerant mode, all rows) lie in
the stream. It returns n rows (clutHeight, or 1 when only the first is asked for) of 16 or 256 entries, the
row flags and their OR; the table and PALINFO hold them, the flags of the other rows stay (R43), PALDIM holds
the operands; CUR advances by 2 * clutWidth * clutHeight; nothing else changes but the draw counter, whose
count is the model's choice (log entry 4). -/
def Obligations.ReadPaletteLoadsTheRows : Prop :=
  ∀ (s : State) (fmt8 first : Bool) (cw ch : U64), s.curWritten = true →
    1 ≤ cw.toNat → cw.toNat ≤ 256 → 1 ≤ ch.toNat → ch.toNat ≤ 256 →
    let size := if fmt8 then 256 else 16
    let n := if first then 1 else ch.toNat
    s.cur.toNat + 2 * cw.toNat * (if s.tolerant then ch.toNat else n) ≤ s.slen.toNat →
    ∃ t rows flags any,
      exec (.readPalette (if fmt8 then 1 else 0) first cw ch) s = .next t ∧
      t = { s.answers .ok .none (.palette rows flags any) with
        cur := s.cur + BitVec.ofNat 64 (2 * cw.toNat * ch.toNat)
        paldim := BitVec.ofNat 64 (2 ^ 32 * cw.toNat + 2 ^ 48 * ch.toNat)
        pal := t.pal
        draws := s.draws + 1 } ∧
      Dims size n rows ∧ flags.length = n ∧ any = flags.any id ∧
      (palInfo t.pal).toNat = 1 + 2 * fmt8.toNat + 4 * any.toNat + 16 * n + 65536 * min cw.toNat size ∧
      (∀ r, n ≤ r → palRowFlag t.pal r = palRowFlag s.pal r) ∧
      ∀ r, r < n →
        flags[r]? = some (s.rowFlagAt s.cur.toNat cw.toNat size r) ∧
        palRowFlag t.pal r = s.rowFlagAt s.cur.toNat cw.toNat size r ∧
        ∀ c, c < size →
          cellAt rows r c = some (s.entryAt s.cur.toNat cw.toNat size r c) ∧
          palCell t.pal r c = s.entryAt s.cur.toNat cw.toNat size r c

/-- R141: READ_PALETTE in tolerant mode whose span exceeds the bytes remaining at CUR returns no data,
leaves the table unchanged and moves CUR past the span (mod 2^64, R74). -/
def Obligations.ReadPaletteTolerantTruncation : Prop :=
  ∀ (s : State) (fmt8 first : Bool) (cw ch : U64), s.curWritten = true → s.tolerant = true →
    1 ≤ cw.toNat → cw.toNat ≤ 256 → 1 ≤ ch.toNat → ch.toNat ≤ 256 →
    2 * cw.toNat * ch.toNat > s.slen.toNat - s.cur.toNat →
      exec (.readPalette (if fmt8 then 1 else 0) first cw ch) s =
        .next { s.answers .truncatedInput .paletteTruncated .none with
          cur := s.cur + BitVec.ofNat 64 (2 * cw.toNat * ch.toNat) }

/-- R139, R142: READ_PALETTE in strict mode whose decoded rows pass the end of the stream raises
DecodeFault(STREAM_END) with no result; CUR lies between its entry value and entry + 2 * clutWidth *
clutHeight; PAL_VALID is 0, the other metadata of PALINFO and the flags of the rows that are not the load's
as before (R43); PALDIM holds the operands. That two values are drawn is the model's choice (log entries 3
and 4). -/
def Obligations.ReadPaletteStrictStreamEnd : Prop :=
  ∀ (s : State) (fmt8 first : Bool) (cw ch : U64), s.curWritten = true → s.tolerant = false →
    1 ≤ cw.toNat → cw.toNat ≤ 256 → 1 ≤ ch.toNat → ch.toNat ≤ 256 →
    s.cur.toNat + 2 * cw.toNat * (if first then 1 else ch.toNat) > s.slen.toNat →
      ∃ t, exec (.readPalette (if fmt8 then 1 else 0) first cw ch) s = .next t ∧
        t = { s.answers .decodeFault .streamEnd .none with
          cur := t.cur
          paldim := BitVec.ofNat 64 (2 ^ 32 * cw.toNat + 2 ^ 48 * ch.toNat)
          pal := t.pal
          draws := s.draws + 2 } ∧
        s.cur.toNat ≤ t.cur.toNat ∧ t.cur.toNat ≤ s.cur.toNat + 2 * cw.toNat * ch.toNat ∧
        t.pal.valid = false ∧ t.pal.fmt8 = s.pal.fmt8 ∧ t.pal.stpAny = s.pal.stpAny ∧
        t.pal.nRows = s.pal.nRows ∧ t.pal.nCols = s.pal.nCols ∧
        ∀ r, (if first then 1 else ch.toNat) ≤ r → palRowFlag t.pal r = palRowFlag s.pal r

/-- R140: the operand checks of READ_PALETTE, in order, for a legal format select. An unwritten CUR is
UNINITIALIZED; a height outside 1 to 256 is BAD_OPERAND; a width outside 1 to 256 is
FormatRejected(CLUT_WIDTH_BAD). CUR, the table and all else stay. -/
def Obligations.ReadPaletteOperandChecks : Prop :=
  ∀ (s : State) (fmt8 first : Bool) (cw ch : U64),
    let i := Instr.readPalette (if fmt8 then 1 else 0) first cw ch
    let badHeight := ch.toNat = 0 ∨ 256 < ch.toNat
    let badWidth := cw.toNat = 0 ∨ 256 < cw.toNat
    (s.curWritten = false → exec i s = .next (s.answers .illegalCommand .uninitialized .none)) ∧
    (s.curWritten = true → badHeight →
      exec i s = .next (s.answers .illegalCommand .badOperand .none)) ∧
    (s.curWritten = true → ¬badHeight → badWidth →
      exec i s = .next (s.answers .formatRejected .clutWidthBad .none))

/-! ### The TIM decoder -/

/-- R160, R163, R164, R183: the checks of DECODE_TIM before the flags word. CUR or MAXRES never written is
UNINITIALIZED; a tag other than 0x0010 is TAG_MISMATCH; a version other than 0 without IGNORE_VERSION is
VERSION_MISMATCH; after either reject CUR is between p0 and p0 + 8, a free value that counts one draw (log
entry 3, the model's choice). -/
def Obligations.DecodeTimHeaderChecks : Prop :=
  ∀ s : State,
    (s.curWritten = false ∨ s.maxresWritten = false →
      exec .decodeTim s = .next (s.answers .illegalCommand .uninitialized .none)) ∧
    (s.curWritten = true → s.maxresWritten = true →
      (s.cur.toNat + 2 ≤ s.slen.toNat → s.u16At s.cur.toNat ≠ 0x10 →
        ∃ t, exec .decodeTim s = .next t ∧
          s.candidateEnds t s.cur.toNat (s.cur.toNat + 8) .formatRejected .tagMismatch) ∧
      (s.cur.toNat + 4 ≤ s.slen.toNat → s.u16At s.cur.toNat = 0x10 →
        s.u16At (s.cur.toNat + 2) ≠ 0 → s.ignoreVersion = false →
        ∃ t, exec .decodeTim s = .next t ∧
          s.candidateEnds t s.cur.toNat (s.cur.toNat + 8) .formatRejected .versionMismatch))

/-- R73, R162: a stream that ends inside a header, before an earlier check fails, ends with
DecodeFault(STREAM_END) in strict mode and TruncatedInput(HEADER_TRUNCATED) in tolerant mode. First
DECODE_TIM, inside the eight bytes of the TIM header, CUR between p0 and p0 + 8. Then each row, whose CUR is
p0 + 8, inside the twelve bytes of the first header after the flags word: the image header of Direct16 and
Direct24, the palette header of the rows with a palette block. Then each row with a palette block, inside
the image header after its palette: the load is kept (R309, R339). CUR is between p0 and the first byte of
the header, or the stream's end where that lies after it. That a row starts with CUR at p0 + 8 and that a
free cursor and a palette load count one draw each are the model's choices (log entries 5, 3 and 4). -/
def Obligations.DecodeTimHeaderTruncated : Prop :=
  ∀ s : State,
    let code := if s.tolerant then Code.truncatedInput else .decodeFault
    let reason := if s.tolerant then Reason.headerTruncated else .streamEnd
    let q := s.cur.toNat
    (s.curWritten = true → s.maxresWritten = true →
      (s.slen.toNat < q + 2 ∨ (s.u16At q = 0x10 ∧ s.slen.toNat < q + 4) ∨
        (s.u16At q = 0x10 ∧ (s.u16At (q + 2) = 0 ∨ s.ignoreVersion = true) ∧ s.slen.toNat < q + 8)) →
        ∃ t, exec .decodeTim s = .next t ∧ s.candidateEnds t q (q + 8) code reason) ∧
    ∀ hi : BitVec 28, 8 ≤ q →
      (s.slen.toNat < q + 12 →
        ∀ i ∈ [Instr.timDirect16 hi, .timDirect24 hi, .timIndexed4Pal hi, .timIndexed8Pal hi,
          .timDirect16Pal hi, .timDirect24Pal hi],
          ∃ t, exec i s = .next t ∧ s.candidateEnds t (q - 8) (max q s.slen.toNat) code reason) ∧
      ∀ fmt : PixelFormat, s.clutLegal q →
        q + 12 + 2 * s.u16At (q + 8) * s.rowsAsked q ≤ s.slen.toNat →
        (s.tolerant = true → s.imageAfter q ≤ s.slen.toNat) → s.slen.toNat < s.imageAfter q + 12 →
          ∃ t, exec (paletteRow fmt hi) s = .next t ∧
            s.candidateEndsLoaded t q (rowsOf256 fmt (s.u16At (q + 8))) (q - 8)
              (max (s.imageAfter q) s.slen.toNat) code reason

/-- R166: a format code of 4 or above is rejected at once with FormatRejected(FORMAT_CODE_INVALID); CUR is
exactly p0 + 8, and the palette table and all else are unchanged. -/
def Obligations.FastRejectStopsAfterTheFlags : Prop :=
  ∀ s : State, s.curWritten = true → s.maxresWritten = true →
    s.cur.toNat + 8 ≤ s.slen.toNat → s.u16At s.cur.toNat = 0x10 →
    (s.u16At (s.cur.toNat + 2) = 0 ∨ s.ignoreVersion = true) →
    4 ≤ s.u32At (s.cur.toNat + 4) % 8 →
      exec .decodeTim s =
        .next { s.answers .formatRejected .formatCodeInvalid .none with cur := s.cur + 8 }

/-- R103, R166: each row of the flags word with a format code of 4 or above, with or without the palette
bit, is the fast reject: CUR stays just after the flags word, where a row starts by the model's choice (log
entry 5), and only the outcome is recorded. -/
def Obligations.FastRejectRowsReject : Prop :=
  ∀ (s : State) (hi : BitVec 28), ∀ i ∈ fastRejectRows hi,
    exec i s = .next (s.answers .formatRejected .formatCodeInvalid .none)

/-- R172, R183: an indexed format without a palette block is rejected with PALETTE_REQUIRED_MISSING before
the image header is read; CUR is between p0 and p0 + 8, where CUR was p0 + 8. That the row starts with CUR
at p0 + 8 and that a free cursor counts one draw are the model's choices (log entries 5 and 3). -/
def Obligations.IndexedNeedsPalette : Prop :=
  ∀ (s : State) (hi : BitVec 28), 8 ≤ s.cur.toNat →
    ∀ i ∈ [Instr.timIndexed4 hi, .timIndexed8 hi],
      ∃ t, exec i s = .next t ∧
        s.candidateEnds t (s.cur.toNat - 8) s.cur.toNat .formatRejected .paletteRequiredMissing

/-- R168: with a palette block, format codes 2 and 3 decode exactly as Indexed8 when the clut width is 256
or more and as Indexed4 otherwise. That the rows start with CUR just after the flags word is the model's
choice (log entry 5). -/
def Obligations.FormatIsReDerived : Prop :=
  ∀ (s : State) (hi : BitVec 28), s.cur.toNat + 12 ≤ s.slen.toNat →
    ∀ i ∈ [Instr.timDirect16Pal hi, .timDirect24Pal hi],
      exec i s =
        exec (if 256 ≤ s.u16At (s.cur.toNat + 8) then .timIndexed8Pal hi else .timIndexed4Pal hi) s

/-- R169, R170, R183: the checks of a palette block whose header lies in the stream, in order:
CLUT_WIDTH_BAD, CLUT_HEIGHT_BAD and, in tolerant mode, PALETTE_TRUNCATED. The table and PALDIM stay; CUR is
between p0 and p0 + 20 + 2 * cw * ch, a dimension above 256 counted 0, where CUR was p0 + 8. Then, in strict
mode, a load whose decoded rows pass the end of the stream (R134, R139, R171, R184): DecodeFault(STREAM_END),
no result, CUR in the same range, PALDIM the header's fields, PAL_VALID 0, the other metadata and the flags
of the rows that are not the load's as before (R43). That the row starts at p0 + 8 and that a free cursor and
a palette load count one draw each are the model's choices (log entries 5, 3 and 4). -/
def Obligations.PaletteBlockChecks : Prop :=
  ∀ (s : State) (hi : BitVec 28) (code : PixelFormat), 8 ≤ s.cur.toNat →
    s.cur.toNat + 12 ≤ s.slen.toNat →
      let q := s.cur.toNat
      let cw := s.u16At (q + 8)
      let ch := s.u16At (q + 10)
      let count := fun n : Nat => if 256 < n then 0 else n
      let ends := fun code' reason => ∃ t, exec (paletteRow code hi) s = .next t ∧
        s.candidateEnds t (q - 8) (q + 12 + 2 * count cw * count ch) code' reason
      (cw = 0 ∨ 256 < cw → ends .formatRejected .clutWidthBad) ∧
      (1 ≤ cw → cw ≤ 256 → ch = 0 ∨ 256 < ch → ends .formatRejected .clutHeightBad) ∧
      (s.clutLegal q → s.tolerant = true → s.slen.toNat - (q + 12) < 2 * cw * ch →
        ends .truncatedInput .paletteTruncated) ∧
      (s.clutLegal q → s.tolerant = false → s.slen.toNat < q + 12 + 2 * cw * s.rowsAsked q →
        ∃ t, exec (paletteRow code hi) s = .next t ∧
          t = { s.answers .decodeFault .streamEnd .none with
            cur := t.cur, paldim := t.paldim, pal := t.pal, draws := s.draws + 2 } ∧
          q - 8 ≤ t.cur.toNat ∧ t.cur.toNat ≤ q + 12 + 2 * cw * ch ∧ s.holdsPalDim t q ∧
          t.pal.valid = false ∧ t.pal.fmt8 = s.pal.fmt8 ∧ t.pal.stpAny = s.pal.stpAny ∧
          t.pal.nRows = s.pal.nRows ∧ t.pal.nCols = s.pal.nCols ∧
          ∀ r, s.rowsAsked q ≤ r → palRowFlag t.pal r = palRowFlag s.pal r)

/-- R173 to R177, R183: the checks of an image whose header lies in the stream, in order: STRIDE_ZERO,
HEIGHT_ZERO, the zero width of Direct24 as ZERO_WIDTH_D24 says, WIDTH_TOO_LARGE, PAGE_OUT_OF_RANGE. First a
Direct16 or Direct24 image: CUR is between p0 and p0 + 20 + 2 * strideWords * imgH, where CUR was p0 + 8.
Then the image after a palette block: CUR is between p0 and the declared end of the container, and the loaded
palette is kept (R309, R339). That MAXRES = 0 rejects an empty Direct24 image (R33) but under `compareWidth`
(R175 read alone), that a row starts at p0 + 8 and that a free cursor and a palette load count one draw each
are the model's choices (log entries 15, 5, 3 and 4). -/
def Obligations.DirectImageChecks : Prop :=
  ∀ (s : State) (hi : BitVec 28), 8 ≤ s.cur.toNat →
    let q := s.cur.toNat
    (q + 12 ≤ s.slen.toNat → ∀ d24 : Bool,
      let i := if d24 then Instr.timDirect24 hi else .timDirect16 hi
      let st := s.u16At (q + 8)
      let h := s.u16At (q + 10)
      let w := if d24 then 2 * st / 3 else st
      let widthGoesOn := d24 = true → w ≠ 0 ∨ s.params.zeroWidthD24 = .emptyTexture
      let ends := fun code reason => ∃ t, exec i s = .next t ∧
        s.candidateEnds t (q - 8) (q + 12 + 2 * st * h) code reason
      (st = 0 → ends .formatRejected .strideZero) ∧
      (st ≠ 0 → h = 0 → ends .formatRejected .heightZero) ∧
      (st ≠ 0 → h ≠ 0 → d24 = true → w = 0 → s.params.zeroWidthD24 = .reject →
        ends .formatRejected .widthZero) ∧
      (st ≠ 0 → h ≠ 0 → d24 = true → w = 0 → s.params.zeroWidthD24 = .fault →
        ends .decodeFault .zeroWidth) ∧
      (st ≠ 0 → h ≠ 0 → widthGoesOn → ¬s.admitsWidth w → ends .formatRejected .widthTooLarge) ∧
      (st ≠ 0 → h ≠ 0 → widthGoesOn → s.admitsWidth w →
        1024 ≤ s.u16At (q + 4) ∨ 512 ≤ s.u16At (q + 6) → ends .formatRejected .pageOutOfRange)) ∧
    (s.clutLegal q → s.imageAfter q + 12 ≤ s.slen.toNat → ∀ code : PixelFormat,
      let fmt8 := rowsOf256 code (s.u16At (q + 8))
      let qi := s.imageAfter q
      let st := s.u16At (qi + 8)
      let h := s.u16At (qi + 10)
      let w := if fmt8 then 2 * st else 4 * st
      let ends := fun reason => ∃ t, exec (paletteRow code hi) s = .next t ∧
        s.candidateEndsLoaded t q fmt8 (q - 8) (qi + 12 + s.palettedRowBytes fmt8 st * h) .formatRejected
          reason
      (st = 0 → ends .strideZero) ∧
      (st ≠ 0 → h = 0 → ends .heightZero) ∧
      (st ≠ 0 → h ≠ 0 → s.maxres.toNat < w → ends .widthTooLarge) ∧
      (st ≠ 0 → h ≠ 0 → w ≤ s.maxres.toNat →
        1024 ≤ s.u16At (qi + 4) ∨ 512 ≤ s.u16At (qi + 6) → ends .pageOutOfRange))

/-- The placement fields that rules R176 and R181 give a texture with image origin (ox, oy): the origin,
the page, the local offset in pixels of `bpp` bits. -/
def PlacedAt (tex : Texture) (ox oy bpp : Nat) : Prop :=
  tex.originX = BitVec.ofNat 16 ox ∧ tex.originY = BitVec.ofNat 16 oy ∧
    tex.page = oy / 256 * 16 + ox / 64 ∧ tex.x = ox % 64 * 16 / bpp ∧ tex.y = oy % 256 ∧
    tex.isPage = false

/-- The Direct16 texture of the image header at stream offset q, pixel by pixel (rules R107, R109, R176,
R181, R204). -/
def IsDirect16Texture (s : State) (q : Nat) (tex : Texture) : Prop :=
  tex.fmt = .direct16 ∧ tex.bpp = 16 ∧ tex.width = s.u16At (q + 8) ∧ tex.height = s.u16At (q + 10) ∧
    tex.clutIndex = none ∧ PlacedAt tex (s.u16At (q + 4)) (s.u16At (q + 6)) 16 ∧
    WellFormedTexture tex ∧
    ∀ j i, j < tex.height → i < tex.width →
      let raw := s.u16At (q + 12 + j * (2 * tex.width) + 2 * i)
      cellAt tex.color j i = some (expand16 (BitVec.ofNat 16 raw)).color ∧
        ∃ rows, tex.mask = some rows ∧ cellAt rows j i = some (if 32768 ≤ raw then 1 else 0)

/-- An image header at stream offset q passes every check of a Direct16 image (rules R174, R175, R177). -/
def Direct16HeaderPasses (s : State) (q : Nat) : Prop :=
  s.u16At (q + 8) ≠ 0 ∧ s.u16At (q + 10) ≠ 0 ∧ s.u16At (q + 8) ≤ s.maxres.toNat ∧
    s.u16At (q + 4) < 1024 ∧ s.u16At (q + 6) < 512

/-- An image header at stream offset q that passes every check of a Direct16 image, and its pixels, lie in
the stream. -/
def Direct16ImageFits (s : State) (q : Nat) : Prop :=
  Direct16HeaderPasses s q ∧ q + 12 + 2 * s.u16At (q + 8) * s.u16At (q + 10) ≤ s.slen.toNat

/-- R173 to R182, R204: the Direct16 row decodes an image that lies in the stream: the texture pixel by
pixel, CUR just past it, and nothing else changed. That the row starts with CUR just after the flags word is
the model's choice (log entry 5). -/
def Obligations.Direct16RowDecodes : Prop :=
  ∀ (s : State) (hi : BitVec 28), Direct16ImageFits s s.cur.toNat →
    ∃ tex, IsDirect16Texture s s.cur.toNat tex ∧
      exec (.timDirect16 hi) s = .next { s.answers .ok .none (.texture tex) with
        cur := s.cur + BitVec.ofNat 64 (12 + 2 * tex.width * tex.height) }

/-- R73, R179, R183, R207: an image that passes every check of its header but runs past the end of the
stream ends with TruncatedInput(IMAGE_TRUNCATED) in tolerant mode, where its declared span passes the end,
and with DecodeFault(STREAM_END) in strict mode, where its last pixel does; the padding of the last row of
Direct24, and of Indexed8 under Forced4, counts in tolerant mode only. CUR is between p0 and the declared end
of the container, where CUR was p0 + 8. First Direct16, then Direct24, then the rows with a palette block,
whose loaded palette is kept (R309, R339). That a row starts at p0 + 8, that a free cursor and a palette load
count one draw each, and what MAXRES = 0 does to width 0 are the model's choices (log entries 5, 3, 4 and
15). -/
def Obligations.Direct16RowTruncated : Prop :=
  ∀ (s : State) (hi : BitVec 28), 8 ≤ s.cur.toNat →
    let q := s.cur.toNat
    let code := if s.tolerant then Code.truncatedInput else .decodeFault
    let reason := if s.tolerant then Reason.imageTruncated else .streamEnd
    (q + 12 ≤ s.slen.toNat → Direct16HeaderPasses s q →
      let last := q + 12 + 2 * s.u16At (q + 8) * s.u16At (q + 10)
      s.slen.toNat < last →
        ∃ t, exec (.timDirect16 hi) s = .next t ∧ s.candidateEnds t (q - 8) last code reason) ∧
    (q + 12 ≤ s.slen.toNat →
      let st := s.u16At (q + 8)
      let h := s.u16At (q + 10)
      let w := 2 * st / 3
      let last := q + 12 + 2 * st * h
      st ≠ 0 → h ≠ 0 → (w ≠ 0 ∨ s.params.zeroWidthD24 = .emptyTexture) → s.admitsWidth w →
      s.u16At (q + 4) < 1024 → s.u16At (q + 6) < 512 →
      (if s.tolerant then s.slen.toNat < last
        else w ≠ 0 ∧ s.slen.toNat < q + 12 + 2 * st * (h - 1) + 3 * w) →
        ∃ t, exec (.timDirect24 hi) s = .next t ∧ s.candidateEnds t (q - 8) last code reason) ∧
    (s.clutLegal q → s.imageAfter q + 12 ≤ s.slen.toNat → ∀ fmt : PixelFormat,
      let fmt8 := rowsOf256 fmt (s.u16At (q + 8))
      let qi := s.imageAfter q
      let st := s.u16At (qi + 8)
      let h := s.u16At (qi + 10)
      let w := if fmt8 then 2 * st else 4 * st
      let rowLen := s.palettedRowBytes fmt8 st
      st ≠ 0 → h ≠ 0 → w ≤ s.maxres.toNat → s.u16At (qi + 4) < 1024 → s.u16At (qi + 6) < 512 →
      (if s.tolerant then s.slen.toNat < qi + 12 + rowLen * h
        else s.slen.toNat < qi + 12 + rowLen * (h - 1) + 2 * st) →
        ∃ t, exec (paletteRow fmt hi) s = .next t ∧
          s.candidateEndsLoaded t q fmt8 (q - 8) (qi + 12 + rowLen * h) code reason)

/-- R160 to R165, R173 to R182, R204: DECODE_TIM of a whole Direct16 container without a palette block
that lies in the stream: the texture pixel by pixel, CUR at the container's end, and nothing else
changed. -/
def Obligations.DecodeTimDecodesDirect16 : Prop :=
  ∀ s : State, s.curWritten = true → s.maxresWritten = true →
    s.u16At s.cur.toNat = 0x10 → (s.u16At (s.cur.toNat + 2) = 0 ∨ s.ignoreVersion = true) →
    s.u32At (s.cur.toNat + 4) % 16 = 2 → Direct16ImageFits s (s.cur.toNat + 8) →
      ∃ tex, IsDirect16Texture s (s.cur.toNat + 8) tex ∧
        exec .decodeTim s = .next { s.answers .ok .none (.texture tex) with
          cur := s.cur + BitVec.ofNat 64 (20 + 2 * tex.width * tex.height) }

/-- R173 to R182, R205: the Direct24 row decodes an image whose pixels (in tolerant mode,
its last row's padding too) lie in the stream: width 2 * strideWords div 3, every pixel opaque from three
bytes R, G, B, the row padding passed, no mask; CUR just past it, and nothing else changed. That the row
starts with CUR just after the flags word, and what MAXRES = 0 does to width 0, are the model's choices (log
entries 5 and 15). -/
def Obligations.Direct24RowDecodes : Prop :=
  ∀ (s : State) (hi : BitVec 28),
    let q := s.cur.toNat
    let st := s.u16At (q + 8)
    let h := s.u16At (q + 10)
    st ≠ 0 → h ≠ 0 → s.admitsWidth (2 * st / 3) →
    (st ≠ 1 ∨ s.params.zeroWidthD24 = .emptyTexture) →
    s.u16At (q + 4) < 1024 → s.u16At (q + 6) < 512 →
    q + 12 + 2 * st * (h - 1) + 3 * (2 * st / 3) ≤ s.slen.toNat →
    (s.tolerant = true → q + 12 + 2 * st * h ≤ s.slen.toNat) →
      ∃ tex, exec (.timDirect24 hi) s = .next { s.answers .ok .none (.texture tex) with
          cur := s.cur + BitVec.ofNat 64 (12 + 2 * st * h) } ∧
        tex.fmt = .direct24 ∧ tex.bpp = 24 ∧ tex.width = 2 * st / 3 ∧ tex.height = h ∧
        tex.clutIndex = none ∧ tex.mask = none ∧ WellFormedTexture tex ∧
        PlacedAt tex (s.u16At (q + 4)) (s.u16At (q + 6)) 24 ∧
        ∀ j i, j < h → i < 2 * st / 3 →
          let a := q + 12 + j * (2 * st) + 3 * i
          cellAt tex.color j i = some ⟨255, s.u8At a, s.u8At (a + 1), s.u8At (a + 2)⟩

/-- R167 to R182, R201 to R203: each row with a palette block (Indexed4, Indexed8, and codes 2 and 3
re-derived) decodes a container whose pixels (in tolerant mode, its last row's padding too) lie in the
stream. The format is Indexed8 for code 1 and, for codes 2 and 3, from clut width 256 on, else Indexed4; the
palette is loaded as the palette rules say: the metadata with PAL_STPANY, every row flag and every entry of
the decoded rows, and PALDIM (R134 to R139, R171); every pixel takes the colour and the flag (or the raw
index) of the entry of row 0 that its index selects; CUR is just past the pixels; and nothing else changes
but the draw counter. That the row starts with CUR just after the flags word and that a palette load counts
one draw are the model's choices (log entries 5 and 4). -/
def Obligations.PalettedRowsDecode : Prop :=
  ∀ (s : State) (hi : BitVec 28) (i : Instr) (code : PixelFormat),
    (i, code) ∈ [(Instr.timIndexed4Pal hi, .indexed4), (.timIndexed8Pal hi, .indexed8),
      (.timDirect16Pal hi, .direct16), (.timDirect24Pal hi, .direct24)] →
    let q := s.cur.toNat
    let cw := s.u16At (q + 8)
    let ch := s.u16At (q + 10)
    let fmt8 := rowsOf256 code cw
    let size := if fmt8 then 256 else 16
    let qi := s.imageAfter q
    let st := s.u16At (qi + 8)
    let h := s.u16At (qi + 10)
    let w := if fmt8 then 2 * st else 4 * st
    let rowLen := s.palettedRowBytes fmt8 st
    s.clutLegal q → st ≠ 0 → h ≠ 0 → w ≤ s.maxres.toNat →
    s.u16At (qi + 4) < 1024 → s.u16At (qi + 6) < 512 → qi + 12 + rowLen * (h - 1) + 2 * st ≤ s.slen.toNat →
    (s.tolerant = true → qi + 12 + rowLen * h ≤ s.slen.toNat) →
      ∃ t tex, exec i s = .next t ∧
        t = { s.answers .ok .none (.texture tex) with
          cur := s.cur + BitVec.ofNat 64 (12 + 2 * cw * ch + 12 + rowLen * h)
          paldim := t.paldim
          pal := t.pal
          draws := s.draws + 1 } ∧
        s.holdsPalette t q fmt8 ∧
        tex.fmt = (if fmt8 then .indexed8 else .indexed4) ∧ tex.bpp = (if fmt8 then 8 else 4) ∧
        tex.width = w ∧ tex.height = h ∧ tex.clutIndex = some 0 ∧ WellFormedTexture tex ∧
        PlacedAt tex (s.u16At (qi + 4)) (s.u16At (qi + 6)) (if fmt8 then 8 else 4) ∧
        ∀ j k, j < h → k < w →
          let a := qi + 12 + j * rowLen
          let idx := if fmt8 then (s.u8At (a + k)).toNat else s.nibbleAt a k
          let e := s.entryAt (q + 12) cw size 0 idx
          cellAt tex.color j k = some e.color ∧
            ∃ rows, tex.mask = some rows ∧
              cellAt rows j k =
                some (if s.params.indexedMaskSource = .rawIndex then BitVec.ofNat 8 idx else e.stp)

/-- R184, R185, R309: DECODE_TIM, READ_PALETTE and the rows of the flags word touch no page, no page flag,
no event, no register but CUR, STATUS and PALDIM, and not the stream: all they change is CUR, STATUS, the
response, PALDIM, the palette table and the model's draw counter (log entries 3 and 4). -/
def Obligations.DecodersTouchNoPage : Prop :=
  ∀ (i : Instr) (s t : State), readsStream i = true → exec i s = .next t →
    t = { s with
      cur := t.cur, status := t.status, response := t.response, paldim := t.paldim, pal := t.pal,
      draws := t.draws }

/-- R185: the outcome, the result and, where the spec fixes it, CUR of DECODE_TIM depend only on STREAM,
SLEN, CUR, CFG, MAXRES (with their written bits) and the model parameters, not on the palette table, the
pages or anything else. -/
def Obligations.DecodeTimIsIndependent : Prop :=
  ∀ s u s' u' : State, s.stream = u.stream → s.slen = u.slen → s.cur = u.cur →
    s.curWritten = u.curWritten → s.cfg = u.cfg → s.maxres = u.maxres →
    s.maxresWritten = u.maxresWritten → s.params = u.params →
    exec .decodeTim s = .next s' → exec .decodeTim u = .next u' →
      s'.response = u'.response ∧ s'.status = u'.status ∧
        ∀ r, s'.response = some r → r.code = .ok ∨ r.reason = .formatCodeInvalid → s'.cur = u'.cur
end

