-- ==== Sys2Proof/Laws/Cells.lean ====
section
/-! SUPPORT. What a table of cells holds after a write, and that writes keep its canonical form. -/

namespace Sys2Proof.Machine

variable {α : Type}

/-- Reading past a change point at or below the cell continues after it. -/
theorem cellsRead_cons_ge (d v : α) (a q : Nat) (t : Cells α) (h : a ≤ q) :
    cellsRead d ((a, v) :: t) q = cellsRead v t q := by
  simp [cellsRead, Nat.not_lt.mpr h]

theorem cellsRead_cons_lt (d v : α) (a q : Nat) (t : Cells α) (h : q < a) :
    cellsRead d ((a, v) :: t) q = d := by
  simp [cellsRead, h]

/-- The first change point of a table lies at or after `a`. -/
def headFrom (a : Nat) : Cells α → Prop
  | [] => True
  | (b, _) :: _ => a ≤ b

theorem cellsRead_before (d : α) (a q : Nat) (t : Cells α) (ht : headFrom a t) (h : q < a) :
    cellsRead d t q = d := by
  cases t with
  | nil => rfl
  | cons x t => exact cellsRead_cons_lt d x.2 x.1 q t (Nat.lt_of_lt_of_le h ht)

theorem headFrom_mono {a b : Nat} (h : a ≤ b) (t : Cells α) (ht : headFrom b t) : headFrom a t := by
  cases t with
  | nil => trivial
  | cons x t => exact Nat.le_trans h ht

variable [DecidableEq α]

/-- At and after the change point, `cellsCons` reads like the change point. -/
theorem cellsRead_cellsCons_ge (d v : α) (a q : Nat) (t : Cells α) (h : a ≤ q) :
    cellsRead d (cellsCons d a v t) q = cellsRead v t q := by
  unfold cellsCons
  split
  · next e => rw [e]
  · exact cellsRead_cons_ge d v a q t h

theorem cellsRead_cellsCons_lt (d v : α) (a q : Nat) (t : Cells α) (ht : headFrom a t) (h : q < a) :
    cellsRead d (cellsCons d a v t) q = d := by
  unfold cellsCons
  split
  · exact cellsRead_before d a q t ht h
  · exact cellsRead_cons_lt d v a q t h

theorem headFrom_cellsCons (d v : α) (a : Nat) (t : Cells α) (ht : headFrom a t) :
    headFrom a (cellsCons d a v t) := by
  unfold cellsCons
  split
  · exact ht
  · exact Nat.le_refl a

theorem headFrom_cellsResume (x cur : α) (b : Nat) (t : Cells α) : headFrom b (cellsResume x b cur t) := by
  induction t generalizing cur with
  | nil => exact headFrom_cellsCons x cur b [] trivial
  | cons y t ih =>
    unfold cellsResume
    split
    · exact ih y.2
    · next h => exact headFrom_cellsCons x cur b _ (Nat.le_of_not_le h)

/-- Inside the written range the resumed table still reads the written value. -/
theorem cellsRead_cellsResume_lt (x cur : α) (b q : Nat) (t : Cells α) (h : q < b) :
    cellsRead x (cellsResume x b cur t) q = x :=
  cellsRead_before x b q _ (headFrom_cellsResume x cur b t) h

/-- From the end of the written range on, the resumed table reads as before. -/
theorem cellsRead_cellsResume_ge (x cur : α) (b q : Nat) (t : Cells α) (h : b ≤ q) :
    cellsRead x (cellsResume x b cur t) q = cellsRead cur t q := by
  induction t generalizing cur with
  | nil => exact cellsRead_cellsCons_ge x cur b q [] h
  | cons y t ih =>
    unfold cellsResume
    split
    · next hc => rw [ih y.2, cellsRead_cons_ge cur y.2 y.1 q t (Nat.le_trans hc h)]
    · exact cellsRead_cellsCons_ge x cur b q _ h

/-- What a table reads after a nonempty range is written. -/
theorem cellsRead_cellsFillFrom (d x : α) (a b q : Nat) (m : Cells α) (hab : a < b) :
    cellsRead d (cellsFillFrom d a b x m) q = if a ≤ q ∧ q < b then x else cellsRead d m q := by
  have base : ∀ (e : α) (t : Cells α), headFrom a t →
      cellsRead e (cellsCons e a x (cellsResume x b e t)) q
        = if a ≤ q ∧ q < b then x else cellsRead e t q := by
    intro e t ht
    by_cases h1 : q < a
    · have hh : headFrom a (cellsResume x b e t) :=
        headFrom_mono (Nat.le_of_lt hab) _ (headFrom_cellsResume x e b t)
      rw [cellsRead_cellsCons_lt e x a q _ hh h1, if_neg (by omega), cellsRead_before e a q t ht h1]
    · rw [cellsRead_cellsCons_ge e x a q _ (by omega)]
      by_cases h2 : q < b
      · rw [cellsRead_cellsResume_lt x e b q t h2, if_pos ⟨by omega, h2⟩]
      · rw [cellsRead_cellsResume_ge x e b q t (by omega), if_neg (by omega)]
  induction m generalizing d with
  | nil => exact base d [] trivial
  | cons y t ih =>
    obtain ⟨c, v⟩ := y
    unfold cellsFillFrom
    split
    · next h =>
      by_cases hq : q < c
      · rw [cellsRead_cons_lt d v c q _ hq, cellsRead_cons_lt d v c q _ hq, if_neg (by omega)]
      · rw [cellsRead_cons_ge d v c q _ (by omega), cellsRead_cons_ge d v c q _ (by omega), ih v]
    · next h => exact base d ((c, v) :: t) (Nat.le_of_not_lt h)

/-- What a table reads after a range is written. -/
theorem cellsRead_cellsFill (d x : α) (a b q : Nat) (m : Cells α) :
    cellsRead d (cellsFill d m a b x) q = if a ≤ q ∧ q < b then x else cellsRead d m q := by
  unfold cellsFill
  split
  · next h => exact cellsRead_cellsFillFrom d x a b q m h
  · next h => rw [if_neg (by omega)]

/-- What a table reads after one cell is written: that cell, and every other cell as before. -/
theorem cellsRead_cellsWrite (d x : α) (a q : Nat) (m : Cells α) :
    cellsRead d (cellsWrite d m a x) q = if q = a then x else cellsRead d m q := by
  unfold cellsWrite
  rw [cellsRead_cellsFillFrom d x a (a + 1) q m (Nat.lt_succ_self a)]
  by_cases h : q = a
  · rw [if_pos h, if_pos (by omega)]
  · rw [if_neg h, if_neg (by omega)]

/-! ### The canonical form -/

theorem cellsWf_mono (last d : α) {lo lo' hi : Nat} (h : lo' ≤ lo) (m : Cells α)
    (hm : cellsWf last d lo hi m = true) : cellsWf last d lo' hi m = true := by
  cases m with
  | nil => exact hm
  | cons x t =>
    obtain ⟨a, v⟩ := x
    simp only [cellsWf, Bool.and_eq_true, decide_eq_true_eq] at hm ⊢
    exact ⟨⟨⟨by omega, hm.1.1.2⟩, hm.1.2⟩, hm.2⟩

theorem cellsWf_cellsCons (last d v : α) (lo a hi : Nat) (t : Cells α) (h1 : lo ≤ a) (h2 : a ≤ hi)
    (ht : cellsWf last v (a + 1) hi t = true) : cellsWf last d lo hi (cellsCons d a v t) = true := by
  unfold cellsCons
  split
  · next e => rw [← e]; exact cellsWf_mono last v (by omega) t ht
  · next e =>
    simp only [cellsWf, Bool.and_eq_true, decide_eq_true_eq]
    exact ⟨⟨⟨h1, h2⟩, e⟩, ht⟩

theorem cellsWf_cellsResume (last x cur : α) (lo b hi l : Nat) (t : Cells α) (h1 : lo ≤ b) (h2 : b ≤ hi)
    (ht : cellsWf last cur l hi t = true) :
    cellsWf last x lo hi (cellsResume x b cur t) = true := by
  induction t generalizing cur l with
  | nil =>
    apply cellsWf_cellsCons last x cur lo b hi [] h1 h2
    simpa [cellsWf] using ht
  | cons y t ih =>
    obtain ⟨c, v⟩ := y
    have ht' := ht
    simp only [cellsWf, Bool.and_eq_true, decide_eq_true_eq] at ht
    unfold cellsResume
    split
    · exact ih v (c + 1) ht.2
    · next h =>
      apply cellsWf_cellsCons last x cur lo b hi _ h1 h2
      simp only [cellsWf, Bool.and_eq_true, decide_eq_true_eq]
      have h' : ¬ c ≤ b := h
      exact ⟨⟨⟨by omega, ht.1.1.2⟩, ht.1.2⟩, ht.2⟩

/-- Writing a nonempty range below the bound keeps the canonical form. -/
theorem cellsWf_cellsFillFrom (last d x : α) (lo a b hi : Nat) (m : Cells α) (h1 : lo ≤ a) (h2 : a < b)
    (h3 : b ≤ hi) (hm : cellsWf last d lo hi m = true) :
    cellsWf last d lo hi (cellsFillFrom d a b x m) = true := by
  induction m generalizing d lo with
  | nil =>
    unfold cellsFillFrom
    apply cellsWf_cellsCons last d x lo a hi _ h1 (by omega)
    exact cellsWf_cellsResume last x d (a + 1) b hi lo [] (by omega) h3 hm
  | cons y t ih =>
    obtain ⟨c, v⟩ := y
    unfold cellsFillFrom
    split
    · next h =>
      have hm' := hm
      simp only [cellsWf, Bool.and_eq_true, decide_eq_true_eq] at hm ⊢
      exact ⟨hm.1, ih v (c + 1) (by omega) hm.2⟩
    · apply cellsWf_cellsCons last d x lo a hi _ h1 (by omega)
      exact cellsWf_cellsResume last x d (a + 1) b hi lo _ (by omega) h3 hm

/-- Writing a range keeps the canonical form. -/
theorem cellsWf_cellsFill (last d x : α) (lo a b hi : Nat) (m : Cells α) (h1 : lo ≤ a) (h3 : b ≤ hi)
    (hm : cellsWf last d lo hi m = true) : cellsWf last d lo hi (cellsFill d m a b x) = true := by
  unfold cellsFill
  split
  · next h => exact cellsWf_cellsFillFrom last d x lo a b hi m h1 h h3 hm
  · exact hm

/-- Writing one cell keeps the canonical form. -/
theorem cellsWf_cellsWrite (last d x : α) (lo a hi : Nat) (m : Cells α) (h1 : lo ≤ a) (h2 : a < hi)
    (hm : cellsWf last d lo hi m = true) : cellsWf last d lo hi (cellsWrite d m a x) = true :=
  cellsWf_cellsFillFrom last d x lo a (a + 1) hi m h1 (Nat.lt_succ_self a) h2 hm

/-- A canonical table's first change point lies at or after its lower bound. -/
theorem headFrom_of_cellsWf (last d : α) (lo hi : Nat) (m : Cells α) (hm : cellsWf last d lo hi m = true) :
    headFrom lo m := by
  cases m with
  | nil => trivial
  | cons x t =>
    simp only [cellsWf, Bool.and_eq_true, decide_eq_true_eq] at hm
    exact hm.1.1.1

end Sys2Proof.Machine
end

