-- ==== Sys2Proof/Laws/Encoding.lean ====
section
/-! SUPPORT. The fields of a command word and of a flags word as arithmetic, and the fields of an encoded
word. -/

namespace Sys2Proof

/-! ### The fields as arithmetic (rules R102, R114) -/

theorem cmdOpc_toNat (c : U32) : (cmdOpc c).toNat = c.toNat % 256 := by simp [cmdOpc]

theorem cmdF_toNat (c : U32) : (cmdF c).toNat = c.toNat / 256 % 2 := by
  simp [cmdF, Nat.shiftRight_eq_div_pow]

theorem cmdP_toNat (c : U32) : (cmdP c).toNat = c.toNat / 512 % 32 := by
  simp [cmdP, Nat.shiftRight_eq_div_pow]

theorem cmdM_toNat (c : U32) : (cmdM c).toNat = c.toNat / 16384 % 4 := by
  simp [cmdM, Nat.shiftRight_eq_div_pow]

theorem cmdReserved_toNat (c : U32) : (cmdReserved c).toNat = c.toNat / 65536 := by
  have := c.isLt
  simp [cmdReserved, Nat.shiftRight_eq_div_pow]
  omega

theorem flagsCode_toNat (w : U32) : (flagsCode w).toNat = w.toNat % 16 := by simp [flagsCode]

theorem flagsRest_toNat (w : U32) : (flagsRest w).toNat = w.toNat / 16 := by
  have := w.isLt
  simp [flagsRest, Nat.shiftRight_eq_div_pow]
  omega

/-- A concatenation as arithmetic. -/
theorem append_toNat {m n : Nat} (a : BitVec m) (b : BitVec n) :
    (a ++ b).toNat = 2 ^ n * a.toNat + b.toNat := by
  rw [BitVec.toNat_append, Nat.shiftLeft_eq, Nat.mul_comm, Nat.two_pow_add_eq_or_of_lt b.isLt]

/-- The value of a command word (rule R114). -/
theorem cmdWord_toNat (opc : BitVec 8) (f : BitVec 1) (p : BitVec 5) (m : BitVec 2) :
    (cmdWord opc f p m).toNat = opc.toNat + 256 * f.toNat + 512 * p.toNat + 16384 * m.toNat := by
  simp only [cmdWord, append_toNat, BitVec.toNat_ofNat]
  omega

/-! ### The fields of an encoded word -/

variable (opc : BitVec 8) (f : BitVec 1) (p : BitVec 5) (m : BitVec 2)

@[simp] theorem cmdOpc_cmdWord : cmdOpc (cmdWord opc f p m) = opc := by
  have := opc.isLt
  apply BitVec.eq_of_toNat_eq
  rw [cmdOpc_toNat, cmdWord_toNat]
  omega

@[simp] theorem cmdF_cmdWord : cmdF (cmdWord opc f p m) = f := by
  have := opc.isLt
  have := f.isLt
  apply BitVec.eq_of_toNat_eq
  rw [cmdF_toNat, cmdWord_toNat]
  omega

@[simp] theorem cmdP_cmdWord : cmdP (cmdWord opc f p m) = p := by
  have := opc.isLt
  have := f.isLt
  have := p.isLt
  apply BitVec.eq_of_toNat_eq
  rw [cmdP_toNat, cmdWord_toNat]
  omega

@[simp] theorem cmdM_cmdWord : cmdM (cmdWord opc f p m) = m := by
  have := opc.isLt
  have := f.isLt
  have := p.isLt
  have := m.isLt
  apply BitVec.eq_of_toNat_eq
  rw [cmdM_toNat, cmdWord_toNat]
  omega

@[simp] theorem cmdReserved_cmdWord : cmdReserved (cmdWord opc f p m) = 0 := by
  have := opc.isLt
  have := f.isLt
  have := p.isLt
  have := m.isLt
  apply BitVec.eq_of_toNat_eq
  rw [cmdReserved_toNat, cmdWord_toNat]
  simp only [BitVec.toNat_zero, BitVec.ofNat_eq_ofNat]
  omega

@[simp] theorem flagsCode_append (hi : BitVec 28) (code : BitVec 4) : flagsCode (hi ++ code) = code := by
  have := code.isLt
  apply BitVec.eq_of_toNat_eq
  rw [flagsCode_toNat, append_toNat]
  omega

@[simp] theorem flagsRest_append (hi : BitVec 28) (code : BitVec 4) : flagsRest (hi ++ code) = hi := by
  have := code.isLt
  apply BitVec.eq_of_toNat_eq
  rw [flagsRest_toNat, append_toNat]
  omega

/-- A flag survives its field. -/
@[simp] theorem flagBit_eq_one (b : Bool) : (flagBit b == 1#1) = b := by cases b <;> rfl

/-! ### The opcode map -/

/-- The defined opcodes and the fields each uses (rule R115). -/
theorem fieldUse_of_mem (n : Nat)
    (h : n ∈ [1, 2, 3, 4, 16, 17, 18, 19, 20, 21, 22, 23, 24, 32, 33, 34, 35, 48, 49]) :
    fieldUse n = some ⟨decide (n ∈ [3, 16, 19, 20]), decide (n ∈ [17, 19, 21, 32, 33, 35, 48, 49]),
      decide (n ∈ [3])⟩ := by
  fin_cases h <;> rfl

end Sys2Proof
end

