-- ==== Sys2Proof/Laws/Memory.lean ====
section
/-! SUPPORT. What the stream holds after a load, that a load is canonical, and what the cursor reads give
inside the stream. -/

namespace Sys2Proof.Machine

/-- A loaded stream's byte at `a` is the host's byte there. -/
theorem memByte_memOfBytes (l : List Byte) (base a : Nat) (h : base ≤ a) :
    memByte (memOfBytes base l) a = l.getD (a - base) memDefault := by
  induction l generalizing base with
  | nil => simp [memOfBytes, memByte]
  | cons v t ih =>
    have later : base < a → memByte (memOfBytes (base + 1) t) a = (v :: t).getD (a - base) memDefault := by
      intro hlt
      rw [ih (base + 1) hlt]
      have e : a - base = (a - (base + 1)) + 1 := by omega
      rw [e]; rfl
    have below : ∀ (t : List Byte) (b : Nat), a < b → memByte (memOfBytes b t) a = memDefault := by
      intro t
      induction t with
      | nil => intro b _; rfl
      | cons w t ih2 =>
        intro b hb
        unfold memOfBytes
        split
        · exact ih2 (b + 1) (by omega)
        · simp only [memByte]
          rw [if_neg (by omega)]
          exact ih2 (b + 1) (by omega)
    by_cases he : base = a
    · subst he
      unfold memOfBytes
      split
      · next hv => rw [below t (base + 1) (by omega)]; simp [hv]
      · simp [memByte]
    · have hlt : base < a := by omega
      unfold memOfBytes
      split
      · exact later hlt
      · simp only [memByte]
        rw [if_neg (by omega)]
        exact later hlt

/-- A load is canonical: addresses rise from `base`, end below the end, and no zero byte is listed. -/
theorem memWfFrom_memOfBytes (l : List Byte) (base lo : Nat) (h : lo ≤ base) :
    memWfFrom lo (base + l.length) (memOfBytes base l) = true := by
  induction l generalizing base lo with
  | nil => rfl
  | cons v t ih =>
    unfold memOfBytes
    have e : base + (v :: t).length = (base + 1) + t.length := by simp; omega
    rw [e]
    split
    · exact ih (base + 1) lo (by omega)
    · next hv =>
      simp only [memWfFrom, Bool.and_eq_true, decide_eq_true_eq]
      exact ⟨⟨⟨h, by omega⟩, hv⟩, ih (base + 1) (base + 1) (Nat.le_refl _)⟩

/-- A loaded stream is canonical. -/
theorem Memory.wf_memOfBytes (l : List Byte) : Memory.wf l.length (memOfBytes 0 l) = true := by
  have h := memWfFrom_memOfBytes l 0 0 (Nat.le_refl 0)
  rwa [Nat.zero_add] at h

/-- An n-byte value is below 256^n. -/
theorem memRead_lt (m : Memory) (a n : Nat) : memRead m a n < 256 ^ n := by
  induction n generalizing a with
  | zero => simp [memRead]
  | succ n ih =>
    have h1 := ih (a + 1)
    have h2 := (memByte m a).isLt
    simp only [memRead]
    rw [Nat.pow_succ]
    omega

/-- `r` reads exactly `k` bytes where the stream holds them, and gives `f` of the offset. -/
def Reads {α : Type} (r : Reader α) (slen k : Nat) (f : Nat → α) : Prop :=
  ∀ cur : U64, cur.toNat + k ≤ slen → r cur = .ok (f cur.toNat) (cur + BitVec.ofNat 64 k)

theorem toNat_add_ofNat (cur : U64) (k : Nat) (h : cur.toNat + k < 2 ^ 64) :
    (cur + BitVec.ofNat 64 k).toNat = cur.toNat + k := by
  rw [BitVec.toNat_add, BitVec.toNat_ofNat, Nat.add_mod_mod, Nat.mod_eq_of_lt h]

theorem add_ofNat_add (cur : U64) (j k : Nat) :
    cur + BitVec.ofNat 64 j + BitVec.ofNat 64 k = cur + BitVec.ofNat 64 (j + k) := by
  rw [BitVec.add_assoc, BitVec.ofNat_add]

variable {α β : Type} {m : Memory} {slen : Nat}

theorem reads_rdNat (n : Nat) : Reads (rdNat m slen n) slen n fun a => memRead m a n := by
  intro cur h
  simp [rdNat, h]

theorem reads_readPure (v : α) : Reads (readPure v) slen 0 fun _ => v := by
  intro cur _
  simp [readPure]

theorem reads_readThen {r : Reader α} {g : α → Reader β} {j k : Nat} {f : Nat → α} {f' : α → Nat → β}
    (hs : slen < 2 ^ 64) (hr : Reads r slen j f) (hg : ∀ v, Reads (g v) slen k (f' v)) :
    Reads (readThen r g) slen (j + k) fun a => f' (f a) (a + j) := by
  intro cur h
  have h1 : cur.toNat + j < 2 ^ 64 := by omega
  have e := toNat_add_ofNat cur j h1
  simp only [readThen, hr cur (by omega)]
  rw [hg _ _ (by omega), e, add_ofNat_add]

theorem reads_readMap {r : Reader α} {k : Nat} {f : Nat → α} (g : α → β) (hs : slen < 2 ^ 64)
    (hr : Reads r slen k f) : Reads (readMap g r) slen k fun a => g (f a) := by
  exact reads_readThen (k := 0) (g := fun v => readPure (g v)) hs hr fun v => reads_readPure (g v)

/-- Reading n times in a row reads n * k bytes, item i at offset i * k. -/
theorem reads_readMany {r : Reader α} {k : Nat} {f : Nat → α} (hs : slen < 2 ^ 64) (hr : Reads r slen k f)
    (n : Nat) :
    Reads (readMany r n) slen (n * k) fun a => (List.range n).map fun i => f (a + i * k) := by
  induction n with
  | zero => intro cur _; simp [readMany, readPure]
  | succ n ih =>
    have h := reads_readThen (g := fun v => readMap (v :: ·) (readMany r n)) hs hr
      fun v => reads_readMap (v :: ·) hs ih
    intro cur hc
    have e : k + n * k = (n + 1) * k := by rw [Nat.add_mul]; omega
    rw [e] at h
    have h' := h cur hc
    simp only [readMany]
    rw [h']
    congr 1
    rw [List.range_succ_eq_map, List.map_cons, List.map_map, Nat.zero_mul, Nat.add_zero]
    refine congrArg (List.cons _) ?_
    apply List.map_congr_left
    intro i _
    simp only [Function.comp]
    congr 1
    rw [Nat.succ_mul]; omega

theorem reads_rd8 (hs : slen < 2 ^ 64) : Reads (rd8 m slen) slen 1 fun a => memByte m a := by
  intro cur h
  have := reads_readMap (BitVec.ofNat 8) hs (reads_rdNat (m := m) 1) cur h
  rw [rd8, this]
  simp [memRead]

theorem reads_rd16 (hs : slen < 2 ^ 64) :
    Reads (rd16 m slen) slen 2 fun a => BitVec.ofNat 16 (memRead m a 2) :=
  reads_readMap (BitVec.ofNat 16) hs (reads_rdNat 2)

theorem reads_rd32 (hs : slen < 2 ^ 64) :
    Reads (rd32 m slen) slen 4 fun a => BitVec.ofNat 32 (memRead m a 4) :=
  reads_readMap (BitVec.ofNat 32) hs (reads_rdNat 4)

/-- The palette header at an offset. -/
def palHeaderAt (m : Memory) (a : Nat) : PalHeader :=
  { dx := BitVec.ofNat 16 (memRead m (a + 4) 2), dy := BitVec.ofNat 16 (memRead m (a + 6) 2),
    w := BitVec.ofNat 16 (memRead m (a + 8) 2), h := BitVec.ofNat 16 (memRead m (a + 10) 2) }

theorem reads_readPalHeader (hs : slen < 2 ^ 64) :
    Reads (readPalHeader m slen) slen 12 (palHeaderAt m) :=
  reads_readThen (j := 4) (k := 8) hs (reads_rd32 hs) fun _ =>
    reads_readThen (j := 2) (k := 6) hs (reads_rd16 hs) fun _ =>
      reads_readThen (j := 2) (k := 4) hs (reads_rd16 hs) fun _ =>
        reads_readThen (j := 2) (k := 2) hs (reads_rd16 hs) fun _ =>
          reads_readMap _ hs (reads_rd16 hs)

/-- The image header at an offset. -/
def imgHeaderAt (m : Memory) (a : Nat) : ImgHeader :=
  { ox := BitVec.ofNat 16 (memRead m (a + 4) 2), oy := BitVec.ofNat 16 (memRead m (a + 6) 2),
    stride := BitVec.ofNat 16 (memRead m (a + 8) 2), h := BitVec.ofNat 16 (memRead m (a + 10) 2) }

theorem reads_readImgHeader (hs : slen < 2 ^ 64) :
    Reads (readImgHeader m slen) slen 12 (imgHeaderAt m) :=
  reads_readThen (j := 4) (k := 8) hs (reads_rd32 hs) fun _ =>
    reads_readThen (j := 2) (k := 6) hs (reads_rd16 hs) fun _ =>
      reads_readThen (j := 2) (k := 4) hs (reads_rd16 hs) fun _ =>
        reads_readThen (j := 2) (k := 2) hs (reads_rd16 hs) fun _ =>
          reads_readMap _ hs (reads_rd16 hs)

/-- A piece of reading that answers never counts items it did not read: n readings give n items. -/
theorem length_readMany {r : Reader α} (n : Nat) (cur c : U64) (l : List α)
    (h : readMany r n cur = .ok l c) : l.length = n := by
  induction n generalizing cur c l with
  | zero => simp only [readMany, readPure, ReadResult.ok.injEq] at h; simp [← h.1]
  | succ n ih =>
    simp only [readMany, readMap, readThen, readPure] at h
    split at h
    · split at h
      · next hl =>
        simp only [ReadResult.ok.injEq] at h
        rw [← h.1, List.length_cons, ih _ _ _ hl]
      · exact absurd h (by simp)
    · exact absurd h (by simp)

/-- Every item of a list of readings came from the reading. -/
theorem mem_readMany {r : Reader α} (P : α → Prop) (hP : ∀ cur v c, r cur = .ok v c → P v) (n : Nat)
    (cur c : U64) (l : List α) (h : readMany r n cur = .ok l c) : ∀ v ∈ l, P v := by
  induction n generalizing cur c l with
  | zero => simp only [readMany, readPure, ReadResult.ok.injEq] at h; simp [← h.1]
  | succ n ih =>
    simp only [readMany, readMap, readThen, readPure] at h
    split at h
    · next v0 c0 hv =>
      split at h
      · next hl =>
        simp only [ReadResult.ok.injEq] at h
        intro v hm
        rw [← h.1, List.mem_cons] at hm
        rcases hm with e | e
        · rw [e]; exact hP _ _ _ hv
        · exact ih _ _ _ hl v e
      · exact absurd h (by simp)
    · exact absurd h (by simp)

/-- A read that fails leaves the cursor where it was; a read that answers has its bytes in the stream. -/
theorem rdNat_ok_iff (n : Nat) (cur c : U64) (v : Nat) :
    rdNat m slen n cur = .ok v c ↔
      cur.toNat + n ≤ slen ∧ v = memRead m cur.toNat n ∧ c = cur + BitVec.ofNat 64 n := by
  unfold rdNat
  split
  · next h => simp [h, eq_comm]
  · next h => simp [h]

/-! ### Reads that succeed stay inside the stream -/

/-- What `r` reads, where it succeeds, is `k` bytes of the stream. -/
def StaysInside (r : Reader α) (slen k : Nat) : Prop :=
  ∀ cur v c, r cur = .ok v c → (cur.toNat + k ≤ slen ∨ k = 0) ∧ c = cur + BitVec.ofNat 64 k

theorem staysInside_rdNat (n : Nat) : StaysInside (rdNat m slen n) slen n := by
  intro cur v c h
  obtain ⟨h1, _, h3⟩ := (rdNat_ok_iff n cur c v).1 h
  exact ⟨.inl h1, h3⟩

theorem staysInside_readPure (v : α) : StaysInside (readPure v) slen 0 := by
  intro cur w c h
  simp only [readPure, ReadResult.ok.injEq] at h
  exact ⟨.inr rfl, by simp [← h.2]⟩

theorem staysInside_readThen {r : Reader α} {g : α → Reader β} {j k : Nat} (hs : slen < 2 ^ 64)
    (hr : StaysInside r slen j) (hg : ∀ v, StaysInside (g v) slen k) :
    StaysInside (readThen r g) slen (j + k) := by
  intro cur w c h
  unfold readThen at h
  split at h
  · next v c1 e =>
    obtain ⟨h1, h2⟩ := hr cur v c1 e
    obtain ⟨h3, h4⟩ := hg v c1 w c h
    refine ⟨?_, by rw [h4, h2, add_ofNat_add]⟩
    rcases h1 with h1 | rfl
    · have e1 := toNat_add_ofNat cur j (by omega)
      rw [h2, e1] at h3
      omega
    · have e0 : c1 = cur := by rw [h2]; simp
      rw [e0] at h3
      simpa using h3
  · cases h

theorem staysInside_readMap {r : Reader α} {k : Nat} (g : α → β) (hs : slen < 2 ^ 64)
    (hr : StaysInside r slen k) : StaysInside (readMap g r) slen k :=
  staysInside_readThen (k := 0) hs hr fun v => staysInside_readPure (g v)

theorem staysInside_readMany {r : Reader α} {k : Nat} (hs : slen < 2 ^ 64) (hr : StaysInside r slen k)
    (n : Nat) : StaysInside (readMany r n) slen (n * k) := by
  induction n with
  | zero => simpa [readMany] using staysInside_readPure (slen := slen) ([] : List α)
  | succ n ih =>
    have h := staysInside_readThen hs hr fun v => staysInside_readMap (v :: ·) hs ih
    rwa [show (n + 1) * k = k + n * k by rw [Nat.succ_mul, Nat.add_comm]]

theorem staysInside_rd8 (hs : slen < 2 ^ 64) : StaysInside (rd8 m slen) slen 1 :=
  staysInside_readMap _ hs (staysInside_rdNat 1)

theorem staysInside_rd16 (hs : slen < 2 ^ 64) : StaysInside (rd16 m slen) slen 2 :=
  staysInside_readMap _ hs (staysInside_rdNat 2)

theorem staysInside_rd32 (hs : slen < 2 ^ 64) : StaysInside (rd32 m slen) slen 4 :=
  staysInside_readMap _ hs (staysInside_rdNat 4)

/-! ### Reads that fail stop at the end of the stream -/

/-- Where `r` meets the end of the stream, the cursor it reached lies at its start or inside the stream. -/
def StopsInside (r : Reader α) (slen : Nat) : Prop :=
  ∀ cur c, r cur = .eos c → c.toNat ≤ max cur.toNat slen

theorem stopsInside_rdNat (n : Nat) : StopsInside (rdNat m slen n) slen := by
  intro cur c h
  unfold rdNat at h
  split at h
  · cases h
  · cases h
    omega

theorem stopsInside_readPure (v : α) : StopsInside (readPure v) slen := by
  intro cur c h
  cases h

theorem stopsInside_readThen {r : Reader α} {g : α → Reader β} {j : Nat} (hs : slen < 2 ^ 64)
    (hr : StaysInside r slen j) (he : StopsInside r slen) (hg : ∀ v, StopsInside (g v) slen) :
    StopsInside (readThen r g) slen := by
  intro cur c h
  unfold readThen at h
  split at h
  · next v c1 e =>
    obtain ⟨h1, h2⟩ := hr cur v c1 e
    have h3 := hg v c1 c h
    rcases h1 with h1 | rfl
    · have := toNat_add_ofNat cur j (by omega)
      rw [h2] at h3
      omega
    · rw [h2] at h3
      simpa using h3
  · next c1 e =>
    cases h
    exact he cur _ e

theorem stopsInside_readMap {r : Reader α} {k : Nat} (g : α → β) (hs : slen < 2 ^ 64)
    (hr : StaysInside r slen k) (he : StopsInside r slen) : StopsInside (readMap g r) slen :=
  stopsInside_readThen hs hr he fun v => stopsInside_readPure (g v)

theorem stopsInside_readMany {r : Reader α} {k : Nat} (hs : slen < 2 ^ 64) (hr : StaysInside r slen k)
    (he : StopsInside r slen) (n : Nat) : StopsInside (readMany r n) slen := by
  induction n with
  | zero => exact stopsInside_readPure _
  | succ n ih =>
    exact stopsInside_readThen hs hr he fun v =>
      stopsInside_readMap (v :: ·) hs (staysInside_readMany hs hr n) ih

theorem stopsInside_rd8 (hs : slen < 2 ^ 64) : StopsInside (rd8 m slen) slen :=
  stopsInside_readMap _ hs (staysInside_rdNat 1) (stopsInside_rdNat 1)

theorem stopsInside_rd16 (hs : slen < 2 ^ 64) : StopsInside (rd16 m slen) slen :=
  stopsInside_readMap _ hs (staysInside_rdNat 2) (stopsInside_rdNat 2)

theorem stopsInside_rd32 (hs : slen < 2 ^ 64) : StopsInside (rd32 m slen) slen :=
  stopsInside_readMap _ hs (staysInside_rdNat 4) (stopsInside_rdNat 4)

/-- Five fields of 4, 2, 2, 2 and 2 bytes, as both container headers have them, are 12 bytes of the stream,
and a header cut short stops inside it. -/
theorem header_inside (hs : slen < 2 ^ 64) (f : U16 → U16 → U16 → U16 → α) :
    StaysInside (readThen (rd32 m slen) fun _ => readThen (rd16 m slen) fun a => readThen (rd16 m slen)
        fun b => readThen (rd16 m slen) fun c => readMap (f a b c) (rd16 m slen)) slen 12 ∧
      StopsInside (readThen (rd32 m slen) fun _ => readThen (rd16 m slen) fun a =>
        readThen (rd16 m slen) fun b => readThen (rd16 m slen) fun c =>
          readMap (f a b c) (rd16 m slen)) slen := by
  have w := staysInside_rd16 (m := m) hs
  have e := stopsInside_rd16 (m := m) hs
  have w1 : ∀ a b c, StaysInside (readMap (f a b c) (rd16 m slen)) slen 2 := fun a b c =>
    staysInside_readMap _ hs w
  have w2 : ∀ a b, StaysInside (readThen (rd16 m slen) fun c => readMap (f a b c) (rd16 m slen)) slen 4 :=
    fun a b => staysInside_readThen (j := 2) (k := 2) hs w (w1 a b)
  have w3 : ∀ a, StaysInside (readThen (rd16 m slen) fun b => readThen (rd16 m slen) fun c =>
      readMap (f a b c) (rd16 m slen)) slen 6 :=
    fun a => staysInside_readThen (j := 2) (k := 4) hs w (w2 a)
  have w4 : StaysInside (readThen (rd16 m slen) fun a => readThen (rd16 m slen) fun b =>
      readThen (rd16 m slen) fun c => readMap (f a b c) (rd16 m slen)) slen 8 :=
    staysInside_readThen (j := 2) (k := 6) hs w w3
  exact ⟨staysInside_readThen (j := 4) (k := 8) hs (staysInside_rd32 hs) fun _ => w4,
    stopsInside_readThen hs (staysInside_rd32 hs) (stopsInside_rd32 hs) fun _ =>
      stopsInside_readThen hs w e fun a => stopsInside_readThen hs w e fun b =>
        stopsInside_readThen hs w e fun c => stopsInside_readMap _ hs w e⟩

/-- A read that would leave the stream ends at the end of the stream. -/
theorem eos_of_staysInside {r : Reader α} {k : Nat} (hr : StaysInside r slen k) (hk : k ≠ 0) (cur : U64)
    (h : slen < cur.toNat + k) : ∃ c, r cur = .eos c := by
  cases e : r cur with
  | ok v c =>
    have := (hr cur v c e).1
    omega
  | eos c => exact ⟨c, rfl⟩

/-- A palette header cut short (rules R73, R167). -/
theorem readPalHeader_past (hs : slen < 2 ^ 64) (cur : U64) (h : slen < cur.toNat + 12) :
    ∃ c, readPalHeader m slen cur = .eos c ∧ c.toNat ≤ max cur.toNat slen := by
  have hd := header_inside (m := m) hs PalHeader.mk
  obtain ⟨c, hc⟩ := eos_of_staysInside hd.1 (by decide) cur h
  exact ⟨c, hc, hd.2 cur c hc⟩

/-- An image header cut short (rules R73, R173). -/
theorem readImgHeader_past (hs : slen < 2 ^ 64) (cur : U64) (h : slen < cur.toNat + 12) :
    ∃ c, readImgHeader m slen cur = .eos c ∧ c.toNat ≤ max cur.toNat slen := by
  have hd := header_inside (m := m) hs ImgHeader.mk
  obtain ⟨c, hc⟩ := eos_of_staysInside hd.1 (by decide) cur h
  exact ⟨c, hc, hd.2 cur c hc⟩

end Sys2Proof.Machine
end

