-- ==== Sys2Proof/Laws/State.lean ====
section
/-! SUPPORT. One lemma per field of State per named update, each true by rfl, so that no proof unfolds a
record update. -/

namespace Sys2Proof.Machine

variable (s : State)

theorem State.ok_def (x : Result) : s.ok x = s.finish .ok .none x := rfl
theorem State.illegal_def (r : Reason) : s.illegal r = s.finish .illegalCommand r .none := rfl

/-! ### State.finish -/

@[simp] theorem State.finish_params (c : Code) (r : Reason) (x : Result) : (s.finish c r x).params = s.params := rfl
@[simp] theorem State.finish_inbox (c : Code) (r : Reason) (x : Result) : (s.finish c r x).inbox = s.inbox := rfl
@[simp] theorem State.finish_response (c : Code) (r : Reason) (x : Result) : (s.finish c r x).response = some ⟨c, r, x⟩ := rfl
@[simp] theorem State.finish_stream (c : Code) (r : Reason) (x : Result) : (s.finish c r x).stream = s.stream := rfl
@[simp] theorem State.finish_slen (c : Code) (r : Reason) (x : Result) : (s.finish c r x).slen = s.slen := rfl
@[simp] theorem State.finish_cfg (c : Code) (r : Reason) (x : Result) : (s.finish c r x).cfg = s.cfg := rfl
@[simp] theorem State.finish_maxres (c : Code) (r : Reason) (x : Result) : (s.finish c r x).maxres = s.maxres := rfl
@[simp] theorem State.finish_maxresWritten (c : Code) (r : Reason) (x : Result) : (s.finish c r x).maxresWritten = s.maxresWritten := rfl
@[simp] theorem State.finish_bgcolor (c : Code) (r : Reason) (x : Result) : (s.finish c r x).bgcolor = s.bgcolor := rfl
@[simp] theorem State.finish_bgcolorWritten (c : Code) (r : Reason) (x : Result) : (s.finish c r x).bgcolorWritten = s.bgcolorWritten := rfl
@[simp] theorem State.finish_bgstp (c : Code) (r : Reason) (x : Result) : (s.finish c r x).bgstp = s.bgstp := rfl
@[simp] theorem State.finish_bgstpWritten (c : Code) (r : Reason) (x : Result) : (s.finish c r x).bgstpWritten = s.bgstpWritten := rfl
@[simp] theorem State.finish_cur (c : Code) (r : Reason) (x : Result) : (s.finish c r x).cur = s.cur := rfl
@[simp] theorem State.finish_curWritten (c : Code) (r : Reason) (x : Result) : (s.finish c r x).curWritten = s.curWritten := rfl
@[simp] theorem State.finish_status (c : Code) (r : Reason) (x : Result) : (s.finish c r x).status = statusWord c r := rfl
@[simp] theorem State.finish_paldim (c : Code) (r : Reason) (x : Result) : (s.finish c r x).paldim = s.paldim := rfl
@[simp] theorem State.finish_pal (c : Code) (r : Reason) (x : Result) : (s.finish c r x).pal = s.pal := rfl
@[simp] theorem State.finish_pagesReady (c : Code) (r : Reason) (x : Result) : (s.finish c r x).pagesReady = s.pagesReady := rfl
@[simp] theorem State.finish_pages (c : Code) (r : Reason) (x : Result) : (s.finish c r x).pages = s.pages := rfl
@[simp] theorem State.finish_uploads (c : Code) (r : Reason) (x : Result) : (s.finish c r x).uploads = s.uploads := rfl
@[simp] theorem State.finish_draws (c : Code) (r : Reason) (x : Result) : (s.finish c r x).draws = s.draws := rfl
@[simp] theorem State.finish_page (c : Code) (r : Reason) (x : Result) (q : Fin 32) : (s.finish c r x).page q = s.page q := rfl
@[simp] theorem State.finish_tolerant (c : Code) (r : Reason) (x : Result) : (s.finish c r x).tolerant = s.tolerant := rfl
@[simp] theorem State.finish_ignoreVersion (c : Code) (r : Reason) (x : Result) : (s.finish c r x).ignoreVersion = s.ignoreVersion := rfl
@[simp] theorem State.finish_firstRowOnly (c : Code) (r : Reason) (x : Result) : (s.finish c r x).firstRowOnly = s.firstRowOnly := rfl

/-! ### State.setCur -/

@[simp] theorem State.setCur_params (c : U64) : (s.setCur c).params = s.params := rfl
@[simp] theorem State.setCur_inbox (c : U64) : (s.setCur c).inbox = s.inbox := rfl
@[simp] theorem State.setCur_response (c : U64) : (s.setCur c).response = s.response := rfl
@[simp] theorem State.setCur_stream (c : U64) : (s.setCur c).stream = s.stream := rfl
@[simp] theorem State.setCur_slen (c : U64) : (s.setCur c).slen = s.slen := rfl
@[simp] theorem State.setCur_cfg (c : U64) : (s.setCur c).cfg = s.cfg := rfl
@[simp] theorem State.setCur_maxres (c : U64) : (s.setCur c).maxres = s.maxres := rfl
@[simp] theorem State.setCur_maxresWritten (c : U64) : (s.setCur c).maxresWritten = s.maxresWritten := rfl
@[simp] theorem State.setCur_bgcolor (c : U64) : (s.setCur c).bgcolor = s.bgcolor := rfl
@[simp] theorem State.setCur_bgcolorWritten (c : U64) : (s.setCur c).bgcolorWritten = s.bgcolorWritten := rfl
@[simp] theorem State.setCur_bgstp (c : U64) : (s.setCur c).bgstp = s.bgstp := rfl
@[simp] theorem State.setCur_bgstpWritten (c : U64) : (s.setCur c).bgstpWritten = s.bgstpWritten := rfl
@[simp] theorem State.setCur_cur (c : U64) : (s.setCur c).cur = c := rfl
@[simp] theorem State.setCur_curWritten (c : U64) : (s.setCur c).curWritten = s.curWritten := rfl
@[simp] theorem State.setCur_status (c : U64) : (s.setCur c).status = s.status := rfl
@[simp] theorem State.setCur_paldim (c : U64) : (s.setCur c).paldim = s.paldim := rfl
@[simp] theorem State.setCur_pal (c : U64) : (s.setCur c).pal = s.pal := rfl
@[simp] theorem State.setCur_pagesReady (c : U64) : (s.setCur c).pagesReady = s.pagesReady := rfl
@[simp] theorem State.setCur_pages (c : U64) : (s.setCur c).pages = s.pages := rfl
@[simp] theorem State.setCur_uploads (c : U64) : (s.setCur c).uploads = s.uploads := rfl
@[simp] theorem State.setCur_draws (c : U64) : (s.setCur c).draws = s.draws := rfl
@[simp] theorem State.setCur_page (c : U64) (q : Fin 32) : (s.setCur c).page q = s.page q := rfl
@[simp] theorem State.setCur_tolerant (c : U64) : (s.setCur c).tolerant = s.tolerant := rfl
@[simp] theorem State.setCur_ignoreVersion (c : U64) : (s.setCur c).ignoreVersion = s.ignoreVersion := rfl
@[simp] theorem State.setCur_firstRowOnly (c : U64) : (s.setCur c).firstRowOnly = s.firstRowOnly := rfl

/-! ### State.anyCur -/

@[simp] theorem State.anyCur_params (lo hi : Nat) : (s.anyCur lo hi).params = s.params := rfl
@[simp] theorem State.anyCur_inbox (lo hi : Nat) : (s.anyCur lo hi).inbox = s.inbox := rfl
@[simp] theorem State.anyCur_response (lo hi : Nat) : (s.anyCur lo hi).response = s.response := rfl
@[simp] theorem State.anyCur_stream (lo hi : Nat) : (s.anyCur lo hi).stream = s.stream := rfl
@[simp] theorem State.anyCur_slen (lo hi : Nat) : (s.anyCur lo hi).slen = s.slen := rfl
@[simp] theorem State.anyCur_cfg (lo hi : Nat) : (s.anyCur lo hi).cfg = s.cfg := rfl
@[simp] theorem State.anyCur_maxres (lo hi : Nat) : (s.anyCur lo hi).maxres = s.maxres := rfl
@[simp] theorem State.anyCur_maxresWritten (lo hi : Nat) : (s.anyCur lo hi).maxresWritten = s.maxresWritten := rfl
@[simp] theorem State.anyCur_bgcolor (lo hi : Nat) : (s.anyCur lo hi).bgcolor = s.bgcolor := rfl
@[simp] theorem State.anyCur_bgcolorWritten (lo hi : Nat) : (s.anyCur lo hi).bgcolorWritten = s.bgcolorWritten := rfl
@[simp] theorem State.anyCur_bgstp (lo hi : Nat) : (s.anyCur lo hi).bgstp = s.bgstp := rfl
@[simp] theorem State.anyCur_bgstpWritten (lo hi : Nat) : (s.anyCur lo hi).bgstpWritten = s.bgstpWritten := rfl
@[simp] theorem State.anyCur_curWritten (lo hi : Nat) : (s.anyCur lo hi).curWritten = s.curWritten := rfl
@[simp] theorem State.anyCur_status (lo hi : Nat) : (s.anyCur lo hi).status = s.status := rfl
@[simp] theorem State.anyCur_paldim (lo hi : Nat) : (s.anyCur lo hi).paldim = s.paldim := rfl
@[simp] theorem State.anyCur_pal (lo hi : Nat) : (s.anyCur lo hi).pal = s.pal := rfl
@[simp] theorem State.anyCur_pagesReady (lo hi : Nat) : (s.anyCur lo hi).pagesReady = s.pagesReady := rfl
@[simp] theorem State.anyCur_pages (lo hi : Nat) : (s.anyCur lo hi).pages = s.pages := rfl
@[simp] theorem State.anyCur_uploads (lo hi : Nat) : (s.anyCur lo hi).uploads = s.uploads := rfl
@[simp] theorem State.anyCur_draws (lo hi : Nat) : (s.anyCur lo hi).draws = s.draws + 1 := rfl
@[simp] theorem State.anyCur_page (lo hi : Nat) (q : Fin 32) : (s.anyCur lo hi).page q = s.page q := rfl
@[simp] theorem State.anyCur_tolerant (lo hi : Nat) : (s.anyCur lo hi).tolerant = s.tolerant := rfl
@[simp] theorem State.anyCur_ignoreVersion (lo hi : Nat) : (s.anyCur lo hi).ignoreVersion = s.ignoreVersion := rfl
@[simp] theorem State.anyCur_firstRowOnly (lo hi : Nat) : (s.anyCur lo hi).firstRowOnly = s.firstRowOnly := rfl

/-! ### State.setPalDim -/

@[simp] theorem State.setPalDim_params (dx dy w h : U16) : (s.setPalDim dx dy w h).params = s.params := rfl
@[simp] theorem State.setPalDim_inbox (dx dy w h : U16) : (s.setPalDim dx dy w h).inbox = s.inbox := rfl
@[simp] theorem State.setPalDim_response (dx dy w h : U16) : (s.setPalDim dx dy w h).response = s.response := rfl
@[simp] theorem State.setPalDim_stream (dx dy w h : U16) : (s.setPalDim dx dy w h).stream = s.stream := rfl
@[simp] theorem State.setPalDim_slen (dx dy w h : U16) : (s.setPalDim dx dy w h).slen = s.slen := rfl
@[simp] theorem State.setPalDim_cfg (dx dy w h : U16) : (s.setPalDim dx dy w h).cfg = s.cfg := rfl
@[simp] theorem State.setPalDim_maxres (dx dy w h : U16) : (s.setPalDim dx dy w h).maxres = s.maxres := rfl
@[simp] theorem State.setPalDim_maxresWritten (dx dy w h : U16) : (s.setPalDim dx dy w h).maxresWritten = s.maxresWritten := rfl
@[simp] theorem State.setPalDim_bgcolor (dx dy w h : U16) : (s.setPalDim dx dy w h).bgcolor = s.bgcolor := rfl
@[simp] theorem State.setPalDim_bgcolorWritten (dx dy w h : U16) : (s.setPalDim dx dy w h).bgcolorWritten = s.bgcolorWritten := rfl
@[simp] theorem State.setPalDim_bgstp (dx dy w h : U16) : (s.setPalDim dx dy w h).bgstp = s.bgstp := rfl
@[simp] theorem State.setPalDim_bgstpWritten (dx dy w h : U16) : (s.setPalDim dx dy w h).bgstpWritten = s.bgstpWritten := rfl
@[simp] theorem State.setPalDim_cur (dx dy w h : U16) : (s.setPalDim dx dy w h).cur = s.cur := rfl
@[simp] theorem State.setPalDim_curWritten (dx dy w h : U16) : (s.setPalDim dx dy w h).curWritten = s.curWritten := rfl
@[simp] theorem State.setPalDim_status (dx dy w h : U16) : (s.setPalDim dx dy w h).status = s.status := rfl
@[simp] theorem State.setPalDim_paldim (dx dy w h : U16) : (s.setPalDim dx dy w h).paldim = palDimWord dx dy w h := rfl
@[simp] theorem State.setPalDim_pal (dx dy w h : U16) : (s.setPalDim dx dy w h).pal = s.pal := rfl
@[simp] theorem State.setPalDim_pagesReady (dx dy w h : U16) : (s.setPalDim dx dy w h).pagesReady = s.pagesReady := rfl
@[simp] theorem State.setPalDim_pages (dx dy w h : U16) : (s.setPalDim dx dy w h).pages = s.pages := rfl
@[simp] theorem State.setPalDim_uploads (dx dy w h : U16) : (s.setPalDim dx dy w h).uploads = s.uploads := rfl
@[simp] theorem State.setPalDim_draws (dx dy w h : U16) : (s.setPalDim dx dy w h).draws = s.draws := rfl
@[simp] theorem State.setPalDim_page (dx dy w h : U16) (q : Fin 32) : (s.setPalDim dx dy w h).page q = s.page q := rfl
@[simp] theorem State.setPalDim_tolerant (dx dy w h : U16) : (s.setPalDim dx dy w h).tolerant = s.tolerant := rfl
@[simp] theorem State.setPalDim_ignoreVersion (dx dy w h : U16) : (s.setPalDim dx dy w h).ignoreVersion = s.ignoreVersion := rfl
@[simp] theorem State.setPalDim_firstRowOnly (dx dy w h : U16) : (s.setPalDim dx dy w h).firstRowOnly = s.firstRowOnly := rfl

/-! ### State.setPal -/

@[simp] theorem State.setPal_params (p : Palette) : (s.setPal p).params = s.params := rfl
@[simp] theorem State.setPal_inbox (p : Palette) : (s.setPal p).inbox = s.inbox := rfl
@[simp] theorem State.setPal_response (p : Palette) : (s.setPal p).response = s.response := rfl
@[simp] theorem State.setPal_stream (p : Palette) : (s.setPal p).stream = s.stream := rfl
@[simp] theorem State.setPal_slen (p : Palette) : (s.setPal p).slen = s.slen := rfl
@[simp] theorem State.setPal_cfg (p : Palette) : (s.setPal p).cfg = s.cfg := rfl
@[simp] theorem State.setPal_maxres (p : Palette) : (s.setPal p).maxres = s.maxres := rfl
@[simp] theorem State.setPal_maxresWritten (p : Palette) : (s.setPal p).maxresWritten = s.maxresWritten := rfl
@[simp] theorem State.setPal_bgcolor (p : Palette) : (s.setPal p).bgcolor = s.bgcolor := rfl
@[simp] theorem State.setPal_bgcolorWritten (p : Palette) : (s.setPal p).bgcolorWritten = s.bgcolorWritten := rfl
@[simp] theorem State.setPal_bgstp (p : Palette) : (s.setPal p).bgstp = s.bgstp := rfl
@[simp] theorem State.setPal_bgstpWritten (p : Palette) : (s.setPal p).bgstpWritten = s.bgstpWritten := rfl
@[simp] theorem State.setPal_cur (p : Palette) : (s.setPal p).cur = s.cur := rfl
@[simp] theorem State.setPal_curWritten (p : Palette) : (s.setPal p).curWritten = s.curWritten := rfl
@[simp] theorem State.setPal_status (p : Palette) : (s.setPal p).status = s.status := rfl
@[simp] theorem State.setPal_paldim (p : Palette) : (s.setPal p).paldim = s.paldim := rfl
@[simp] theorem State.setPal_pal (p : Palette) : (s.setPal p).pal = p := rfl
@[simp] theorem State.setPal_pagesReady (p : Palette) : (s.setPal p).pagesReady = s.pagesReady := rfl
@[simp] theorem State.setPal_pages (p : Palette) : (s.setPal p).pages = s.pages := rfl
@[simp] theorem State.setPal_uploads (p : Palette) : (s.setPal p).uploads = s.uploads := rfl
@[simp] theorem State.setPal_draws (p : Palette) : (s.setPal p).draws = s.draws + 1 := rfl
@[simp] theorem State.setPal_page (p : Palette) (q : Fin 32) : (s.setPal p).page q = s.page q := rfl
@[simp] theorem State.setPal_tolerant (p : Palette) : (s.setPal p).tolerant = s.tolerant := rfl
@[simp] theorem State.setPal_ignoreVersion (p : Palette) : (s.setPal p).ignoreVersion = s.ignoreVersion := rfl
@[simp] theorem State.setPal_firstRowOnly (p : Palette) : (s.setPal p).firstRowOnly = s.firstRowOnly := rfl

/-! ### State.setPage -/

@[simp] theorem State.setPage_params (p : Fin 32) (pg : Page) : (s.setPage p pg).params = s.params := rfl
@[simp] theorem State.setPage_inbox (p : Fin 32) (pg : Page) : (s.setPage p pg).inbox = s.inbox := rfl
@[simp] theorem State.setPage_response (p : Fin 32) (pg : Page) : (s.setPage p pg).response = s.response := rfl
@[simp] theorem State.setPage_stream (p : Fin 32) (pg : Page) : (s.setPage p pg).stream = s.stream := rfl
@[simp] theorem State.setPage_slen (p : Fin 32) (pg : Page) : (s.setPage p pg).slen = s.slen := rfl
@[simp] theorem State.setPage_cfg (p : Fin 32) (pg : Page) : (s.setPage p pg).cfg = s.cfg := rfl
@[simp] theorem State.setPage_maxres (p : Fin 32) (pg : Page) : (s.setPage p pg).maxres = s.maxres := rfl
@[simp] theorem State.setPage_maxresWritten (p : Fin 32) (pg : Page) : (s.setPage p pg).maxresWritten = s.maxresWritten := rfl
@[simp] theorem State.setPage_bgcolor (p : Fin 32) (pg : Page) : (s.setPage p pg).bgcolor = s.bgcolor := rfl
@[simp] theorem State.setPage_bgcolorWritten (p : Fin 32) (pg : Page) : (s.setPage p pg).bgcolorWritten = s.bgcolorWritten := rfl
@[simp] theorem State.setPage_bgstp (p : Fin 32) (pg : Page) : (s.setPage p pg).bgstp = s.bgstp := rfl
@[simp] theorem State.setPage_bgstpWritten (p : Fin 32) (pg : Page) : (s.setPage p pg).bgstpWritten = s.bgstpWritten := rfl
@[simp] theorem State.setPage_cur (p : Fin 32) (pg : Page) : (s.setPage p pg).cur = s.cur := rfl
@[simp] theorem State.setPage_curWritten (p : Fin 32) (pg : Page) : (s.setPage p pg).curWritten = s.curWritten := rfl
@[simp] theorem State.setPage_status (p : Fin 32) (pg : Page) : (s.setPage p pg).status = s.status := rfl
@[simp] theorem State.setPage_paldim (p : Fin 32) (pg : Page) : (s.setPage p pg).paldim = s.paldim := rfl
@[simp] theorem State.setPage_pal (p : Fin 32) (pg : Page) : (s.setPage p pg).pal = s.pal := rfl
@[simp] theorem State.setPage_pagesReady (p : Fin 32) (pg : Page) : (s.setPage p pg).pagesReady = s.pagesReady := rfl
@[simp] theorem State.setPage_pages (p : Fin 32) (pg : Page) : (s.setPage p pg).pages = s.pages.set p pg := rfl
@[simp] theorem State.setPage_uploads (p : Fin 32) (pg : Page) : (s.setPage p pg).uploads = s.uploads := rfl
@[simp] theorem State.setPage_draws (p : Fin 32) (pg : Page) : (s.setPage p pg).draws = s.draws := rfl
@[simp] theorem State.setPage_tolerant (p : Fin 32) (pg : Page) : (s.setPage p pg).tolerant = s.tolerant := rfl
@[simp] theorem State.setPage_ignoreVersion (p : Fin 32) (pg : Page) : (s.setPage p pg).ignoreVersion = s.ignoreVersion := rfl
@[simp] theorem State.setPage_firstRowOnly (p : Fin 32) (pg : Page) : (s.setPage p pg).firstRowOnly = s.firstRowOnly := rfl

/-! ### State.upload -/

@[simp] theorem State.upload_params (p : Fin 32) : (s.upload p).params = s.params := rfl
@[simp] theorem State.upload_inbox (p : Fin 32) : (s.upload p).inbox = s.inbox := rfl
@[simp] theorem State.upload_response (p : Fin 32) : (s.upload p).response = s.response := rfl
@[simp] theorem State.upload_stream (p : Fin 32) : (s.upload p).stream = s.stream := rfl
@[simp] theorem State.upload_slen (p : Fin 32) : (s.upload p).slen = s.slen := rfl
@[simp] theorem State.upload_cfg (p : Fin 32) : (s.upload p).cfg = s.cfg := rfl
@[simp] theorem State.upload_maxres (p : Fin 32) : (s.upload p).maxres = s.maxres := rfl
@[simp] theorem State.upload_maxresWritten (p : Fin 32) : (s.upload p).maxresWritten = s.maxresWritten := rfl
@[simp] theorem State.upload_bgcolor (p : Fin 32) : (s.upload p).bgcolor = s.bgcolor := rfl
@[simp] theorem State.upload_bgcolorWritten (p : Fin 32) : (s.upload p).bgcolorWritten = s.bgcolorWritten := rfl
@[simp] theorem State.upload_bgstp (p : Fin 32) : (s.upload p).bgstp = s.bgstp := rfl
@[simp] theorem State.upload_bgstpWritten (p : Fin 32) : (s.upload p).bgstpWritten = s.bgstpWritten := rfl
@[simp] theorem State.upload_cur (p : Fin 32) : (s.upload p).cur = s.cur := rfl
@[simp] theorem State.upload_curWritten (p : Fin 32) : (s.upload p).curWritten = s.curWritten := rfl
@[simp] theorem State.upload_status (p : Fin 32) : (s.upload p).status = s.status := rfl
@[simp] theorem State.upload_paldim (p : Fin 32) : (s.upload p).paldim = s.paldim := rfl
@[simp] theorem State.upload_pal (p : Fin 32) : (s.upload p).pal = s.pal := rfl
@[simp] theorem State.upload_pagesReady (p : Fin 32) : (s.upload p).pagesReady = s.pagesReady := rfl
@[simp] theorem State.upload_pages (p : Fin 32) : (s.upload p).pages = s.pages := rfl
@[simp] theorem State.upload_uploads (p : Fin 32) : (s.upload p).uploads = s.uploads ++ [⟨p, (s.page p).color, (s.page p).stp⟩] := rfl
@[simp] theorem State.upload_draws (p : Fin 32) : (s.upload p).draws = s.draws := rfl
@[simp] theorem State.upload_page (p : Fin 32) (q : Fin 32) : (s.upload p).page q = s.page q := rfl
@[simp] theorem State.upload_tolerant (p : Fin 32) : (s.upload p).tolerant = s.tolerant := rfl
@[simp] theorem State.upload_ignoreVersion (p : Fin 32) : (s.upload p).ignoreVersion = s.ignoreVersion := rfl
@[simp] theorem State.upload_firstRowOnly (p : Fin 32) : (s.upload p).firstRowOnly = s.firstRowOnly := rfl

/-! ### State.setReady -/

@[simp] theorem State.setReady_params : (s.setReady).params = s.params := rfl
@[simp] theorem State.setReady_inbox : (s.setReady).inbox = s.inbox := rfl
@[simp] theorem State.setReady_response : (s.setReady).response = s.response := rfl
@[simp] theorem State.setReady_stream : (s.setReady).stream = s.stream := rfl
@[simp] theorem State.setReady_slen : (s.setReady).slen = s.slen := rfl
@[simp] theorem State.setReady_cfg : (s.setReady).cfg = s.cfg := rfl
@[simp] theorem State.setReady_maxres : (s.setReady).maxres = s.maxres := rfl
@[simp] theorem State.setReady_maxresWritten : (s.setReady).maxresWritten = s.maxresWritten := rfl
@[simp] theorem State.setReady_bgcolor : (s.setReady).bgcolor = s.bgcolor := rfl
@[simp] theorem State.setReady_bgcolorWritten : (s.setReady).bgcolorWritten = s.bgcolorWritten := rfl
@[simp] theorem State.setReady_bgstp : (s.setReady).bgstp = s.bgstp := rfl
@[simp] theorem State.setReady_bgstpWritten : (s.setReady).bgstpWritten = s.bgstpWritten := rfl
@[simp] theorem State.setReady_cur : (s.setReady).cur = s.cur := rfl
@[simp] theorem State.setReady_curWritten : (s.setReady).curWritten = s.curWritten := rfl
@[simp] theorem State.setReady_status : (s.setReady).status = s.status := rfl
@[simp] theorem State.setReady_paldim : (s.setReady).paldim = s.paldim := rfl
@[simp] theorem State.setReady_pal : (s.setReady).pal = s.pal := rfl
@[simp] theorem State.setReady_pagesReady : (s.setReady).pagesReady = true := rfl
@[simp] theorem State.setReady_pages : (s.setReady).pages = s.pages := rfl
@[simp] theorem State.setReady_uploads : (s.setReady).uploads = s.uploads := rfl
@[simp] theorem State.setReady_draws : (s.setReady).draws = s.draws := rfl
@[simp] theorem State.setReady_page (q : Fin 32) : (s.setReady).page q = s.page q := rfl
@[simp] theorem State.setReady_tolerant : (s.setReady).tolerant = s.tolerant := rfl
@[simp] theorem State.setReady_ignoreVersion : (s.setReady).ignoreVersion = s.ignoreVersion := rfl
@[simp] theorem State.setReady_firstRowOnly : (s.setReady).firstRowOnly = s.firstRowOnly := rfl

/-! ### State.takeMove -/

@[simp] theorem State.takeMove_params (rest : List HostMove) : (s.takeMove rest).params = s.params := rfl
@[simp] theorem State.takeMove_inbox (rest : List HostMove) : (s.takeMove rest).inbox = rest := rfl
@[simp] theorem State.takeMove_response (rest : List HostMove) : (s.takeMove rest).response = s.response := rfl
@[simp] theorem State.takeMove_stream (rest : List HostMove) : (s.takeMove rest).stream = s.stream := rfl
@[simp] theorem State.takeMove_slen (rest : List HostMove) : (s.takeMove rest).slen = s.slen := rfl
@[simp] theorem State.takeMove_cfg (rest : List HostMove) : (s.takeMove rest).cfg = s.cfg := rfl
@[simp] theorem State.takeMove_maxres (rest : List HostMove) : (s.takeMove rest).maxres = s.maxres := rfl
@[simp] theorem State.takeMove_maxresWritten (rest : List HostMove) : (s.takeMove rest).maxresWritten = s.maxresWritten := rfl
@[simp] theorem State.takeMove_bgcolor (rest : List HostMove) : (s.takeMove rest).bgcolor = s.bgcolor := rfl
@[simp] theorem State.takeMove_bgcolorWritten (rest : List HostMove) : (s.takeMove rest).bgcolorWritten = s.bgcolorWritten := rfl
@[simp] theorem State.takeMove_bgstp (rest : List HostMove) : (s.takeMove rest).bgstp = s.bgstp := rfl
@[simp] theorem State.takeMove_bgstpWritten (rest : List HostMove) : (s.takeMove rest).bgstpWritten = s.bgstpWritten := rfl
@[simp] theorem State.takeMove_cur (rest : List HostMove) : (s.takeMove rest).cur = s.cur := rfl
@[simp] theorem State.takeMove_curWritten (rest : List HostMove) : (s.takeMove rest).curWritten = s.curWritten := rfl
@[simp] theorem State.takeMove_status (rest : List HostMove) : (s.takeMove rest).status = s.status := rfl
@[simp] theorem State.takeMove_paldim (rest : List HostMove) : (s.takeMove rest).paldim = s.paldim := rfl
@[simp] theorem State.takeMove_pal (rest : List HostMove) : (s.takeMove rest).pal = s.pal := rfl
@[simp] theorem State.takeMove_pagesReady (rest : List HostMove) : (s.takeMove rest).pagesReady = s.pagesReady := rfl
@[simp] theorem State.takeMove_pages (rest : List HostMove) : (s.takeMove rest).pages = s.pages := rfl
@[simp] theorem State.takeMove_uploads (rest : List HostMove) : (s.takeMove rest).uploads = s.uploads := rfl
@[simp] theorem State.takeMove_draws (rest : List HostMove) : (s.takeMove rest).draws = s.draws := rfl
@[simp] theorem State.takeMove_page (rest : List HostMove) (q : Fin 32) : (s.takeMove rest).page q = s.page q := rfl
@[simp] theorem State.takeMove_tolerant (rest : List HostMove) : (s.takeMove rest).tolerant = s.tolerant := rfl
@[simp] theorem State.takeMove_ignoreVersion (rest : List HostMove) : (s.takeMove rest).ignoreVersion = s.ignoreVersion := rfl
@[simp] theorem State.takeMove_firstRowOnly (rest : List HostMove) : (s.takeMove rest).firstRowOnly = s.firstRowOnly := rfl

/-! ### State.loadBytes -/

@[simp] theorem State.loadBytes_params (bytes : List Byte) : (s.loadBytes bytes).params = s.params := rfl
@[simp] theorem State.loadBytes_inbox (bytes : List Byte) : (s.loadBytes bytes).inbox = s.inbox := rfl
@[simp] theorem State.loadBytes_response (bytes : List Byte) : (s.loadBytes bytes).response = s.response := rfl
@[simp] theorem State.loadBytes_stream (bytes : List Byte) : (s.loadBytes bytes).stream = memOfBytes 0 bytes := rfl
@[simp] theorem State.loadBytes_slen (bytes : List Byte) : (s.loadBytes bytes).slen = BitVec.ofNat 32 bytes.length := rfl
@[simp] theorem State.loadBytes_cfg (bytes : List Byte) : (s.loadBytes bytes).cfg = s.cfg := rfl
@[simp] theorem State.loadBytes_maxres (bytes : List Byte) : (s.loadBytes bytes).maxres = s.maxres := rfl
@[simp] theorem State.loadBytes_maxresWritten (bytes : List Byte) : (s.loadBytes bytes).maxresWritten = s.maxresWritten := rfl
@[simp] theorem State.loadBytes_bgcolor (bytes : List Byte) : (s.loadBytes bytes).bgcolor = s.bgcolor := rfl
@[simp] theorem State.loadBytes_bgcolorWritten (bytes : List Byte) : (s.loadBytes bytes).bgcolorWritten = s.bgcolorWritten := rfl
@[simp] theorem State.loadBytes_bgstp (bytes : List Byte) : (s.loadBytes bytes).bgstp = s.bgstp := rfl
@[simp] theorem State.loadBytes_bgstpWritten (bytes : List Byte) : (s.loadBytes bytes).bgstpWritten = s.bgstpWritten := rfl
@[simp] theorem State.loadBytes_cur (bytes : List Byte) : (s.loadBytes bytes).cur = s.cur := rfl
@[simp] theorem State.loadBytes_curWritten (bytes : List Byte) : (s.loadBytes bytes).curWritten = s.curWritten := rfl
@[simp] theorem State.loadBytes_status (bytes : List Byte) : (s.loadBytes bytes).status = s.status := rfl
@[simp] theorem State.loadBytes_paldim (bytes : List Byte) : (s.loadBytes bytes).paldim = s.paldim := rfl
@[simp] theorem State.loadBytes_pal (bytes : List Byte) : (s.loadBytes bytes).pal = s.pal := rfl
@[simp] theorem State.loadBytes_pagesReady (bytes : List Byte) : (s.loadBytes bytes).pagesReady = s.pagesReady := rfl
@[simp] theorem State.loadBytes_pages (bytes : List Byte) : (s.loadBytes bytes).pages = s.pages := rfl
@[simp] theorem State.loadBytes_uploads (bytes : List Byte) : (s.loadBytes bytes).uploads = s.uploads := rfl
@[simp] theorem State.loadBytes_draws (bytes : List Byte) : (s.loadBytes bytes).draws = s.draws := rfl
@[simp] theorem State.loadBytes_page (bytes : List Byte) (q : Fin 32) : (s.loadBytes bytes).page q = s.page q := rfl
@[simp] theorem State.loadBytes_tolerant (bytes : List Byte) : (s.loadBytes bytes).tolerant = s.tolerant := rfl
@[simp] theorem State.loadBytes_ignoreVersion (bytes : List Byte) : (s.loadBytes bytes).ignoreVersion = s.ignoreVersion := rfl
@[simp] theorem State.loadBytes_firstRowOnly (bytes : List Byte) : (s.loadBytes bytes).firstRowOnly = s.firstRowOnly := rfl

/-! ### State.setReg -/

@[simp] theorem State.setReg_page (r : Nat) (v : U64) (q : Fin 32) : (s.setReg r v).page q = s.page q := by
  unfold State.setReg; split <;> rfl

@[simp] theorem State.setReg_params (r : Nat) (v : U64) : (s.setReg r v).params = s.params := by
  unfold State.setReg; split <;> rfl
@[simp] theorem State.setReg_inbox (r : Nat) (v : U64) : (s.setReg r v).inbox = s.inbox := by
  unfold State.setReg; split <;> rfl
@[simp] theorem State.setReg_response (r : Nat) (v : U64) : (s.setReg r v).response = s.response := by
  unfold State.setReg; split <;> rfl
@[simp] theorem State.setReg_stream (r : Nat) (v : U64) : (s.setReg r v).stream = s.stream := by
  unfold State.setReg; split <;> rfl
@[simp] theorem State.setReg_slen (r : Nat) (v : U64) : (s.setReg r v).slen = s.slen := by
  unfold State.setReg; split <;> rfl
@[simp] theorem State.setReg_status (r : Nat) (v : U64) : (s.setReg r v).status = s.status := by
  unfold State.setReg; split <;> rfl
@[simp] theorem State.setReg_paldim (r : Nat) (v : U64) : (s.setReg r v).paldim = s.paldim := by
  unfold State.setReg; split <;> rfl
@[simp] theorem State.setReg_pal (r : Nat) (v : U64) : (s.setReg r v).pal = s.pal := by
  unfold State.setReg; split <;> rfl
@[simp] theorem State.setReg_pagesReady (r : Nat) (v : U64) : (s.setReg r v).pagesReady = s.pagesReady := by
  unfold State.setReg; split <;> rfl
@[simp] theorem State.setReg_pages (r : Nat) (v : U64) : (s.setReg r v).pages = s.pages := by
  unfold State.setReg; split <;> rfl
@[simp] theorem State.setReg_uploads (r : Nat) (v : U64) : (s.setReg r v).uploads = s.uploads := by
  unfold State.setReg; split <;> rfl
@[simp] theorem State.setReg_draws (r : Nat) (v : U64) : (s.setReg r v).draws = s.draws := by
  unfold State.setReg; split <;> rfl

/-! ### Pages -/

@[simp] theorem State.page_setPage_self (p : Fin 32) (pg : Page) : (s.setPage p pg).page p = pg := by
  simp [State.page, State.setPage]

theorem State.page_setPage_ne (p q : Fin 32) (pg : Page) (h : p ≠ q) :
    (s.setPage p pg).page q = s.page q := by
  have h' : (p : Nat) ≠ q := fun e => h (Fin.ext e)
  simp [State.page, State.setPage, h']

theorem State.page_setPage (p q : Fin 32) (pg : Page) :
    (s.setPage p pg).page q = if p = q then pg else s.page q := by
  split
  · next h => subst h; exact s.page_setPage_self p pg
  · next h => exact s.page_setPage_ne p q pg h

/-- Two page arrays with the same pages are the same array. -/
theorem pages_ext {v w : Vector Page 32} (h : ∀ p : Fin 32, v[p] = w[p]) : v = w := by
  apply Vector.ext
  intro i hi
  exact h ⟨i, hi⟩

/-! ### whenSetUp -/

theorem State.whenSetUp_ready (b : State) (h : s.pagesReady = true) : s.whenSetUp b = b := by
  simp [State.whenSetUp, h]

theorem State.whenSetUp_not (b : State) (h : s.pagesReady = false) :
    s.whenSetUp b = s.illegal .notSetup := by
  simp [State.whenSetUp, h]

end Sys2Proof.Machine
end

