-- ==== Sys2Proof/Laws/Pages.lean ====
section
/-! SUPPORT. What each page operation makes of the page array: clearing, drawing, uploading. -/

namespace Sys2Proof.Machine

/-! ### Cell numbers -/

theorem cellNo_inj {x y x' y' : Nat} (h : x < 256) (h' : x' < 256) (e : cellNo x y = cellNo x' y') :
    x = x' ∧ y = y' := by
  unfold cellNo at e
  omega

theorem cellNo_lt {x y : Nat} (h : x < 256) (h' : y < 256) : cellNo x y < 65536 := by
  unfold cellNo
  omega

/-! ### Clearing -/

/-- Every cell of a cleared page is the background (rule R247). -/
theorem colorCell_clearedPage (bg : U32) (stp : Byte) {x y : Nat} (hx : x < 256) (hy : y < 256) :
    colorCell (clearedPage bg stp) x y = colorOfArgb32 bg := by
  have := cellNo_lt hx hy
  simp only [colorCell, clearedPage, cellsRead_cellsFill]
  rw [if_pos ⟨Nat.zero_le _, this⟩]

theorem stpCell_clearedPage (bg : U32) (stp : Byte) {x y : Nat} (hx : x < 256) (hy : y < 256) :
    stpCell (clearedPage bg stp) x y = stp := by
  have := cellNo_lt hx hy
  simp only [stpCell, clearedPage, cellsRead_cellsFill]
  rw [if_pos ⟨Nat.zero_le _, this⟩]

@[simp] theorem clearedPage_used (bg : U32) (stp : Byte) : (clearedPage bg stp).used = false := rfl
@[simp] theorem clearedPage_modified (bg : U32) (stp : Byte) : (clearedPage bg stp).modified = true := rfl

theorem pageCanonical_clearedPage (bg : U32) (stp : Byte) : pageCanonical (clearedPage bg stp) = true := by
  simp only [pageCanonical, clearedPage, Bool.and_eq_true]
  constructor
  · exact cellsWf_cellsFill _ _ _ 0 0 _ _ [] (Nat.le_refl _) (Nat.le_refl _) (by simp [cellsWf])
  · exact cellsWf_cellsFill _ _ _ 0 0 _ _ [] (Nat.le_refl _) (Nat.le_refl _) (by simp [cellsWf])

/-- Clearing the pages of a list sets those pages and changes nothing else. -/
theorem foldl_clearPage (l : List (Fin 32)) (s : State) :
    ∃ v : Vector Page 32, l.foldl clearPage s = { s with pages := v } ∧
      ∀ p : Fin 32, v[p] = if p ∈ l then clearedPage s.bgcolor s.bgstp else s.pages[p] := by
  induction l generalizing s with
  | nil => exact ⟨s.pages, rfl, fun p => by simp⟩
  | cons q l ih =>
    obtain ⟨v, hv, hp⟩ := ih (clearPage s q)
    refine ⟨v, by rw [List.foldl_cons, hv]; rfl, fun p => ?_⟩
    rw [hp p]
    have hb : (clearPage s q).bgcolor = s.bgcolor ∧ (clearPage s q).bgstp = s.bgstp := ⟨rfl, rfl⟩
    rw [hb.1, hb.2]
    have hq : (clearPage s q).pages[p] = if q = p then clearedPage s.bgcolor s.bgstp else s.pages[p] :=
      s.page_setPage q p (clearedPage s.bgcolor s.bgstp)
    by_cases h1 : p ∈ l
    · simp [h1]
    · rw [if_neg h1, hq]
      by_cases h2 : q = p
      · simp [h2]
      · simp [h1, h2, Ne.symm h2]

theorem mem_allPages (p : Fin 32) : p ∈ allPages := List.mem_finRange p

/-- Clearing every page (rules R230, R238): each page is the cleared page, and nothing else changes. -/
theorem clearPages_eq (s : State) :
    clearPages s = { s with pages := Vector.replicate 32 (clearedPage s.bgcolor s.bgstp) } := by
  obtain ⟨v, hv, hp⟩ := foldl_clearPage allPages s
  have e : v = Vector.replicate 32 (clearedPage s.bgcolor s.bgstp) := by
    apply pages_ext
    intro p
    rw [hp p, if_pos (mem_allPages p)]
    simp
  rw [clearPages, hv, e]

@[simp] theorem clearPages_page (s : State) (p : Fin 32) :
    (clearPages s).page p = clearedPage s.bgcolor s.bgstp := by
  rw [clearPages_eq]
  simp [State.page]

/-! ### Drawing -/

/-- The colour a covered cell takes: a pixel of alpha 255 replaces it, any other leaves it (rule R233). -/
def drawnColor (old : Color) : Option Color → Color
  | some c => if c.a = 255 then c else old
  | none => old

/-- The side-band value a covered cell takes (rule R234). -/
def drawnStp (mode : MaskWriteMode) (old : Byte) : Option Color → Option Byte → Byte
  | some c, some m => if mode = .copy ∨ c.a = 255 then m else old
  | _, _ => old

theorem colorCell_drawPixel (mode : MaskWriteMode) (px py x y : Nat) (c : Color) (m : Byte) (pg : Page)
    (hx : x < 256) (hy : y < 256) :
    colorCell (drawPixel mode px py c m pg) x y =
      if px = x ∧ py = y then drawnColor (colorCell pg x y) (some c) else colorCell pg x y := by
  unfold drawPixel
  by_cases hin : px < 256 ∧ py < 256
  · rw [if_pos hin]
    simp only [colorCell, drawnColor]
    by_cases ha : c.a = 255
    · simp only [ha, if_true, cellsRead_cellsWrite]
      by_cases he : cellNo x y = cellNo px py
      · have := cellNo_inj hx hin.1 he
        rw [if_pos he, if_pos ⟨this.1.symm, this.2.symm⟩]
      · rw [if_neg he, if_neg (by rintro ⟨rfl, rfl⟩; exact he rfl)]
    · simp only [ha, if_false, ite_self]
  · rw [if_neg hin, if_neg (by rintro ⟨rfl, rfl⟩; exact hin ⟨hx, hy⟩)]

theorem stpCell_drawPixel (mode : MaskWriteMode) (px py x y : Nat) (c : Color) (m : Byte) (pg : Page)
    (hx : x < 256) (hy : y < 256) :
    stpCell (drawPixel mode px py c m pg) x y =
      if px = x ∧ py = y then drawnStp mode (stpCell pg x y) (some c) (some m) else stpCell pg x y := by
  unfold drawPixel
  by_cases hin : px < 256 ∧ py < 256
  · rw [if_pos hin]
    simp only [stpCell, drawnStp]
    by_cases ha : mode = .copy ∨ c.a = 255
    · simp only [ha, if_true, cellsRead_cellsWrite]
      by_cases he : cellNo x y = cellNo px py
      · have := cellNo_inj hx hin.1 he
        rw [if_pos he, if_pos ⟨this.1.symm, this.2.symm⟩]
      · rw [if_neg he, if_neg (by rintro ⟨rfl, rfl⟩; exact he rfl)]
    · simp only [ha, if_false, ite_self]
  · rw [if_neg hin, if_neg (by rintro ⟨rfl, rfl⟩; exact hin ⟨hx, hy⟩)]

/-- Drawing changes no flag of the page. -/
theorem drawPixel_flags (mode : MaskWriteMode) (px py : Nat) (c : Color) (m : Byte) (pg : Page) :
    (drawPixel mode px py c m pg).used = pg.used ∧
      (drawPixel mode px py c m pg).modified = pg.modified := by
  unfold drawPixel
  split <;> exact ⟨rfl, rfl⟩

theorem pageCanonical_drawPixel (mode : MaskWriteMode) (px py : Nat) (c : Color) (m : Byte) (pg : Page)
    (h : pageCanonical pg = true) : pageCanonical (drawPixel mode px py c m pg) = true := by
  unfold drawPixel
  split
  · next hin =>
    simp only [pageCanonical, Bool.and_eq_true] at h ⊢
    have hlt := cellNo_lt hin.1 hin.2
    constructor
    · split
      · exact cellsWf_cellsWrite _ _ _ 0 _ _ _ (Nat.zero_le _) hlt h.1
      · exact h.1
    · split
      · exact cellsWf_cellsWrite _ _ _ 0 _ _ _ (Nat.zero_le _) hlt h.2
      · exact h.2
  · exact h

/-- What a drawn row makes of a colour cell: its pixel there, if the row has one. -/
theorem colorCell_drawRow (mode : MaskWriteMode) (cs : List Color) (ms : List Byte) (px py x y : Nat)
    (pg : Page) (hl : cs.length = ms.length) (hx : x < 256) (hy : y < 256) :
    colorCell (drawRow mode px py cs ms pg) x y =
      if py = y ∧ px ≤ x then drawnColor (colorCell pg x y) cs[x - px]? else colorCell pg x y := by
  induction cs generalizing ms px pg with
  | nil => cases ms <;> simp [drawRow, drawnColor]
  | cons c cs ih =>
    cases ms with
    | nil => simp at hl
    | cons m ms =>
      simp only [drawRow]
      rw [ih ms (px + 1) _ (by simpa using hl), colorCell_drawPixel mode px py x y c m pg hx hy]
      by_cases hpy : py = y
      · rcases Nat.lt_trichotomy px x with h | h | h
        · have e : x - px = (x - (px + 1)) + 1 := by omega
          rw [if_pos ⟨hpy, h⟩, if_neg (by omega), if_pos ⟨hpy, by omega⟩, e, List.getElem?_cons_succ]
        · subst h
          rw [if_neg (by omega), if_pos ⟨rfl, hpy⟩, if_pos ⟨hpy, Nat.le_refl _⟩, Nat.sub_self,
            List.getElem?_cons_zero]
        · rw [if_neg (by omega), if_neg (by omega), if_neg (by omega)]
      · rw [if_neg (by tauto), if_neg (by tauto), if_neg (by tauto)]

theorem stpCell_drawRow (mode : MaskWriteMode) (cs : List Color) (ms : List Byte) (px py x y : Nat)
    (pg : Page) (hl : cs.length = ms.length) (hx : x < 256) (hy : y < 256) :
    stpCell (drawRow mode px py cs ms pg) x y =
      if py = y ∧ px ≤ x then drawnStp mode (stpCell pg x y) cs[x - px]? ms[x - px]?
      else stpCell pg x y := by
  induction cs generalizing ms px pg with
  | nil => cases ms <;> simp [drawRow, drawnStp]
  | cons c cs ih =>
    cases ms with
    | nil => simp at hl
    | cons m ms =>
      simp only [drawRow]
      rw [ih ms (px + 1) _ (by simpa using hl), stpCell_drawPixel mode px py x y c m pg hx hy]
      by_cases hpy : py = y
      · rcases Nat.lt_trichotomy px x with h | h | h
        · have e : x - px = (x - (px + 1)) + 1 := by omega
          rw [if_pos ⟨hpy, h⟩, if_neg (by omega), if_pos ⟨hpy, by omega⟩, e, List.getElem?_cons_succ,
            List.getElem?_cons_succ]
        · subst h
          rw [if_neg (by omega), if_pos ⟨rfl, hpy⟩, if_pos ⟨hpy, Nat.le_refl _⟩, Nat.sub_self,
            List.getElem?_cons_zero, List.getElem?_cons_zero]
        · rw [if_neg (by omega), if_neg (by omega), if_neg (by omega)]
      · rw [if_neg (by tauto), if_neg (by tauto), if_neg (by tauto)]

theorem drawRow_flags (mode : MaskWriteMode) (cs : List Color) (ms : List Byte) (px py : Nat) (pg : Page) :
    (drawRow mode px py cs ms pg).used = pg.used ∧
      (drawRow mode px py cs ms pg).modified = pg.modified := by
  induction cs generalizing ms px pg with
  | nil => cases ms <;> exact ⟨rfl, rfl⟩
  | cons c cs ih =>
    cases ms with
    | nil => exact ⟨rfl, rfl⟩
    | cons m ms =>
      have h1 := ih ms (px + 1) (drawPixel mode px py c m pg)
      have h2 := drawPixel_flags mode px py c m pg
      exact ⟨h1.1.trans h2.1, h1.2.trans h2.2⟩

theorem pageCanonical_drawRow (mode : MaskWriteMode) (cs : List Color) (ms : List Byte) (px py : Nat)
    (pg : Page) (h : pageCanonical pg = true) : pageCanonical (drawRow mode px py cs ms pg) = true := by
  induction cs generalizing ms px pg with
  | nil => cases ms <;> exact h
  | cons c cs ih =>
    cases ms with
    | nil => exact h
    | cons m ms => exact ih ms (px + 1) _ (pageCanonical_drawPixel mode px py c m pg h)

/-- Two arrays of rows have the same shape. -/
def sameShape {α β : Type} (rs : List (List α)) (ms : List (List β)) : Prop :=
  rs.map List.length = ms.map List.length

/-- What drawn rows make of a colour cell: the array's pixel there, if it has one (rules R233, R235). -/
theorem colorCell_drawRows (mode : MaskWriteMode) (rs : List (List Color)) (ms : List (List Byte))
    (px py x y : Nat) (pg : Page) (hl : sameShape rs ms) (hx : x < 256) (hy : y < 256) :
    colorCell (drawRows mode px py rs ms pg) x y =
      if py ≤ y ∧ px ≤ x then drawnColor (colorCell pg x y) (cellAt rs (y - py) (x - px))
      else colorCell pg x y := by
  induction rs generalizing ms py pg with
  | nil => cases ms <;> simp [drawRows, drawnColor, cellAt]
  | cons r rs ih =>
    cases ms with
    | nil => simp [sameShape] at hl
    | cons m ms =>
      simp only [sameShape, List.map_cons, List.cons.injEq] at hl
      simp only [drawRows]
      rw [ih ms (py + 1) _ hl.2, colorCell_drawRow mode r m px py x y pg hl.1 hx hy]
      rcases Nat.lt_trichotomy py y with h | h | h
      · have e : y - py = (y - (py + 1)) + 1 := by omega
        have ec : cellAt (r :: rs) (y - py) (x - px) = cellAt rs (y - (py + 1)) (x - px) := by
          unfold cellAt; rw [e, List.getElem?_cons_succ]
        rw [if_neg (show ¬(py = y ∧ px ≤ x) by omega), ec]
        by_cases hp : px ≤ x
        · rw [if_pos ⟨h, hp⟩, if_pos ⟨Nat.le_of_lt h, hp⟩]
        · rw [if_neg (by tauto), if_neg (by tauto)]
      · subst h
        have ec : cellAt (r :: rs) (py - py) (x - px) = r[x - px]? := by
          unfold cellAt; rw [Nat.sub_self, List.getElem?_cons_zero]
        rw [if_neg (show ¬(py + 1 ≤ py ∧ px ≤ x) by omega), ec]
        by_cases hp : px ≤ x
        · rw [if_pos ⟨rfl, hp⟩, if_pos ⟨Nat.le_refl _, hp⟩]
        · rw [if_neg (by tauto), if_neg (by tauto)]
      · rw [if_neg (by omega), if_neg (by omega), if_neg (by omega)]

theorem stpCell_drawRows (mode : MaskWriteMode) (rs : List (List Color)) (ms : List (List Byte))
    (px py x y : Nat) (pg : Page) (hl : sameShape rs ms) (hx : x < 256) (hy : y < 256) :
    stpCell (drawRows mode px py rs ms pg) x y =
      if py ≤ y ∧ px ≤ x then
        drawnStp mode (stpCell pg x y) (cellAt rs (y - py) (x - px)) (cellAt ms (y - py) (x - px))
      else stpCell pg x y := by
  induction rs generalizing ms py pg with
  | nil => cases ms <;> simp [drawRows, drawnStp, cellAt]
  | cons r rs ih =>
    cases ms with
    | nil => simp [sameShape] at hl
    | cons m ms =>
      simp only [sameShape, List.map_cons, List.cons.injEq] at hl
      simp only [drawRows]
      rw [ih ms (py + 1) _ hl.2, stpCell_drawRow mode r m px py x y pg hl.1 hx hy]
      rcases Nat.lt_trichotomy py y with h | h | h
      · have e : y - py = (y - (py + 1)) + 1 := by omega
        have ec : cellAt (r :: rs) (y - py) (x - px) = cellAt rs (y - (py + 1)) (x - px) := by
          unfold cellAt; rw [e, List.getElem?_cons_succ]
        have em : cellAt (m :: ms) (y - py) (x - px) = cellAt ms (y - (py + 1)) (x - px) := by
          unfold cellAt; rw [e, List.getElem?_cons_succ]
        rw [if_neg (show ¬(py = y ∧ px ≤ x) by omega), ec, em]
        by_cases hp : px ≤ x
        · rw [if_pos ⟨h, hp⟩, if_pos ⟨Nat.le_of_lt h, hp⟩]
        · rw [if_neg (by tauto), if_neg (by tauto)]
      · subst h
        have ec : cellAt (r :: rs) (py - py) (x - px) = r[x - px]? := by
          unfold cellAt; rw [Nat.sub_self, List.getElem?_cons_zero]
        have em : cellAt (m :: ms) (py - py) (x - px) = m[x - px]? := by
          unfold cellAt; rw [Nat.sub_self, List.getElem?_cons_zero]
        rw [if_neg (show ¬(py + 1 ≤ py ∧ px ≤ x) by omega), ec, em]
        by_cases hp : px ≤ x
        · rw [if_pos ⟨rfl, hp⟩, if_pos ⟨Nat.le_refl _, hp⟩]
        · rw [if_neg (by tauto), if_neg (by tauto)]
      · rw [if_neg (by omega), if_neg (by omega), if_neg (by omega)]

theorem drawRows_flags (mode : MaskWriteMode) (rs : List (List Color)) (ms : List (List Byte))
    (px py : Nat) (pg : Page) :
    (drawRows mode px py rs ms pg).used = pg.used ∧
      (drawRows mode px py rs ms pg).modified = pg.modified := by
  induction rs generalizing ms py pg with
  | nil => cases ms <;> exact ⟨rfl, rfl⟩
  | cons r rs ih =>
    cases ms with
    | nil => exact ⟨rfl, rfl⟩
    | cons m ms =>
      have h1 := ih ms (py + 1) (drawRow mode px py r m pg)
      have h2 := drawRow_flags mode r m px py pg
      exact ⟨h1.1.trans h2.1, h1.2.trans h2.2⟩

theorem pageCanonical_drawRows (mode : MaskWriteMode) (rs : List (List Color)) (ms : List (List Byte))
    (px py : Nat) (pg : Page) (h : pageCanonical pg = true) :
    pageCanonical (drawRows mode px py rs ms pg) = true := by
  induction rs generalizing ms py pg with
  | nil => cases ms <;> exact h
  | cons r rs ih =>
    cases ms with
    | nil => exact h
    | cons m ms => exact ih ms (py + 1) _ (pageCanonical_drawRow mode r m px py pg h)

/-- The marks of a draw change no cell. -/
theorem markDraw_cells (marks : DeferredDrawMarks) (suppress : Bool) (pg : Page) :
    (markDraw marks suppress pg).color = pg.color ∧ (markDraw marks suppress pg).stp = pg.stp := by
  unfold markDraw
  split
  · split <;> exact ⟨rfl, rfl⟩
  · exact ⟨rfl, rfl⟩

theorem pageCanonical_drawTexture (par : Params) (suppress : Bool) (t : Texture) (pg : Page)
    (h : pageCanonical pg = true) : pageCanonical (drawTexture par suppress t pg) = true := by
  have hc := markDraw_cells par.deferredDrawMarks suppress
    (drawRows par.maskWriteMode t.x t.y t.color (drawMask par.opaqueStp t) pg)
  have := pageCanonical_drawRows par.maskWriteMode t.color (drawMask par.opaqueStp t) t.x t.y pg h
  simpa only [drawTexture, pageCanonical, hc.1, hc.2] using this

/-! ### Uploading -/

/-- What UPDATE_PAGE can do: upload the page and mark it clean, or nothing (rule R239). -/
theorem updatePage_cases (force : Bool) (s : State) (p : Fin 32) :
    ((force = true ∨ (s.page p).modified = true) ∧
      updatePage force s p = ((s.upload p).setPage p { s.page p with modified := false }, true)) ∨
    (force = false ∧ (s.page p).modified = false ∧ updatePage force s p = (s, false)) := by
  unfold updatePage
  by_cases h : force = true ∨ (s.page p).modified = true
  · exact .inl ⟨h, by rw [if_pos (by simpa using h)]⟩
  · refine .inr ⟨?_, ?_, by rw [if_neg (by simpa using h)]⟩
    · simpa using fun e => h (.inl e)
    · simpa using fun e => h (.inr e)

/-- The pages of a list that UPDATE_PAGE would upload. -/
def uploadable (force : Bool) (s : State) (l : List (Fin 32)) : List (Fin 32) :=
  l.filter fun p => force || (s.page p).modified

/-- The page after UPDATE_PAGE of it: clean if it was uploaded. -/
def cleaned (force : Bool) (pg : Page) : Page :=
  if force || pg.modified then { pg with modified := false } else pg

/-- Updating the pages of a list without repeats: their events in list order, each page cleaned, the count
of the events, and nothing else changes (rules R239, R240). -/
theorem updatePages_eq (force : Bool) (l : List (Fin 32)) (hl : l.Nodup) (s : State) :
    ∃ v : Vector Page 32,
      updatePages force l s =
        ({ s with pages := v, uploads := s.uploads ++ (uploadable force s l).map s.snapshot },
          (uploadable force s l).length) ∧
      ∀ p : Fin 32, v[p] = if p ∈ l then cleaned force (s.page p) else s.page p := by
  induction l generalizing s with
  | nil => exact ⟨s.pages, by simp [updatePages, uploadable], fun p => by simp [State.page]⟩
  | cons q l ih =>
    rw [List.nodup_cons] at hl
    simp only [updatePages]
    rcases updatePage_cases force s q with ⟨hsel, hu⟩ | ⟨hf, hm, hu⟩
    · rw [hu]
      set s' := (s.upload q).setPage q { s.page q with modified := false } with hs'
      obtain ⟨v, hv, hp⟩ := ih hl.2 s'
      have hpage : ∀ p ∈ l, s'.page p = s.page p := by
        intro p hpl
        rw [hs', State.page_setPage_ne _ _ _ _ (by rintro rfl; exact hl.1 hpl), State.upload_page]
      have hfil : uploadable force s' l = uploadable force s l := by
        unfold uploadable
        apply List.filter_congr
        intro p hpl
        rw [hpage p hpl]
      have hmap : (uploadable force s l).map s'.snapshot = (uploadable force s l).map s.snapshot := by
        apply List.map_congr_left
        intro p hpl
        have : p ∈ l := (List.mem_filter.mp hpl).1
        simp only [State.snapshot, hpage p this]
      have hcons : uploadable force s (q :: l) = q :: uploadable force s l := by
        unfold uploadable
        rw [List.filter_cons, if_pos (by simpa using hsel)]
      refine ⟨v, ?_, fun p => ?_⟩
      · rw [hv, hfil, hmap, hcons]
        refine Prod.ext ?_ ?_
        · simp only [hs', State.setPage_uploads, State.upload_uploads, List.map_cons, List.append_assoc]
          rfl
        · simp only [List.length_cons, if_true]; omega
      · rw [hp p]
        by_cases hpq : p = q
        · subst hpq
          rw [if_neg hl.1, if_pos List.mem_cons_self, hs', State.page_setPage_self]
          simp [cleaned, hsel]
        · by_cases hpl : p ∈ l
          · rw [if_pos hpl, if_pos (List.mem_cons_of_mem _ hpl), hpage p hpl]
          · rw [if_neg hpl, if_neg (by simp [hpq, hpl]), hs',
              State.page_setPage_ne _ _ _ _ (Ne.symm hpq), State.upload_page]
    · rw [hu]
      obtain ⟨v, hv, hp⟩ := ih hl.2 s
      have hcons : uploadable force s (q :: l) = uploadable force s l := by
        unfold uploadable
        rw [List.filter_cons, if_neg (by simp [hf, hm])]
      refine ⟨v, ?_, fun p => ?_⟩
      · rw [hv, hcons]; simp
      · rw [hp p]
        by_cases hpq : p = q
        · subst hpq
          rw [if_neg hl.1, if_pos List.mem_cons_self]
          simp [cleaned, hf, hm]
        · by_cases hpl : p ∈ l
          · rw [if_pos hpl, if_pos (List.mem_cons_of_mem _ hpl)]
          · rw [if_neg hpl, if_neg (by simp [hpq, hpl])]

theorem nodup_allPages : allPages.Nodup := List.nodup_finRange 32

end Sys2Proof.Machine
end

