-- ==== Sys2Proof/Laws/PerInstr.lean ====
section
/-! SUPPORT. The family TableRow: the words of every instruction lie in its row of the opcode table. -/

namespace Sys2Proof.Laws.TableRow

/-- A row of spec/opcode_table.json: the bits it fixes and their values. -/
structure Row where
  mask  : U32
  value : U32
deriving DecidableEq, Repr

/-- The row of each instruction, as the table has it. -/
def row : Instr → Row
  | .setup => ⟨0xFFFFFFFF, 0x00000001⟩
  | .decodeTim => ⟨0xFFFFFFFF, 0x00000002⟩
  | .readPalette _ _ _ _ => ⟨0xFFFF3EFF, 0x00000003⟩
  | .getModeFromClut _ => ⟨0xFFFFFFFF, 0x00000004⟩
  | .draw _ _ => ⟨0xFFFFFEFF, 0x00000010⟩
  | .clear _ => ⟨0xFFFFC1FF, 0x00000011⟩
  | .clearAll => ⟨0xFFFFFFFF, 0x00000012⟩
  | .updatePage _ _ => ⟨0xFFFFC0FF, 0x00000013⟩
  | .updateAllPages _ => ⟨0xFFFFFEFF, 0x00000014⟩
  | .isUsed _ => ⟨0xFFFFC1FF, 0x00000015⟩
  | .containsPage _ => ⟨0xFFFFFFFF, 0x00000016⟩
  | .clampPage _ => ⟨0xFFFFFFFF, 0x00000017⟩
  | .clampCoord _ => ⟨0xFFFFFFFF, 0x00000018⟩
  | .exportPageColor _ => ⟨0xFFFFC1FF, 0x00000020⟩
  | .exportPageStp _ => ⟨0xFFFFC1FF, 0x00000021⟩
  | .exportTextureGrid _ _ => ⟨0xFFFFFFFF, 0x00000022⟩
  | .exportPageTiled _ _ _ _ _ _ _ _ => ⟨0xFFFFC1FF, 0x00000023⟩
  | .readReg _ => ⟨0xFFFFC1FF, 0x00000030⟩
  | .writeReg _ _ => ⟨0xFFFFC1FF, 0x00000031⟩
  | .timIndexed4 _ => ⟨0x0000000F, 0x00000000⟩
  | .timIndexed8 _ => ⟨0x0000000F, 0x00000001⟩
  | .timDirect16 _ => ⟨0x0000000F, 0x00000002⟩
  | .timDirect24 _ => ⟨0x0000000F, 0x00000003⟩
  | .timMixed _ => ⟨0x0000000F, 0x00000004⟩
  | .timInvalid5 _ => ⟨0x0000000F, 0x00000005⟩
  | .timInvalid6 _ => ⟨0x0000000F, 0x00000006⟩
  | .timInvalid7 _ => ⟨0x0000000F, 0x00000007⟩
  | .timIndexed4Pal _ => ⟨0x0000000F, 0x00000008⟩
  | .timIndexed8Pal _ => ⟨0x0000000F, 0x00000009⟩
  | .timDirect16Pal _ => ⟨0x0000000F, 0x0000000A⟩
  | .timDirect24Pal _ => ⟨0x0000000F, 0x0000000B⟩
  | .timMixedPal _ => ⟨0x0000000F, 0x0000000C⟩
  | .timInvalid5Pal _ => ⟨0x0000000F, 0x0000000D⟩
  | .timInvalid6Pal _ => ⟨0x0000000F, 0x0000000E⟩
  | .timInvalid7Pal _ => ⟨0x0000000F, 0x0000000F⟩

/-- The first word of an encoding. -/
def firstWord : Encoded → U32
  | .command t => t.cmd
  | .timFlags w => w

/-- The word of a well-formed instruction has the bits of its row. -/
def Statement (i : Instr) : Prop := i.wf = true → firstWord (encode i) &&& (row i).mask = (row i).value

/-- A flags word in the row of its low four bits. -/
theorem flags_row (hi : BitVec 28) (code : BitVec 4) : (hi ++ code) &&& 0xF#32 = code.setWidth 32 := by
  have hc := code.isLt
  apply BitVec.eq_of_toNat_eq
  rw [BitVec.toNat_and, append_toNat]
  simp only [BitVec.toNat_setWidth, BitVec.toNat_ofNat]
  have e : 15 % 2 ^ 32 = 2 ^ 4 - 1 := by norm_num
  rw [e, Nat.and_two_pow_sub_one_eq_mod]
  omega

/-- A command word that uses no field. -/
theorem row_none : ∀ opc ∈ [0x01#8, 0x02#8, 0x04#8, 0x12#8, 0x16#8, 0x17#8, 0x18#8, 0x22#8],
    cmdWord opc 0 0 0 &&& 0xFFFFFFFF#32 = opc.setWidth 32 := by decide

/-- A command word that uses F and M. -/
theorem row_fm : ∀ (f : Bool) (m : BitVec 2),
    cmdWord 0x03 (flagBit f) 0 m &&& 0xFFFF3EFF#32 = 0x03#32 := by decide

/-- A command word that uses F only. -/
theorem row_f : ∀ f : Bool, (cmdWord 0x10 (flagBit f) 0 0 &&& 0xFFFFFEFF#32 = 0x10#32) ∧
    (cmdWord 0x14 (flagBit f) 0 0 &&& 0xFFFFFEFF#32 = 0x14#32) := by decide

/-- A command word that uses P only. -/
theorem row_p : ∀ p : BitVec 5, ∀ opc ∈ [0x11#8, 0x15#8, 0x20#8, 0x21#8, 0x23#8, 0x30#8, 0x31#8],
    cmdWord opc 0 p 0 &&& 0xFFFFC1FF#32 = opc.setWidth 32 := by decide

/-- A command word that uses F and P. -/
theorem row_fp : ∀ (f : Bool) (p : BitVec 5),
    cmdWord 0x13 (flagBit f) p 0 &&& 0xFFFFC0FF#32 = 0x13#32 := by decide

theorem setup : Statement .setup := fun _ => row_none 0x01 (by decide)
theorem decodeTim : Statement .decodeTim := fun _ => row_none 0x02 (by decide)
theorem readPalette (m : BitVec 2) (first : Bool) (clutWidth clutHeight : U64) :
    Statement (.readPalette m first clutWidth clutHeight) := fun _ => row_fm first m
theorem getModeFromClut (width : U64) :
    Statement (.getModeFromClut width) := fun _ => row_none 0x04 (by decide)
theorem draw (suppress : Bool) (tex : Texture) :
    Statement (.draw suppress tex) := fun _ => (row_f suppress).1
theorem clear (p : BitVec 5) : Statement (.clear p) := fun _ => row_p p 0x11 (by decide)
theorem clearAll : Statement .clearAll := fun _ => row_none 0x12 (by decide)
theorem updatePage (p : BitVec 5) (force : Bool) :
    Statement (.updatePage p force) := fun _ => row_fp force p
theorem updateAllPages (force : Bool) : Statement (.updateAllPages force) := fun _ => (row_f force).2
theorem isUsed (p : BitVec 5) : Statement (.isUsed p) := fun _ => row_p p 0x15 (by decide)
theorem containsPage (v : U64) : Statement (.containsPage v) := fun _ => row_none 0x16 (by decide)
theorem clampPage (v : U64) : Statement (.clampPage v) := fun _ => row_none 0x17 (by decide)
theorem clampCoord (v : U64) : Statement (.clampCoord v) := fun _ => row_none 0x18 (by decide)
theorem exportPageColor (p : BitVec 5) :
    Statement (.exportPageColor p) := fun _ => row_p p 0x20 (by decide)
theorem exportPageStp (p : BitVec 5) : Statement (.exportPageStp p) := fun _ => row_p p 0x21 (by decide)
theorem exportTextureGrid (cols : U64) (texs : List Texture) :
    Statement (.exportTextureGrid cols texs) := fun _ => row_none 0x22 (by decide)
theorem exportPageTiled (p : BitVec 5) (rx ry rw rh nx ny : U16) (hi : U32) :
    Statement (.exportPageTiled p rx ry rw rh nx ny hi) := fun _ => row_p p 0x23 (by decide)
theorem readReg (r : BitVec 5) : Statement (.readReg r) := fun _ => row_p r 0x30 (by decide)
theorem writeReg (r : BitVec 5) (v : U64) :
    Statement (.writeReg r v) := fun _ => row_p r 0x31 (by decide)
theorem timIndexed4 (hi : BitVec 28) : Statement (.timIndexed4 hi) := fun _ => flags_row hi _
theorem timIndexed8 (hi : BitVec 28) : Statement (.timIndexed8 hi) := fun _ => flags_row hi _
theorem timDirect16 (hi : BitVec 28) : Statement (.timDirect16 hi) := fun _ => flags_row hi _
theorem timDirect24 (hi : BitVec 28) : Statement (.timDirect24 hi) := fun _ => flags_row hi _
theorem timMixed (hi : BitVec 28) : Statement (.timMixed hi) := fun _ => flags_row hi _
theorem timInvalid5 (hi : BitVec 28) : Statement (.timInvalid5 hi) := fun _ => flags_row hi _
theorem timInvalid6 (hi : BitVec 28) : Statement (.timInvalid6 hi) := fun _ => flags_row hi _
theorem timInvalid7 (hi : BitVec 28) : Statement (.timInvalid7 hi) := fun _ => flags_row hi _
theorem timIndexed4Pal (hi : BitVec 28) : Statement (.timIndexed4Pal hi) := fun _ => flags_row hi _
theorem timIndexed8Pal (hi : BitVec 28) : Statement (.timIndexed8Pal hi) := fun _ => flags_row hi _
theorem timDirect16Pal (hi : BitVec 28) : Statement (.timDirect16Pal hi) := fun _ => flags_row hi _
theorem timDirect24Pal (hi : BitVec 28) : Statement (.timDirect24Pal hi) := fun _ => flags_row hi _
theorem timMixedPal (hi : BitVec 28) : Statement (.timMixedPal hi) := fun _ => flags_row hi _
theorem timInvalid5Pal (hi : BitVec 28) : Statement (.timInvalid5Pal hi) := fun _ => flags_row hi _
theorem timInvalid6Pal (hi : BitVec 28) : Statement (.timInvalid6Pal hi) := fun _ => flags_row hi _
theorem timInvalid7Pal (hi : BitVec 28) : Statement (.timInvalid7Pal hi) := fun _ => flags_row hi _

end Sys2Proof.Laws.TableRow
end

