-- ==== Sys2Proof/Laws/Reading.lean ====
section
/-! SUPPORT. What the palette rows and the unpackers give where the stream holds their bytes, and what
the bounded cursor can be. -/

namespace Sys2Proof.Machine

theorem slen_lt (s : State) : s.slen.toNat < 2 ^ 64 := by
  have := s.slen.isLt
  omega

/-! ### The unpackers -/

/-- The bytes the pixels of a row use (rule R107). -/
def usedBytes (fmt : PixelFormat) (w : Nat) : Nat :=
  match fmt with
  | .indexed4 => w / 2 * 1
  | .indexed8 => w * 1
  | .direct16 => w * 2
  | .direct24 => w * 3

/-- The row of pixels at a stream offset. -/
def rowAt (s : State) (fmt : PixelFormat) (w a : Nat) : PixelRow :=
  match fmt with
  | .indexed4 =>
    indexedRow s.params.indexedMaskSource s.pal
      (((List.range (w / 2)).map fun i => memByte s.stream (a + i * 1)).flatMap nibbles)
  | .indexed8 =>
    indexedRow s.params.indexedMaskSource s.pal
      ((List.range w).map fun i => memByte s.stream (a + i * 1))
  | .direct16 =>
    { color := ((List.range w).map fun i => BitVec.ofNat 16 (memRead s.stream (a + i * 2) 2)).map
        fun raw => (expand16 raw).color
      mask := ((List.range w).map fun i => BitVec.ofNat 16 (memRead s.stream (a + i * 2) 2)).map
        fun raw => flagByte (rawStp raw) }
  | .direct24 =>
    { color := (List.range w).map fun i =>
        { a := 255, r := memByte s.stream (a + i * 3), g := memByte s.stream (a + i * 3 + 1),
          b := memByte s.stream (a + i * 3 + 1 + 1) }
      mask := [] }

theorem reads_rd24 {m : Memory} {slen : Nat} (hs : slen < 2 ^ 64) :
    Reads (rd24 m slen) slen 3 fun a =>
      { a := 255, r := memByte m a, g := memByte m (a + 1), b := memByte m (a + 1 + 1) } :=
  reads_readThen (j := 1) (k := 2) hs (reads_rd8 hs) fun _ =>
    reads_readThen (j := 1) (k := 1) hs (reads_rd8 hs) fun _ => reads_readMap _ hs (reads_rd8 hs)

theorem reads_readRow (s : State) (fmt : PixelFormat) (w : Nat) :
    Reads (readRow s fmt w) s.slen.toNat (usedBytes fmt w) (rowAt s fmt w) := by
  have hs := slen_lt s
  cases fmt with
  | indexed4 => exact reads_readMap _ hs (reads_readMany hs (reads_rd8 hs) (w / 2))
  | indexed8 => exact reads_readMap _ hs (reads_readMany hs (reads_rd8 hs) w)
  | direct16 => exact reads_readMap _ hs (reads_readMany hs (reads_rd16 hs) w)
  | direct24 => exact reads_readMap _ hs (reads_readMany hs (reads_rd24 hs) w)

/-- A row whose pixels lie inside the stream; its padding may run past the end (rules R74, R206). -/
theorem unpackRow_inside (s : State) (fmt : PixelFormat) (w rowLen : Nat) (hr : usedBytes fmt w ≤ rowLen)
    (cur : U64) (hc : cur.toNat + usedBytes fmt w ≤ s.slen.toNat) :
    unpackRow s fmt w rowLen cur = .ok (rowAt s fmt w cur.toNat) (cur + BitVec.ofNat 64 rowLen) := by
  have hs := slen_lt s
  have e : (cur + BitVec.ofNat 64 (usedBytes fmt w) - cur).toNat = usedBytes fmt w := by
    rw [BitVec.add_comm, BitVec.add_sub_cancel, BitVec.toNat_ofNat, Nat.mod_eq_of_lt (by omega)]
  simp only [unpackRow, reads_readRow s fmt w cur hc, skipBy, e]
  rw [add_ofNat_add, Nat.add_sub_of_le hr]

/-- An image of h + 1 rows whose pixels lie inside the stream. -/
theorem unpack_inside (s : State) (fmt : PixelFormat) (w h rowLen : Nat) (hr : usedBytes fmt w ≤ rowLen)
    (cur : U64) (hc : cur.toNat + h * rowLen + usedBytes fmt w ≤ s.slen.toNat) :
    unpack s fmt w (h + 1) rowLen cur =
      .ok ((List.range (h + 1)).map fun j => rowAt s fmt w (cur.toNat + j * rowLen))
        (cur + BitVec.ofNat 64 ((h + 1) * rowLen)) := by
  have hs := slen_lt s
  induction h generalizing cur with
  | zero =>
    simp only [unpack, readMany, readThen, readMap, readPure]
    rw [unpackRow_inside s fmt w rowLen hr cur (by omega)]
    simp
  | succ h ih =>
    have hm : (h + 1) * rowLen = rowLen + h * rowLen := by rw [Nat.succ_mul, Nat.add_comm]
    have e1 := toNat_add_ofNat cur rowLen (by omega)
    have := ih (cur + BitVec.ofNat 64 rowLen) (by rw [e1]; omega)
    simp only [unpack] at this ⊢
    rw [readMany]
    simp only [readThen, readMap, readPure]
    rw [unpackRow_inside s fmt w rowLen hr cur (by omega)]
    simp only
    rw [this, add_ofNat_add, e1]
    simp only [ReadResult.ok.injEq]
    refine ⟨?_, by congr 2; ring⟩
    rw [List.range_succ_eq_map (n := h + 1), List.map_cons, List.map_map]
    simp only [Nat.zero_mul, Nat.add_zero, List.cons.injEq, true_and]
    apply List.map_congr_left
    intro j _
    simp only [Function.comp, Nat.succ_eq_add_one]
    congr 1
    ring

theorem staysInside_rd24 {m : Memory} {slen : Nat} (hs : slen < 2 ^ 64) :
    StaysInside (rd24 m slen) slen 3 :=
  staysInside_readThen (j := 1) (k := 2) hs (staysInside_rd8 hs) fun _ =>
    staysInside_readThen (j := 1) (k := 1) hs (staysInside_rd8 hs) fun _ =>
      staysInside_readMap _ hs (staysInside_rd8 hs)

theorem stopsInside_rd24 {m : Memory} {slen : Nat} (hs : slen < 2 ^ 64) : StopsInside (rd24 m slen) slen :=
  stopsInside_readThen hs (staysInside_rd8 hs) (stopsInside_rd8 hs) fun _ =>
    stopsInside_readThen hs (staysInside_rd8 hs) (stopsInside_rd8 hs) fun _ =>
      stopsInside_readMap _ hs (staysInside_rd8 hs) (stopsInside_rd8 hs)

theorem staysInside_readRow (s : State) (fmt : PixelFormat) (w : Nat) :
    StaysInside (readRow s fmt w) s.slen.toNat (usedBytes fmt w) := by
  have hs := slen_lt s
  cases fmt with
  | indexed4 => exact staysInside_readMap _ hs (staysInside_readMany hs (staysInside_rd8 hs) (w / 2))
  | indexed8 => exact staysInside_readMap _ hs (staysInside_readMany hs (staysInside_rd8 hs) w)
  | direct16 => exact staysInside_readMap _ hs (staysInside_readMany hs (staysInside_rd16 hs) w)
  | direct24 => exact staysInside_readMap _ hs (staysInside_readMany hs (staysInside_rd24 hs) w)

theorem stopsInside_readRow (s : State) (fmt : PixelFormat) (w : Nat) :
    StopsInside (readRow s fmt w) s.slen.toNat := by
  have hs := slen_lt s
  have w8 := staysInside_rd8 (m := s.stream) hs
  have e8 := stopsInside_rd8 (m := s.stream) hs
  cases fmt with
  | indexed4 =>
    exact stopsInside_readMap _ hs (staysInside_readMany hs w8 (w / 2)) (stopsInside_readMany hs w8 e8 _)
  | indexed8 =>
    exact stopsInside_readMap _ hs (staysInside_readMany hs w8 w) (stopsInside_readMany hs w8 e8 _)
  | direct16 =>
    exact stopsInside_readMap _ hs (staysInside_readMany hs (staysInside_rd16 hs) w)
      (stopsInside_readMany hs (staysInside_rd16 hs) (stopsInside_rd16 hs) _)
  | direct24 =>
    exact stopsInside_readMap _ hs (staysInside_readMany hs (staysInside_rd24 hs) w)
      (stopsInside_readMany hs (staysInside_rd24 hs) (stopsInside_rd24 hs) _)

/-- An image of h + 1 rows whose last pixel lies past the end of the stream meets the end before the end of
its declared rows (rules R206, R207). -/
theorem unpack_past (s : State) (fmt : PixelFormat) (w h rowLen : Nat) (hr : usedBytes fmt w ≤ rowLen)
    (hu : usedBytes fmt w ≠ 0) (cur : U64) (hw : cur.toNat + (h + 1) * rowLen < 2 ^ 64)
    (hc : s.slen.toNat < cur.toNat + h * rowLen + usedBytes fmt w) :
    ∃ c, unpack s fmt w (h + 1) rowLen cur = .eos c ∧ c.toNat ≤ cur.toNat + (h + 1) * rowLen := by
  have hm : ∀ h, (h + 1) * rowLen = rowLen + h * rowLen := fun h => by rw [Nat.succ_mul, Nat.add_comm]
  have first : s.slen.toNat < cur.toNat + usedBytes fmt w →
      ∃ c, readRow s fmt w cur = .eos c ∧ c.toNat ≤ cur.toNat + rowLen := by
    intro hf
    obtain ⟨c, hc⟩ := eos_of_staysInside (staysInside_readRow s fmt w) hu cur hf
    have := stopsInside_readRow s fmt w cur c hc
    exact ⟨c, hc, by omega⟩
  induction h generalizing cur with
  | zero =>
    obtain ⟨c, hc, hb⟩ := first (by omega)
    refine ⟨c, ?_, by rw [hm]; omega⟩
    simp only [unpack, readMany, readThen, unpackRow, hc]
  | succ h ih =>
    by_cases hf : s.slen.toNat < cur.toNat + usedBytes fmt w
    · obtain ⟨c, hc, hb⟩ := first hf
      refine ⟨c, ?_, by rw [hm]; omega⟩
      simp only [unpack, readMany, readThen, unpackRow, hc]
    · have e1 := toNat_add_ofNat cur rowLen (by rw [hm] at hw; omega)
      obtain ⟨c, hc', hb⟩ := ih (cur + BitVec.ofNat 64 rowLen) (by rw [e1]; rw [hm] at hw; omega)
        (by rw [e1]; rw [hm] at hc; omega)
        (by
          intro hf'
          obtain ⟨c, hc⟩ := eos_of_staysInside (staysInside_readRow s fmt w) hu _ hf'
          have := stopsInside_readRow s fmt w _ c hc
          exact ⟨c, hc, by omega⟩)
      refine ⟨c, ?_, by rw [hm]; rw [e1] at hb; omega⟩
      simp only [unpack] at hc' ⊢
      rw [readMany]
      simp only [readThen, readMap]
      rw [unpackRow_inside s fmt w rowLen hr cur (by omega)]
      simp only [hc']

/-- A row never uses more bytes than rowBytes (rules R107, R178). -/
theorem usedBytes_le_rowBytes (rule : Idx8RowRule) (fmt : PixelFormat) (st : Nat) :
    usedBytes fmt (pixelWidth fmt st) ≤ rowBytes rule fmt st := by
  cases fmt <;> cases rule <;> simp only [usedBytes, rowBytes, pixelWidth, bitsPerPixel] <;> omega

/-! ### Palette rows -/

/-- The words of palette row r at a stream offset (rule R105). -/
def paletteWords (m : Memory) (a cw r : Nat) : List U16 :=
  (List.range cw).map fun c => BitVec.ofNat 16 (memRead m (a + r * (cw * 2) + c * 2) 2)

theorem reads_readRows (s : State) (cw n : Nat) :
    Reads (readRows s.stream s.slen.toNat cw n) s.slen.toNat (n * (cw * 2))
      fun a => (List.range n).map fun r => paletteWords s.stream a cw r :=
  reads_readMany (slen_lt s) (reads_readMany (slen_lt s) (reads_rd16 (slen_lt s)) cw) n

/-- The row flags after a load: a row of the load reads as its new flag, any other as before. -/
theorem palRowFlag_rowFlagsAfter (p q : Palette) (new : List RowFlag)
    (h : p.rowStp = rowFlagsAfter q.rowStp new) (r : Nat) :
    palRowFlag p r =
      if r < new.length then rowFlagValue r (new[r]?.getD (.undefined 0)) else palRowFlag q r := by
  unfold palRowFlag
  rw [h, rowFlagsAfter, List.getElem?_append]
  split
  · rfl
  · rw [List.getElem?_drop, Nat.add_sub_cancel' (by omega)]

/-- The flag of a row after a completed load (rules R43, R138). -/
theorem palRowFlag_loadedPalette (p : Palette) (u : UnreadEntry) (fmt8 : Bool) (cw : Nat)
    (ws : List (List U16)) (epoch r : Nat) :
    palRowFlag (loadedPalette p u fmt8 cw ws epoch) r =
      match ws[r]? with
      | some w => rowHasStp (w.take (rowCols fmt8 cw))
      | none => palRowFlag p r := by
  rw [palRowFlag_rowFlagsAfter (loadedPalette p u fmt8 cw ws epoch) p _ rfl, List.length_map,
    List.length_map]
  by_cases h : r < ws.length
  · rw [if_pos h, List.getElem?_map, List.getElem?_map, List.getElem?_eq_getElem h]
    rfl
  · rw [if_neg h, List.getElem?_eq_none (by omega)]

/-- The flags of the rows of a completed load, row by row (rule R138). -/
theorem rowFlags_loadedPalette (p : Palette) (u : UnreadEntry) (fmt8 : Bool) (cw : Nat)
    (ws : List (List U16)) (epoch : Nat) :
    (List.range ws.length).map (palRowFlag (loadedPalette p u fmt8 cw ws epoch)) =
      ws.map fun w => rowHasStp (w.take (rowCols fmt8 cw)) := by
  apply List.ext_getElem (by simp)
  intro r h _
  rw [List.getElem_map, List.getElem_map, List.getElem_range, palRowFlag_loadedPalette,
    List.getElem?_eq_getElem (by simpa using h)]

/-- A load cut short leaves the flags of the rows that are not its own (rules R43, R139). -/
theorem palRowFlag_brokenPalette (p : Palette) (n epoch r : Nat) (h : n ≤ r) :
    palRowFlag (brokenPalette p n epoch) r = palRowFlag p r := by
  rw [palRowFlag_rowFlagsAfter (brokenPalette p n epoch) p _ rfl, List.length_replicate,
    if_neg (by omega)]

/-- A palette load whose decoded rows lie inside the stream completes, with CUR past all its rows. -/
theorem paletteLoad_done (s : State) (fmt8 : Bool) (cw ch : Nat) (first : Bool) (hch : 1 ≤ ch)
    (hin : s.cur.toNat + rowsDecoded first ch * (cw * 2) ≤ s.slen.toNat) :
    paletteLoad s fmt8 cw ch first =
      .done ((s.setPal (loadedPalette s.pal s.params.unreadEntry fmt8 cw
        ((List.range (rowsDecoded first ch)).map fun r => paletteWords s.stream s.cur.toNat cw r)
        s.draws)).setCur (s.cur + BitVec.ofNat 64 (2 * cw * ch))) := by
  simp only [paletteLoad, reads_readRows s cw (rowsDecoded first ch) s.cur hin, skipBy, add_ofNat_add]
  congr 4
  have h : rowsDecoded first ch ≤ ch := by unfold rowsDecoded; split <;> omega
  generalize rowsDecoded first ch = n at h
  obtain ⟨k, rfl⟩ := Nat.exists_eq_add_of_le h
  rw [Nat.add_sub_cancel_left, Nat.mul_add, Nat.mul_comm cw 2, Nat.mul_comm n]

/-- A palette load whose decoded rows pass the end of the stream meets it inside the stream, and no cell of
the table is defined (rules R134, R139). -/
theorem paletteLoad_past (s : State) (fmt8 : Bool) (cw ch : Nat) (first : Bool) (hcw : 1 ≤ cw)
    (hch : 1 ≤ ch) (hp : s.slen.toNat < s.cur.toNat + rowsDecoded first ch * (cw * 2)) :
    ∃ c, c.toNat ≤ max s.cur.toNat s.slen.toNat ∧
      paletteLoad s fmt8 cw ch first =
        .eos ((s.setPal (brokenPalette s.pal (rowsDecoded first ch) s.draws)).setCur c) := by
  have hs := slen_lt s
  have w := staysInside_rd16 (m := s.stream) hs
  have e := stopsInside_rd16 (m := s.stream) hs
  have hk : rowsDecoded first ch * (cw * 2) ≠ 0 := by
    have : 1 ≤ rowsDecoded first ch := by unfold rowsDecoded; split <;> omega
    exact Nat.mul_ne_zero (by omega) (by omega)
  obtain ⟨c, hc⟩ := eos_of_staysInside
    (staysInside_readMany hs (staysInside_readMany hs w cw) (rowsDecoded first ch)) hk s.cur hp
  refine ⟨c, stopsInside_readMany hs (staysInside_readMany hs w cw) (stopsInside_readMany hs w e cw) _ _ _ hc,
    ?_⟩
  unfold paletteLoad readRows
  rw [hc]

/-- What a palette load can do: it completes with rows of cw words each, or it meets the end of the
stream and leaves PAL_VALID 0, with no flag of its rows defined. -/
theorem paletteLoad_cases (s : State) (fmt8 : Bool) (cw ch : Nat) (first : Bool) :
    (∃ ws c, ws.length = rowsDecoded first ch ∧ (∀ w ∈ ws, w.length = cw) ∧
      paletteLoad s fmt8 cw ch first =
        .done ((s.setPal (loadedPalette s.pal s.params.unreadEntry fmt8 cw ws s.draws)).setCur c)) ∨
    (∃ c, paletteLoad s fmt8 cw ch first =
      .eos ((s.setPal (brokenPalette s.pal (rowsDecoded first ch) s.draws)).setCur c)) := by
  unfold paletteLoad
  split
  · next ws c h =>
    refine .inl ⟨ws, _, length_readMany _ _ _ _ h, ?_, rfl⟩
    exact mem_readMany (fun w => w.length = cw) (fun _ _ _ hw => length_readMany _ _ _ _ hw) _ _ _ _ h
  · next c _ => exact .inr ⟨c, rfl⟩

/-- A row of a load has the row size's entries. -/
theorem length_expandRow (u : UnreadEntry) (fmt8 : Bool) (cw : Nat) (ws : List U16) (h : ws.length = cw) :
    (expandRow u fmt8 cw ws).length = rowSize fmt8 := by
  simp only [expandRow, rowCols, List.length_append, List.length_map, List.length_take, h,
    List.length_replicate]
  omega

/-! ### The bounded cursor -/

/-- The free cursor lies in its range (rules R142, R183). -/
theorem anyCur_range (s : State) (lo hi : Nat) (h : lo ≤ hi) (hlo : lo < 2 ^ 64) :
    lo ≤ (s.anyCur lo hi).cur.toNat ∧ (s.anyCur lo hi).cur.toNat ≤ hi := by
  have hpos : 0 < cursorTop hi - lo + 1 := Nat.succ_pos _
  have hm := Nat.mod_lt (Config.freeCursor s.draws) hpos
  have hb : lo + Config.freeCursor s.draws % (cursorTop hi - lo + 1) ≤ cursorTop hi := by
    have : lo ≤ cursorTop hi := by unfold cursorTop; omega
    omega
  have ht : cursorTop hi < 2 ^ 64 := by unfold cursorTop; omega
  have hh : cursorTop hi ≤ hi := by unfold cursorTop; omega
  have e : (s.anyCur lo hi).cur.toNat = lo + Config.freeCursor s.draws % (cursorTop hi - lo + 1) := by
    simp only [State.anyCur, BitVec.toNat_ofNat]
    exact Nat.mod_eq_of_lt (by omega)
  rw [e]
  omega

/-- A candidate that ends without result leaves CUR between p0 and the bound of rule R183. -/
theorem endCandidate_cursor (s : State) (p0 : Nat) (reached : U64) (ldecl : Nat) (code : Code)
    (reason : Reason) (h : p0 < 2 ^ 64) :
    p0 ≤ (endCandidate s p0 reached ldecl code reason).cur.toNat ∧
      (endCandidate s p0 reached ldecl code reason).cur.toNat ≤ max reached.toNat (p0 + ldecl) := by
  have := anyCur_range s p0 (max reached.toNat (p0 + ldecl)) (by omega) h
  simpa [endCandidate] using this

end Sys2Proof.Machine
end

