-- ==== Sys2Proof/Laws/Textures.lean ====
section
/-! SUPPORT. The check of a texture payload against the words of rule R48, the mask rows a draw writes,
colour packing, exported images, and outcomes. -/

namespace Sys2Proof.Machine

/-! ### Outcomes -/

/-- Ending a command records its outcome and nothing else. -/
theorem finish_eq_answers (s : State) (code : Code) (reason : Reason) (result : Result) :
    s.finish code reason result = s.answers code reason result := rfl

theorem ok_eq_answers (s : State) (result : Result) : s.ok result = s.answers .ok .none result := rfl

theorem illegal_eq_answers (s : State) (reason : Reason) :
    s.illegal reason = s.answers .illegalCommand reason .none := rfl

/-! ### Textures -/

theorem hasDims_iff {α : Type} (w h : Nat) (rows : List (List α)) :
    hasDims w h rows = true ↔ Dims w h rows := by
  simp [hasDims, Dims]

theorem hasMask_iff (fmt : PixelFormat) : hasMask fmt = true ↔ fmt ≠ .direct24 := by
  cases fmt <;> simp [hasMask]

theorem maskOk_iff (fmt : PixelFormat) (w h : Nat) (mask : Option (List (List Byte))) :
    maskOk fmt w h mask = true ↔
      if fmt = .direct24 then mask = none else ∃ rows, mask = some rows ∧ Dims w h rows := by
  by_cases hf : fmt = .direct24
  · subst hf
    cases mask <;> simp [maskOk, hasMask]
  · have hm := (hasMask_iff fmt).2 hf
    cases mask with
    | none => simp [maskOk, hm, hf]
    | some rows => simp [maskOk, hm, hf, hasDims_iff]

theorem alphaOk_iff (c : Color) : alphaOk c = true ↔ c.a = 0 ∨ c.a = 255 := by
  simp [alphaOk]

/-- The check is rule R48. -/
theorem textureOk_iff (t : Texture) : textureOk t = true ↔ WellFormedTexture t := by
  simp only [textureOk, WellFormedTexture, Bool.and_eq_true, hasDims_iff, maskOk_iff, List.all_eq_true,
    alphaOk_iff, decide_eq_true_eq, Bool.not_eq_true', and_assoc]

theorem textureOk_eq_false (t : Texture) : textureOk t = false ↔ ¬WellFormedTexture t := by
  rw [← textureOk_iff, Bool.not_eq_true]

/-- Arrays of the same dimensions have the same shape. -/
theorem sameShape_of_dims {α β : Type} {w h : Nat} {a : List (List α)} {b : List (List β)}
    (ha : Dims w h a) (hb : Dims w h b) : sameShape a b := by
  have key : ∀ {γ : Type} (l : List (List γ)), Dims w h l → l.map List.length = List.replicate h w := by
    intro γ l hl
    rw [List.eq_replicate_iff]
    refine ⟨by simp [hl.1], fun n hn => ?_⟩
    obtain ⟨r, hr, rfl⟩ := List.mem_map.1 hn
    exact hl.2 r hr
  rw [sameShape, key a ha, key b hb]

/-- The mask rows that DRAW writes have the texture's dimensions (rule R234). -/
theorem dims_drawMask (opaqueStp : Byte) (t : Texture) (h : WellFormedTexture t) :
    Dims t.width t.height (drawMask opaqueStp t) := by
  obtain ⟨hd, hm, _⟩ := h
  unfold drawMask
  split
  · next rows e =>
    by_cases hf : t.fmt = .direct24
    · rw [if_pos hf, e] at hm
      cases hm
    · rw [if_neg hf] at hm
      obtain ⟨rows', e', hr⟩ := hm
      rw [e] at e'
      cases e'
      exact hr
  · refine ⟨by simp [hd.1], fun r hr => ?_⟩
    obtain ⟨a, ha, rfl⟩ := List.mem_map.1 hr
    simp [hd.2 a ha]

/-- The mask value that DRAW writes for a covering pixel (rule R234). -/
theorem cellAt_drawMask (opaqueStp : Byte) (t : Texture) (x y : Nat) (m : Byte)
    (h : cellAt (drawMask opaqueStp t) (y - t.y) (x - t.x) = some m) :
    m = coveringMask opaqueStp t x y := by
  unfold coveringMask
  unfold drawMask at h
  cases e : t.mask with
  | some rows =>
    rw [e] at h
    simp [h]
  | none =>
    rw [e] at h
    show m = opaqueStp
    simp only [cellAt, List.getElem?_map] at h
    cases hr : t.color[y - t.y]? with
    | none => simp [hr] at h
    | some row =>
      simp only [hr, Option.map_some, List.getElem?_map] at h
      cases hc : row[x - t.x]? with
      | none => simp [hc] at h
      | some c => simpa [hc] using h.symm

/-- Arrays of the same shape have the same cells. -/
theorem cellAt_isSome_of_sameShape {α β : Type} {a : List (List α)} {b : List (List β)}
    (h : sameShape a b) (j i : Nat) : (cellAt a j i).isSome = (cellAt b j i).isSome := by
  have hl : a.length = b.length := by simpa using congrArg List.length h
  unfold cellAt
  by_cases hj : j < a.length
  · have hj' : j < b.length := hl ▸ hj
    have e : (a.map List.length)[j]? = (b.map List.length)[j]? := by rw [h]
    simp only [List.getElem?_map, List.getElem?_eq_getElem hj, List.getElem?_eq_getElem hj',
      Option.map_some, Option.some.injEq] at e
    rw [List.getElem?_eq_getElem hj, List.getElem?_eq_getElem hj', Bool.eq_iff_iff]
    simp [e]
  · rw [List.getElem?_eq_none (by omega), List.getElem?_eq_none (by omega)]
    rfl

/-! ### Colours -/

/-- Packing undoes unpacking (rules R17, R34). -/
@[simp] theorem argb32_colorOfArgb32 (v : U32) : argb32 (colorOfArgb32 v) = v := by
  have := v.isLt
  apply BitVec.eq_of_toNat_eq
  simp only [argb32, colorOfArgb32, append_toNat, BitVec.extractLsb'_toNat, Nat.shiftRight_eq_div_pow]
  omega

/-! ### Exported images -/

theorem cellAt_imageOf {α : Type} (w h : Nat) (f : Nat → Nat → α) (j i : Nat) (hj : j < h) (hi : i < w) :
    cellAt (imageOf w h f).rows j i = some (f j i) := by
  simp [cellAt, imageOf, hj, hi]

theorem dims_imageOf {α : Type} (w h : Nat) (f : Nat → Nat → α) : Dims w h (imageOf w h f).rows := by
  refine ⟨by simp [imageOf], fun r hr => ?_⟩
  obtain ⟨j, _, rfl⟩ := List.mem_map.1 hr
  simp

/-- The largest size bounds every size and is one of them. -/
theorem le_maxOf (l : List Nat) : ∀ n ∈ l, n ≤ maxOf l := by
  induction l with
  | nil => simp
  | cons a l ih =>
    intro n hn
    simp only [maxOf, List.foldr_cons] at *
    rcases List.mem_cons.1 hn with rfl | hn
    · omega
    · have := ih n hn
      omega

theorem maxOf_mem (l : List Nat) (h : l ≠ []) : maxOf l ∈ l := by
  induction l with
  | nil => exact absurd rfl h
  | cons a l ih =>
    simp only [maxOf, List.foldr_cons] at *
    rcases Nat.le_total (l.foldr max 0) a with hle | hle
    · rw [Nat.max_eq_left hle]
      exact List.mem_cons_self
    · rw [Nat.max_eq_right hle]
      by_cases hl : l = []
      · subst hl
        rw [List.foldr_nil] at hle ⊢
        simp [Nat.le_zero.1 hle]
      · exact List.mem_cons_of_mem _ (ih hl)

end Sys2Proof.Machine
end

