-- ==== Sys2Proof/Laws/Tim.lean ====
section
/-! SUPPORT. What the pieces of the palette decoder and the TIM decoder give: the ends of a candidate, the
header, the loaded palette, and the texture of an image inside the stream. -/

namespace Sys2Proof.Machine

/-! ### Ends -/

/-- A candidate's end does not depend on where CUR stood: the outcome, CUR from p0 to a bound, one free
value drawn. -/
theorem endCandidate_ends (s : State) (c : U64) (p0 : Nat) (reached : U64) (ldecl hi : Nat) (code : Code)
    (reason : Reason) (hp : p0 < 2 ^ 64) (h1 : reached.toNat ≤ hi) (h2 : p0 + ldecl ≤ hi) :
    s.candidateEnds (endCandidate (s.setCur c) p0 reached ldecl code reason) p0 hi code reason := by
  have h := endCandidate_cursor (s.setCur c) p0 reached ldecl code reason hp
  exact ⟨rfl, h.1, by omega⟩

/-- The end of the stream inside a candidate, by mode (rule R73). -/
theorem streamEnded_eq (s : State) (p0 : Nat) (reached : U64) (ldecl : Nat) (reason : Reason) :
    streamEnded s p0 reached ldecl reason =
      endCandidate s p0 reached ldecl (if s.tolerant then .truncatedInput else .decodeFault)
        (if s.tolerant then reason else .streamEnd) := by
  unfold streamEnded
  split <;> rfl

/-! ### The header -/

/-- Everything that reading a container up to its flags word can do (rules R162 to R165). -/
theorem readHeader_cases (s : State) :
    (∃ w c, readHeader s = .flags w (s.setCur c)) ∨
      (∃ c, readHeader s = .ended (streamEnded s s.cur.toNat c 8 .headerTruncated)) ∨
      ∃ c r, (r = .tagMismatch ∨ r = .versionMismatch) ∧
        readHeader s = .ended (rejectCandidate s s.cur.toNat c 8 r) := by
  unfold readHeader
  split
  · exact .inr (.inl ⟨_, rfl⟩)
  split
  · exact .inr (.inr ⟨_, _, .inl rfl, rfl⟩)
  unfold readVersion
  split
  · exact .inr (.inl ⟨_, rfl⟩)
  split
  · exact .inr (.inr ⟨_, _, .inr rfl, rfl⟩)
  unfold readFlags
  split
  · exact .inr (.inl ⟨_, rfl⟩)
  · exact .inl ⟨_, _, rfl⟩

/-- A u16 field inside the stream. -/
theorem rd16_inside (s : State) (cur : U64) (h : cur.toNat + 2 ≤ s.slen.toNat) :
    rd16 s.stream s.slen.toNat cur =
      .ok (BitVec.ofNat 16 (s.u16At cur.toNat)) (cur + BitVec.ofNat 64 2) :=
  reads_rd16 (slen_lt s) cur h

/-- A u16 field past the end of the stream: CUR stays before it. -/
theorem rd16_past (s : State) (cur : U64) (h : s.slen.toNat < cur.toNat + 2) :
    rd16 s.stream s.slen.toNat cur = .eos cur := by
  have : rdNat s.stream s.slen.toNat 2 cur = .eos cur := by rw [rdNat, if_neg (by omega)]
  simp [rd16, readMap, readThen, this]

/-- A u32 field inside the stream. -/
theorem rd32_inside (s : State) (cur : U64) (h : cur.toNat + 4 ≤ s.slen.toNat) :
    rd32 s.stream s.slen.toNat cur =
      .ok (BitVec.ofNat 32 (s.u32At cur.toNat)) (cur + BitVec.ofNat 64 4) :=
  reads_rd32 (slen_lt s) cur h

/-- A u32 field past the end of the stream: CUR stays before it. -/
theorem rd32_past (s : State) (cur : U64) (h : s.slen.toNat < cur.toNat + 4) :
    rd32 s.stream s.slen.toNat cur = .eos cur := by
  have : rdNat s.stream s.slen.toNat 4 cur = .eos cur := by rw [rdNat, if_neg (by omega)]
  simp [rd32, readMap, readThen, this]

/-- A u16 field fits its register. -/
theorem u16At_lt (s : State) (a : Nat) : s.u16At a < 65536 := memRead_lt s.stream a 2

theorem u32At_lt (s : State) (a : Nat) : s.u32At a < 4294967296 := memRead_lt s.stream a 4

@[simp] theorem toNat_ofNat_u16At (s : State) (a : Nat) : (BitVec.ofNat 16 (s.u16At a)).toNat = s.u16At a := by
  rw [BitVec.toNat_ofNat, Nat.mod_eq_of_lt (u16At_lt s a)]

@[simp] theorem toNat_ofNat_u32At (s : State) (a : Nat) : (BitVec.ofNat 32 (s.u32At a)).toNat = s.u32At a := by
  rw [BitVec.toNat_ofNat, Nat.mod_eq_of_lt (u32At_lt s a)]

/-! ### The image header -/

/-- The image header inside the stream (rule R173). -/
theorem readImgHeader_inside (s : State) (cur : U64) (h : cur.toNat + 12 ≤ s.slen.toNat) :
    readImgHeader s.stream s.slen.toNat cur =
      .ok ⟨BitVec.ofNat 16 (s.u16At (cur.toNat + 4)), BitVec.ofNat 16 (s.u16At (cur.toNat + 6)),
        BitVec.ofNat 16 (s.u16At (cur.toNat + 8)), BitVec.ofNat 16 (s.u16At (cur.toNat + 10))⟩
        (cur + BitVec.ofNat 64 12) :=
  reads_readImgHeader (slen_lt s) cur h

/-- The palette header inside the stream (rule R167). -/
theorem readPalHeader_inside (s : State) (cur : U64) (h : cur.toNat + 12 ≤ s.slen.toNat) :
    readPalHeader s.stream s.slen.toNat cur =
      .ok ⟨BitVec.ofNat 16 (s.u16At (cur.toNat + 4)), BitVec.ofNat 16 (s.u16At (cur.toNat + 6)),
        BitVec.ofNat 16 (s.u16At (cur.toNat + 8)), BitVec.ofNat 16 (s.u16At (cur.toNat + 10))⟩
        (cur + BitVec.ofNat 64 12) :=
  reads_readPalHeader (slen_lt s) cur h

/-! ### The loaded palette -/

/-- Word c of palette row r (rule R105). -/
theorem getElem?_paletteWords (s : State) (a cw r c : Nat) (h : c < cw) :
    (paletteWords s.stream a cw r)[c]? = some (BitVec.ofNat 16 (s.u16At (a + 2 * (r * cw + c)))) := by
  simp only [paletteWords, List.getElem?_map, List.getElem?_range h, Option.map_some, State.u16At]
  congr 3
  ring

theorem length_paletteWords (m : Memory) (a cw r : Nat) : (paletteWords m a cw r).length = cw := by
  simp [paletteWords]

/-- Entry c of a loaded row is the entry of the palette rules. -/
theorem getElem?_expandRow (s : State) (fmt8 : Bool) (a cw r c : Nat) (hcw : 1 ≤ cw)
    (hc : c < rowSize fmt8) :
    (expandRow s.params.unreadEntry fmt8 cw (paletteWords s.stream a cw r))[c]? =
      some (s.entryAt a cw (rowSize fmt8) r c) := by
  have hl := length_paletteWords s.stream a cw r
  have hk : rowCols fmt8 cw = min cw (rowSize fmt8) := rfl
  have ht : ((paletteWords s.stream a cw r).take (rowCols fmt8 cw)).length = min cw (rowSize fmt8) := by
    rw [List.length_take, hl, hk]
    omega
  simp only [expandRow, State.entryAt]
  rw [List.getElem?_append, List.length_map, ht]
  split
  · next h =>
    rw [List.getElem?_map, List.getElem?_take, if_pos (by omega), getElem?_paletteWords _ _ _ _ _ (by omega)]
    rfl
  · next h =>
    rw [List.getElem?_replicate, if_pos (by omega)]
    unfold unreadEntry
    split
    · next hu => rw [hu]; simp
    · next hu =>
      rw [hu, if_pos rfl, List.headD_eq_head?_getD, List.head?_eq_getElem?, List.getElem?_map,
        List.getElem?_take, if_pos (by omega), getElem?_paletteWords _ _ _ _ _ (by omega)]
      simp

/-- The flag of a loaded row is the flag of the palette rules (rule R138). -/
theorem rowHasStp_paletteWords (s : State) (fmt8 : Bool) (a cw r : Nat) :
    rowHasStp ((paletteWords s.stream a cw r).take (rowCols fmt8 cw)) =
      s.rowFlagAt a cw (rowSize fmt8) r := by
  have e : (paletteWords s.stream a cw r).take (rowCols fmt8 cw) =
      (List.range (min cw (rowSize fmt8))).map fun c =>
        BitVec.ofNat 16 (s.u16At (a + 2 * (r * cw + c))) := by
    apply List.ext_getElem?
    intro c
    rw [List.getElem?_take, List.getElem?_map]
    by_cases h : c < min cw (rowSize fmt8)
    · rw [if_pos (by unfold rowCols; omega), getElem?_paletteWords _ _ _ _ _ (by omega),
        List.getElem?_range h]
      rfl
    · rw [if_neg (by unfold rowCols; omega), List.getElem?_eq_none (by rw [List.length_range]; omega)]
      rfl
  rw [e]
  unfold rowHasStp State.rowFlagAt
  rw [List.any_map]
  congr 1
  funext c
  have hl := u16At_lt s (a + 2 * (r * cw + c))
  simp only [Function.comp, rawStp, BitVec.getLsbD_ofNat, Nat.testBit_eq_decide_div_mod_eq]
  rw [Bool.eq_iff_iff]
  simp
  omega

/-! ### An image inside the stream -/

/-- The pixels of an image whose pixel data start at a stream offset lie in the stream: every pixel byte in
strict mode, the padding of the last row too in tolerant mode (rules R179, R206). -/
def State.pixelsInside (s : State) (fmt : PixelFormat) (st h a : Nat) : Prop :=
  let rowLen := rowBytes s.params.idx8RowRule fmt st
  a + (h - 1) * rowLen + usedBytes fmt (pixelWidth fmt st) ≤ s.slen.toNat ∧
    (s.tolerant = true → a + rowLen * h ≤ s.slen.toNat)

/-- DecodePixels of an image whose pixels lie in the stream (rules R179 to R182). -/
theorem decodePixels_inside (s : State) (fmt : PixelFormat) (p0 ldecl : Nat) (hd : ImgHeader)
    (h0 : hd.h.toNat ≠ 0) (h : s.pixelsInside fmt hd.stride.toNat hd.h.toNat s.cur.toNat) :
    decodePixels s fmt p0 ldecl hd =
      (s.setCur (s.cur +
        BitVec.ofNat 64 (rowBytes s.params.idx8RowRule fmt hd.stride.toNat * hd.h.toNat))).ok
        (.texture (decodedTexture fmt hd ((List.range hd.h.toNat).map fun j =>
          rowAt s fmt (pixelWidth fmt hd.stride.toNat)
            (s.cur.toNat + j * rowBytes s.params.idx8RowRule fmt hd.stride.toNat)))) := by
  obtain ⟨h1, h2⟩ := h
  have ht : ¬(s.tolerant && decide (rowBytes s.params.idx8RowRule fmt hd.stride.toNat * hd.h.toNat >
      remaining s.slen.toNat s.cur)) = true := by
    rw [Bool.and_eq_true, decide_eq_true_eq, remaining]
    rintro ⟨e1, e2⟩
    have := h2 e1
    omega
  obtain ⟨n, hn⟩ := Nat.exists_eq_succ_of_ne_zero h0
  simp only [decodePixels]
  rw [if_neg ht, hn, unpack_inside s fmt _ n _ (usedBytes_le_rowBytes _ _ _) s.cur (by simpa [hn] using h1)]
  simp only [Nat.mul_comm _ (n + 1), Nat.succ_eq_add_one]

/-- What the width check admits (rules R33, R175; log entry 15). -/
theorem widthTooLarge_eq_false (zero : ZeroMaxres) (maxres w : Nat) :
    widthTooLarge zero maxres w = false ↔ w ≤ maxres ∧ (maxres = 0 → zero = .compareWidth) := by
  cases zero <;> simp [widthTooLarge]

/-- A width that is not 0 is admitted when it is at most MAXRES (rule R175). -/
theorem State.admitsWidth_of_ne_zero {s : State} {w : Nat} (h0 : w ≠ 0) (h : w ≤ s.maxres.toNat) :
    s.admitsWidth w :=
  ⟨h, fun h' => absurd h' (by omega)⟩

/-- An image header that passes every check reaches its pixels (rules R174 to R177). -/
theorem checkImage_passes (s : State) (fmt : PixelFormat) (p0 ldecl : Nat) (hd : ImgHeader)
    (h1 : hd.stride ≠ 0) (h2 : hd.h ≠ 0)
    (h3 : fmt = .direct24 → pixelWidth fmt hd.stride.toNat ≠ 0 ∨ s.params.zeroWidthD24 = .emptyTexture)
    (h4 : s.admitsWidth (pixelWidth fmt hd.stride.toNat)) (h5 : hd.ox.toNat < 1024)
    (h6 : hd.oy.toNat < 512) : checkImage s fmt p0 ldecl hd = decodePixels s fmt p0 ldecl hd := by
  have hz : ∀ z, z ≠ .emptyTexture →
      ¬(fmt = .direct24 ∧ pixelWidth fmt hd.stride.toNat = 0 ∧ s.params.zeroWidthD24 = z) := by
    rintro z hz ⟨e1, e2, e3⟩
    rcases h3 e1 with h | h
    · exact h e2
    · exact hz (e3 ▸ h)
  have ho : originOnPage hd.ox.toNat hd.oy.toNat = true := by
    simp only [originOnPage, Bool.and_eq_true, decide_eq_true_eq]
    unfold originPageX originPageY
    omega
  simp only [checkImage]
  rw [if_neg h1, if_neg h2, if_neg (hz _ (by decide)), if_neg (hz _ (by decide)),
    (widthTooLarge_eq_false _ _ _).2 h4, if_neg Bool.false_ne_true,
    if_neg (by simp [ho])]

/-- The image header at a stream offset. -/
def State.imgHeaderAt (s : State) (a : Nat) : ImgHeader :=
  ⟨BitVec.ofNat 16 (s.u16At (a + 4)), BitVec.ofNat 16 (s.u16At (a + 6)),
    BitVec.ofNat 16 (s.u16At (a + 8)), BitVec.ofNat 16 (s.u16At (a + 10))⟩

theorem ofNat_u16At_ne (s : State) (a : Nat) (h : s.u16At a ≠ 0) : BitVec.ofNat 16 (s.u16At a) ≠ 0 := by
  intro e
  apply h
  rw [← toNat_ofNat_u16At, e]
  rfl

/-- An image at CUR that lies in the stream and passes every check: its texture, and CUR just past it
(rules R173 to R182). -/
theorem readImage_inside (s : State) (fmt : PixelFormat) (p0 base : Nat)
    (h1 : s.u16At (s.cur.toNat + 8) ≠ 0) (h2 : s.u16At (s.cur.toNat + 10) ≠ 0)
    (h3 : fmt = .direct24 →
      pixelWidth fmt (s.u16At (s.cur.toNat + 8)) ≠ 0 ∨ s.params.zeroWidthD24 = .emptyTexture)
    (h4 : s.admitsWidth (pixelWidth fmt (s.u16At (s.cur.toNat + 8))))
    (h5 : s.u16At (s.cur.toNat + 4) < 1024) (h6 : s.u16At (s.cur.toNat + 6) < 512)
    (hin : s.pixelsInside fmt (s.u16At (s.cur.toNat + 8)) (s.u16At (s.cur.toNat + 10))
      (s.cur.toNat + 12)) :
    readImage s fmt p0 base =
      (s.setCur (s.cur + BitVec.ofNat 64 (12 + rowBytes s.params.idx8RowRule fmt
        (s.u16At (s.cur.toNat + 8)) * s.u16At (s.cur.toNat + 10)))).ok
        (.texture (decodedTexture fmt (s.imgHeaderAt s.cur.toNat)
          ((List.range (s.u16At (s.cur.toNat + 10))).map fun j =>
            rowAt s fmt (pixelWidth fmt (s.u16At (s.cur.toNat + 8)))
              (s.cur.toNat + 12 + j * rowBytes s.params.idx8RowRule fmt (s.u16At (s.cur.toNat + 8)))))) := by
  have e : (s.cur + BitVec.ofNat 64 12).toNat = s.cur.toNat + 12 :=
    toNat_add_ofNat s.cur 12 (by have := slen_lt s; have := hin.1; omega)
  simp only [readImage, readImgHeader_inside s s.cur (by have := hin.1; omega)]
  rw [checkImage_passes, decodePixels_inside]
  · simp only [toNat_ofNat_u16At, State.setCur_cur, State.setCur_params, e]
    rw [add_ofNat_add]
    rfl
  · simpa only [toNat_ofNat_u16At] using h2
  · simpa only [State.pixelsInside, State.tolerant, State.setCur_cfg, toNat_ofNat_u16At,
      State.setCur_cur, State.setCur_params, State.setCur_slen, e] using hin
  · exact ofNat_u16At_ne s _ h1
  · exact ofNat_u16At_ne s _ h2
  · simpa only [toNat_ofNat_u16At, State.setCur_params] using h3
  · simpa only [State.admitsWidth, toNat_ofNat_u16At, State.setCur_maxres, State.setCur_params] using h4
  · simpa only [toNat_ofNat_u16At] using h5
  · simpa only [toNat_ofNat_u16At] using h6

/-! ### An image that ends early -/

/-- An image header that runs past the end of the stream (rules R73, R173). -/
theorem readImage_past (s : State) (fmt : PixelFormat) (p0 base : Nat)
    (h : s.slen.toNat < s.cur.toNat + 12) :
    ∃ c, c.toNat ≤ max s.cur.toNat s.slen.toNat ∧
      readImage s fmt p0 base = streamEnded s p0 c base .headerTruncated := by
  obtain ⟨c, hc, hb⟩ := readImgHeader_past (m := s.stream) (slen_lt s) s.cur h
  exact ⟨c, hb, by simp only [readImage, hc]⟩

/-- An image header inside the stream reaches the checks of rules R174 to R177. -/
theorem readImage_checks (s : State) (fmt : PixelFormat) (p0 base : Nat)
    (h : s.cur.toNat + 12 ≤ s.slen.toNat) :
    readImage s fmt p0 base =
      checkImage (s.setCur (s.cur + BitVec.ofNat 64 12)) fmt p0
        (base + 12 + rowBytes s.params.idx8RowRule fmt (s.u16At (s.cur.toNat + 8)) *
          s.u16At (s.cur.toNat + 10)) (s.imgHeaderAt s.cur.toNat) := by
  simp only [readImage, readImgHeader_inside s s.cur h, toNat_ofNat_u16At]
  rfl

/-- DecodePixels of an image that runs past the end of the stream: its declared span in tolerant mode, its
last pixel in strict mode (rules R179, R207). The cursor reached lies before its declared end. -/
theorem decodePixels_past (s : State) (fmt : PixelFormat) (p0 ldecl : Nat) (hd : ImgHeader)
    (h0 : hd.h.toNat ≠ 0)
    (hw : s.cur.toNat + rowBytes s.params.idx8RowRule fmt hd.stride.toNat * hd.h.toNat < 2 ^ 64)
    (h : if s.tolerant then
        s.slen.toNat < s.cur.toNat + rowBytes s.params.idx8RowRule fmt hd.stride.toNat * hd.h.toNat
      else usedBytes fmt (pixelWidth fmt hd.stride.toNat) ≠ 0 ∧
        s.slen.toNat < s.cur.toNat +
          rowBytes s.params.idx8RowRule fmt hd.stride.toNat * (hd.h.toNat - 1) +
            usedBytes fmt (pixelWidth fmt hd.stride.toNat))
    (hc : s.cur.toNat ≤ s.slen.toNat) :
    ∃ c, c.toNat ≤ s.cur.toNat + rowBytes s.params.idx8RowRule fmt hd.stride.toNat * hd.h.toNat ∧
      decodePixels s fmt p0 ldecl hd =
        endCandidate s p0 c ldecl (if s.tolerant then .truncatedInput else .decodeFault)
          (if s.tolerant then .imageTruncated else .streamEnd) := by
  cases ht : s.tolerant with
  | true =>
    rw [ht, if_pos rfl] at h
    refine ⟨s.cur, Nat.le_add_right _ _, ?_⟩
    have hr : rowBytes s.params.idx8RowRule fmt hd.stride.toNat * hd.h.toNat >
        remaining s.slen.toNat s.cur := by
      unfold remaining
      omega
    simp only [decodePixels, ht, hr, decide_true, Bool.and_self, if_true]
  | false =>
    rw [ht, if_neg (by decide)] at h
    obtain ⟨n, hn⟩ := Nat.exists_eq_succ_of_ne_zero h0
    rw [hn] at h hw ⊢
    obtain ⟨c, hc, hb⟩ := unpack_past s fmt _ n _ (usedBytes_le_rowBytes s.params.idx8RowRule fmt hd.stride.toNat)
      h.1 s.cur (by rw [Nat.mul_comm]; exact hw) (by rw [Nat.mul_comm n]; exact h.2)
    refine ⟨c, by rw [Nat.mul_comm]; exact hb, ?_⟩
    simp only [decodePixels, ht, Bool.false_and, Bool.false_eq_true, if_false, hn]
    rw [hc]
    simp only [streamEnded, ht, Bool.false_eq_true, if_false]

/-! ### A palette block inside the stream -/

/-- The palette header at a stream offset. -/
def State.palHeaderAt (s : State) (a : Nat) : PalHeader :=
  ⟨BitVec.ofNat 16 (s.u16At (a + 4)), BitVec.ofNat 16 (s.u16At (a + 6)),
    BitVec.ofNat 16 (s.u16At (a + 8)), BitVec.ofNat 16 (s.u16At (a + 10))⟩

/-- The rows of words that a load from a stream offset decodes. -/
def State.rowWordsAt (s : State) (a cw n : Nat) : List (List U16) :=
  (List.range n).map fun r => paletteWords s.stream a cw r

theorem clutDimOk_of (n : Nat) (h1 : 1 ≤ n) (h2 : n ≤ 256) : clutDimOk n = true := by
  simp only [clutDimOk, Bool.and_eq_true, decide_eq_true_eq]
  omega

/-- A palette block at CUR with a legal clut whose decoded rows (in tolerant mode, all rows) lie in the
stream: the table and PALDIM hold it, CUR is just past it, and the image follows (rules R167 to R171). -/
theorem readPaletteBlock_inside (s : State) (code : PixelFormat) (p0 cw ch : Nat)
    (hw : s.u16At (s.cur.toNat + 8) = cw) (hh : s.u16At (s.cur.toNat + 10) = ch)
    (h1 : 1 ≤ cw) (h2 : cw ≤ 256) (h3 : 1 ≤ ch) (h4 : ch ≤ 256)
    (hin : s.cur.toNat + 12 + 2 * cw * rowsDecoded s.firstRowOnly ch ≤ s.slen.toNat)
    (htol : s.tolerant = true → s.cur.toNat + 12 + 2 * cw * ch ≤ s.slen.toNat) :
    readPaletteBlock s code p0 =
      readImage (((s.setPalDim (BitVec.ofNat 16 (s.u16At (s.cur.toNat + 4)))
          (BitVec.ofNat 16 (s.u16At (s.cur.toNat + 6))) (BitVec.ofNat 16 cw) (BitVec.ofNat 16 ch)).setPal
            (loadedPalette s.pal s.params.unreadEntry (formatWithPalette code cw == .indexed8) cw
              (s.rowWordsAt (s.cur.toNat + 12) cw (rowsDecoded s.firstRowOnly ch)) s.draws)).setCur
          (s.cur + BitVec.ofNat 64 (12 + 2 * cw * ch)))
        (formatWithPalette code cw) p0 (paletteBase (s.palHeaderAt s.cur.toNat)) := by
  have e : (s.cur + BitVec.ofNat 64 12).toNat = s.cur.toNat + 12 :=
    toNat_add_ofNat s.cur 12 (by have := slen_lt s; omega)
  have hn : rowsDecoded s.firstRowOnly ch * (cw * 2) = 2 * cw * rowsDecoded s.firstRowOnly ch := by ring
  have ht : ¬((s.setCur (s.cur + BitVec.ofNat 64 12)).tolerant &&
      decide (2 * cw * ch > remaining (s.setCur (s.cur + BitVec.ofNat 64 12)).slen.toNat
        (s.setCur (s.cur + BitVec.ofNat 64 12)).cur)) = true := by
    rw [State.setCur_cur, State.setCur_slen, remaining, e, Bool.and_eq_true, decide_eq_true_eq]
    rintro ⟨h, _⟩
    have := htol h
    omega
  simp only [readPaletteBlock, readPalHeader_inside s s.cur (by omega), loadPaletteBlock, hw, hh]
  have ew : (BitVec.ofNat 16 cw).toNat = cw := by rw [BitVec.toNat_ofNat]; omega
  have eh : (BitVec.ofNat 16 ch).toNat = ch := by rw [BitVec.toNat_ofNat]; omega
  simp only [ew, eh, clutDimOk_of cw h1 h2, clutDimOk_of ch h3 h4, Bool.not_true, Bool.false_eq_true,
    if_false]
  rw [if_neg ht, paletteLoad_done _ _ _ _ _ h3]
  · simp only [State.setPalDim_cur, State.setPalDim_params, State.setPalDim_stream, State.setPalDim_draws,
      State.setCur_cur, State.setCur_params, State.setCur_stream, State.setCur_draws, e, add_ofNat_add]
    rw [show s.palHeaderAt s.cur.toNat = ⟨BitVec.ofNat 16 (s.u16At (s.cur.toNat + 4)),
      BitVec.ofNat 16 (s.u16At (s.cur.toNat + 6)), BitVec.ofNat 16 cw, BitVec.ofNat 16 ch⟩ by
        rw [State.palHeaderAt, hw, hh]]
    rfl
  · rw [State.setPalDim_cur, State.setPalDim_slen, State.setCur_cur, State.setCur_slen, e]
    change _ + rowsDecoded s.firstRowOnly ch * (cw * 2) ≤ _
    omega

/-- The declared length of a candidate up to its image header (rules R106, R183). -/
theorem paletteBase_eq (s : State) (a : Nat) (hl : s.clutLegal a) :
    paletteBase (s.palHeaderAt a) = 8 + (12 + 2 * s.u16At (a + 8) * s.u16At (a + 10)) := by
  simp only [paletteBase, clutCount, State.palHeaderAt, toNat_ofNat_u16At]
  rw [if_neg (by have := hl.2.1; omega), if_neg (by have := hl.2.2.2; omega)]

/-- The state after the load of the palette block at CUR was cut short: PALDIM is written, PAL_VALID 0. -/
def State.brokenAt (s : State) : State :=
  let q := s.cur.toNat
  (s.setPalDim (BitVec.ofNat 16 (s.u16At (q + 4))) (BitVec.ofNat 16 (s.u16At (q + 6)))
      (BitVec.ofNat 16 (s.u16At (q + 8))) (BitVec.ofNat 16 (s.u16At (q + 10)))).setPal
    (brokenPalette s.pal (s.rowsAsked q) s.draws)

/-- A load cut short changes PALDIM, the table and the draw counter alone. -/
theorem State.brokenAt_eq (s : State) :
    s.brokenAt = { s with
      paldim := s.brokenAt.paldim, pal := s.brokenAt.pal, draws := s.draws + 1 } := rfl
@[simp] theorem State.brokenAt_pal (s : State) :
    s.brokenAt.pal = brokenPalette s.pal (s.rowsAsked s.cur.toNat) s.draws := rfl
@[simp] theorem State.brokenAt_tolerant (s : State) : s.brokenAt.tolerant = s.tolerant := rfl

/-- PALDIM after a load cut short holds the header's fields (rule R171). -/
theorem State.holdsPalDim_brokenAt (s : State) : s.holdsPalDim s.brokenAt s.cur.toNat := by
  have ew : ∀ a, (BitVec.ofNat 16 (s.u16At a)).toNat = s.u16At a := fun a => toNat_ofNat_u16At s a
  have a1 := u16At_lt s (s.cur.toNat + 4)
  have a2 := u16At_lt s (s.cur.toNat + 6)
  have a3 := u16At_lt s (s.cur.toNat + 8)
  simp only [State.holdsPalDim, State.brokenAt, State.setPal_paldim, State.setPalDim, palDimWord,
    append_toNat, ew]
  omega

/-- A legal palette block at CUR whose decoded rows run past the end of the stream, in strict mode (rules R73,
R139): the load is cut short, and the cursor reached lies before the end of the stream. -/
theorem readPaletteBlock_past (s : State) (code : PixelFormat) (p0 : Nat) (hl : s.clutLegal s.cur.toNat)
    (ht : s.tolerant = false) (hin : s.cur.toNat + 12 ≤ s.slen.toNat)
    (hp : s.slen.toNat <
      s.cur.toNat + 12 + 2 * s.u16At (s.cur.toNat + 8) * s.rowsAsked s.cur.toNat) :
    ∃ c, c.toNat ≤ max (s.cur.toNat + 12) s.slen.toNat ∧
      readPaletteBlock s code p0 =
        streamEnded (s.brokenAt.setCur c) p0 c (paletteBase (s.palHeaderAt s.cur.toNat))
          .paletteTruncated := by
  obtain ⟨h1, h2, h3, h4⟩ := hl
  have e : (s.cur + BitVec.ofNat 64 12).toNat = s.cur.toNat + 12 :=
    toNat_add_ofNat s.cur 12 (by have := slen_lt s; omega)
  have hn : s.rowsAsked s.cur.toNat = rowsDecoded s.firstRowOnly (s.u16At (s.cur.toNat + 10)) := rfl
  have hr : rowsDecoded s.firstRowOnly (s.u16At (s.cur.toNat + 10)) * (s.u16At (s.cur.toNat + 8) * 2) =
      2 * s.u16At (s.cur.toNat + 8) * rowsDecoded s.firstRowOnly (s.u16At (s.cur.toNat + 10)) := by ring
  rw [hn] at hp
  obtain ⟨c, hb, hc⟩ := paletteLoad_past
    ((s.setCur (s.cur + BitVec.ofNat 64 12)).setPalDim (BitVec.ofNat 16 (s.u16At (s.cur.toNat + 4)))
      (BitVec.ofNat 16 (s.u16At (s.cur.toNat + 6))) (BitVec.ofNat 16 (s.u16At (s.cur.toNat + 8)))
      (BitVec.ofNat 16 (s.u16At (s.cur.toNat + 10))))
    (formatWithPalette code (s.u16At (s.cur.toNat + 8)) == .indexed8) (s.u16At (s.cur.toNat + 8))
    (s.u16At (s.cur.toNat + 10)) s.firstRowOnly h1 h3
    (by
      rw [State.setPalDim_cur, State.setPalDim_slen, State.setCur_cur, State.setCur_slen, e]
      omega)
  rw [State.setPalDim_cur, State.setPalDim_slen, State.setCur_cur, State.setCur_slen, e] at hb
  have ht' : (s.setCur (s.cur + BitVec.ofNat 64 12)).tolerant = false := ht
  have hf : (s.setCur (s.cur + BitVec.ofNat 64 12)).firstRowOnly = s.firstRowOnly := rfl
  refine ⟨c, hb, ?_⟩
  simp only [readPaletteBlock, readPalHeader_inside s s.cur hin, loadPaletteBlock, toNat_ofNat_u16At,
    clutDimOk_of _ h1 h2, clutDimOk_of _ h3 h4, Bool.not_true, ht', hf, Bool.false_and,
    Bool.false_eq_true, if_false, hc]
  rfl

/-! ### A row with a palette block -/

/-- The format of a row with a palette block. -/
def formatOfRows (fmt8 : Bool) : PixelFormat := if fmt8 then .indexed8 else .indexed4

theorem formatWithPalette_eq (code : PixelFormat) (cw : Nat) :
    formatWithPalette code cw = formatOfRows (rowsOf256 code cw) := by
  cases code <;> simp [formatWithPalette, modeFromClut, formatOfRows, rowsOf256]

/-- The state after the palette block at CUR is loaded, with CUR just past it. -/
def State.loadedAt (s : State) (code : PixelFormat) : State :=
  let q := s.cur.toNat
  let cw := s.u16At (q + 8)
  ((s.setPalDim (BitVec.ofNat 16 (s.u16At (q + 4))) (BitVec.ofNat 16 (s.u16At (q + 6)))
      (BitVec.ofNat 16 cw) (BitVec.ofNat 16 (s.u16At (q + 10)))).setPal
    (loadedPalette s.pal s.params.unreadEntry (rowsOf256 code cw) cw
      (s.rowWordsAt (q + 12) cw (s.rowsAsked q)) s.draws)).setCur
    (s.cur + BitVec.ofNat 64 (12 + 2 * cw * s.u16At (q + 10)))

/-- A load changes CUR, PALDIM, the table and the draw counter alone. -/
theorem State.loadedAt_eq (s : State) (code : PixelFormat) :
    s.loadedAt code = { s with
      cur := (s.loadedAt code).cur, paldim := (s.loadedAt code).paldim, pal := (s.loadedAt code).pal,
      draws := s.draws + 1 } := rfl

@[simp] theorem State.loadedAt_stream (s : State) (code : PixelFormat) :
    (s.loadedAt code).stream = s.stream := rfl
@[simp] theorem State.loadedAt_slen (s : State) (code : PixelFormat) : (s.loadedAt code).slen = s.slen := rfl
@[simp] theorem State.loadedAt_tolerant (s : State) (code : PixelFormat) :
    (s.loadedAt code).tolerant = s.tolerant := rfl
@[simp] theorem State.loadedAt_maxres (s : State) (code : PixelFormat) :
    (s.loadedAt code).maxres = s.maxres := rfl
@[simp] theorem State.loadedAt_params (s : State) (code : PixelFormat) :
    (s.loadedAt code).params = s.params := rfl
@[simp] theorem State.loadedAt_u16At (s : State) (code : PixelFormat) (a : Nat) :
    (s.loadedAt code).u16At a = s.u16At a := rfl

/-- CUR after a load whose header lies in the stream is where the image header follows. -/
theorem State.loadedAt_cur (s : State) (code : PixelFormat) (hl : s.clutLegal s.cur.toNat)
    (h : s.cur.toNat + 12 ≤ s.slen.toNat) :
    (s.loadedAt code).cur.toNat = s.imageAfter s.cur.toNat := by
  have hs := s.slen.isLt
  have hb : 2 * s.u16At (s.cur.toNat + 8) * s.u16At (s.cur.toNat + 10) ≤ 2 * 256 * 256 :=
    Nat.mul_le_mul (by have := hl.2.1; omega) hl.2.2.2
  exact (toNat_add_ofNat s.cur _ (by omega)).trans (Nat.add_assoc _ _ _).symm

/-- A load holds the palette block that the rules of the palette decoder describe. -/
theorem State.holdsPalette_loadedAt (s : State) (code : PixelFormat) (hl : s.clutLegal s.cur.toNat) :
    s.holdsPalette (s.loadedAt code) s.cur.toNat (rowsOf256 code (s.u16At (s.cur.toNat + 8))) := by
  obtain ⟨h1, h2, h3, h4⟩ := hl
  have hn : s.rowsAsked s.cur.toNat ≤ 256 := by unfold State.rowsAsked; split <;> omega
  have ew : ∀ a, (BitVec.ofNat 16 (s.u16At a)).toNat = s.u16At a := fun a => toNat_ofNat_u16At s a
  have hk : ∀ fmt8 : Bool, rowCols fmt8 (s.u16At (s.cur.toNat + 8)) ≤ 256 := fun fmt8 => by
    unfold rowCols; omega
  refine ⟨?_, rfl, rfl, ?_, ?_, ?_, fun r hr => ?_, fun r hr => ⟨?_, fun c hc => ?_⟩⟩
  · have a1 := u16At_lt s (s.cur.toNat + 4)
    have a2 := u16At_lt s (s.cur.toNat + 6)
    simp only [State.holdsPalDim, State.loadedAt, State.setCur_paldim, State.setPal_paldim,
      State.setPalDim, palDimWord, append_toNat, ew]
    omega
  · simp only [State.loadedAt, State.setCur_pal, State.setPal_pal, loadedPalette, State.rowWordsAt,
      List.length_map, List.length_range, BitVec.toNat_ofNat]
    omega
  · have := hk (rowsOf256 code (s.u16At (s.cur.toNat + 8)))
    change (BitVec.ofNat 9 (rowCols (rowsOf256 code (s.u16At (s.cur.toNat + 8))) _)).toNat = rowCols _ _
    rw [BitVec.toNat_ofNat]
    omega
  · simp only [State.loadedAt, State.setCur_pal, State.setPal_pal, loadedPalette, State.rowWordsAt,
      List.map_map, List.any_map]
    congr 1
    funext r
    exact rowHasStp_paletteWords s _ _ _ r
  · simp only [State.loadedAt, State.setCur_pal, State.setPal_pal, palRowFlag_loadedPalette,
      State.rowWordsAt, List.getElem?_map,
      List.getElem?_eq_none (show (List.range (s.rowsAsked s.cur.toNat)).length ≤ r by simpa using hr),
      Option.map_none]
  · simp only [State.loadedAt, State.setCur_pal, State.setPal_pal, palRowFlag_loadedPalette,
      State.rowWordsAt, List.getElem?_map, List.getElem?_range hr, Option.map_some]
    exact rowHasStp_paletteWords s _ _ _ r
  · have := getElem?_expandRow s (rowsOf256 code (s.u16At (s.cur.toNat + 8))) (s.cur.toNat + 12)
      (s.u16At (s.cur.toNat + 8)) r c h1 hc
    simp only [palCell, State.loadedAt, State.setCur_pal, State.setPal_pal, loadedPalette,
      State.rowWordsAt, List.getElem?_map, List.getElem?_range hr, Option.map_some, this]
    rfl

/-- Each row with a palette block whose decoded rows (in tolerant mode, all rows) lie in the stream: the load,
then the image (rules R167 to R173). -/
theorem exec_paletteRow_loaded (s : State) (code : PixelFormat) (hi : BitVec 28)
    (hl : s.clutLegal s.cur.toNat)
    (hin : s.cur.toNat + 12 + 2 * s.u16At (s.cur.toNat + 8) * s.rowsAsked s.cur.toNat ≤ s.slen.toNat)
    (ht : s.tolerant = true → s.imageAfter s.cur.toNat ≤ s.slen.toNat) :
    exec (paletteRow code hi) s =
      .next (readImage (s.loadedAt code) (formatOfRows (rowsOf256 code (s.u16At (s.cur.toNat + 8))))
        (s.cur.toNat - 8)
        (8 + (12 + 2 * s.u16At (s.cur.toNat + 8) * s.u16At (s.cur.toNat + 10)))) := by
  have e : exec (paletteRow code hi) s = .next (readPaletteBlock s code (candidateOf s)) := by
    cases code <;> rfl
  have hf : (formatOfRows (rowsOf256 code (s.u16At (s.cur.toNat + 8))) == PixelFormat.indexed8) =
      rowsOf256 code (s.u16At (s.cur.toNat + 8)) := by
    cases rowsOf256 code (s.u16At (s.cur.toNat + 8)) <;> rfl
  rw [e, readPaletteBlock_inside s code _ _ _ rfl rfl hl.1 hl.2.1 hl.2.2.1 hl.2.2.2 hin ht,
    formatWithPalette_eq, hf, paletteBase_eq s _ hl]
  rfl

/-- A candidate that ends after its load keeps it, wherever CUR stood. -/
theorem endCandidate_endsLoaded (s : State) (code : PixelFormat) (c : U64) (p0 : Nat) (reached : U64)
    (ldecl hi : Nat) (code' : Code) (reason : Reason) (hl : s.clutLegal s.cur.toNat) (hp : p0 < 2 ^ 64)
    (h1 : reached.toNat ≤ hi) (h2 : p0 + ldecl ≤ hi) :
    s.candidateEndsLoaded (endCandidate ((s.loadedAt code).setCur c) p0 reached ldecl code' reason)
      s.cur.toNat (rowsOf256 code (s.u16At (s.cur.toNat + 8))) p0 hi code' reason := by
  have h := endCandidate_cursor ((s.loadedAt code).setCur c) p0 reached ldecl code' reason hp
  refine ⟨?_, s.holdsPalette_loadedAt code hl, h.1, by omega⟩
  rw [State.loadedAt_eq]
  rfl

/-! ### The pixels of a row -/

/-- Pixel i of a Direct16 row (rule R204). -/
theorem rowAt_direct16 (s : State) (w a i : Nat) (h : i < w) :
    (rowAt s .direct16 w a).color[i]? = some (expand16 (BitVec.ofNat 16 (s.u16At (a + 2 * i)))).color ∧
      (rowAt s .direct16 w a).mask[i]? =
        some (flagByte (rawStp (BitVec.ofNat 16 (s.u16At (a + 2 * i))))) := by
  simp [rowAt, h, State.u16At, Nat.mul_comm i 2]

/-- Pixel i of a Direct24 row (rule R205). -/
theorem rowAt_direct24 (s : State) (w a i : Nat) (h : i < w) :
    (rowAt s .direct24 w a).color[i]? =
      some ⟨255, s.u8At (a + 3 * i), s.u8At (a + 3 * i + 1), s.u8At (a + 3 * i + 2)⟩ := by
  simp [rowAt, h, State.u8At, Nat.mul_comm i 3]

/-- Pixel i of an Indexed8 row (rules R202, R203). -/
theorem rowAt_indexed8 (s : State) (w a i : Nat) (h : i < w) :
    (rowAt s .indexed8 w a).color[i]? = some (palCell s.pal 0 (s.u8At (a + i)).toNat).color ∧
      (rowAt s .indexed8 w a).mask[i]? =
        some (maskOf s.params.indexedMaskSource (s.u8At (a + i))
          (palCell s.pal 0 (s.u8At (a + i)).toNat).stp) := by
  simp [rowAt, indexedRow, h, State.u8At]

/-- The indices of the bytes of an Indexed4 row (rule R110). -/
theorem getElem?_flatMap_nibbles (bs : List Byte) (i : Nat) :
    (bs.flatMap nibbles)[i]? = bs[i / 2]?.map fun b =>
      if i % 2 = 0 then BitVec.ofNat 8 (b.toNat % 16) else BitVec.ofNat 8 (b.toNat / 16) := by
  induction bs generalizing i with
  | nil => simp
  | cons b t ih =>
    have lo : (b.extractLsb' 0 4).setWidth 8 = BitVec.ofNat 8 (b.toNat % 16) := by
      apply BitVec.eq_of_toNat_eq
      simp
    have hi : (b.extractLsb' 4 4).setWidth 8 = BitVec.ofNat 8 (b.toNat / 16) := by
      have := b.isLt
      apply BitVec.eq_of_toNat_eq
      simp [Nat.shiftRight_eq_div_pow]
      omega
    match i with
    | 0 => simp [nibbles, lo]
    | 1 => simp [nibbles, hi]
    | i + 2 =>
      have e : (i + 2) / 2 = i / 2 + 1 := by omega
      have e' : (i + 2) % 2 = i % 2 := by omega
      rw [e, e', List.getElem?_cons_succ, ← ih i]
      simp [nibbles]

/-- Pixel i of an Indexed4 row (rules R110, R201, R202). -/
theorem rowAt_indexed4 (s : State) (w a i : Nat) (h : i < w) (hw : w % 2 = 0) :
    (rowAt s .indexed4 w a).color[i]? = some (palCell s.pal 0 (s.nibbleAt a i)).color ∧
      (rowAt s .indexed4 w a).mask[i]? =
        some (maskOf s.params.indexedMaskSource (BitVec.ofNat 8 (s.nibbleAt a i))
          (palCell s.pal 0 (s.nibbleAt a i)).stp) := by
  have hi : i / 2 < w / 2 := by omega
  have hb := (s.u8At (a + i / 2)).isLt
  have e : (((List.range (w / 2)).map fun i => memByte s.stream (a + i * 1)).flatMap nibbles)[i]? =
      some (BitVec.ofNat 8 (s.nibbleAt a i)) := by
    rw [getElem?_flatMap_nibbles]
    simp only [List.getElem?_map, List.getElem?_range hi, Option.map_some, Nat.mul_one, State.nibbleAt,
      State.u8At]
    split <;> rfl
  have ht : (BitVec.ofNat 8 (s.nibbleAt a i)).toNat = s.nibbleAt a i := by
    rw [BitVec.toNat_ofNat, Nat.mod_eq_of_lt]
    unfold State.nibbleAt
    split <;> omega
  simp only [rowAt, indexedRow, List.getElem?_map, e, Option.map_some, ht, and_self]

/-- Cell (j, i) of a decoded texture is pixel i of its row j. -/
theorem cellAt_decodedTexture (fmt : PixelFormat) (hd : ImgHeader) (h : Nat) (f : Nat → PixelRow) (j i : Nat)
    (hj : j < h) :
    cellAt (decodedTexture fmt hd ((List.range h).map f)).color j i = (f j).color[i]? ∧
      cellAt (((List.range h).map f).map (·.mask)) j i = (f j).mask[i]? := by
  simp [decodedTexture, cellAt, hj]

/-- The placement fields of a decoded texture (rules R176, R181). -/
theorem decodedTexture_place (fmt : PixelFormat) (hd : ImgHeader) (rows : List PixelRow) :
    (decodedTexture fmt hd rows).page = hd.oy.toNat / 256 * 16 + hd.ox.toNat / 64 ∧
      (decodedTexture fmt hd rows).x = hd.ox.toNat % 64 * 16 / bitsPerPixel fmt ∧
      (decodedTexture fmt hd rows).y = hd.oy.toNat % 256 := by
  refine ⟨rfl, ?_, ?_⟩
  · simp only [decodedTexture, localX, originPageX]
    congr 2
    omega
  · simp only [decodedTexture, localY, originPageY]
    omega

end Sys2Proof.Machine
end

