-- ==== Sys2Proof/Tests/Slice0.lean ====
section
/-! SUPPORT. The tests: ill-formed terms, words written out from the encodings of the spec, single steps with
the results of spec/95_test_vectors.md, and a witness for the hypotheses of each statement. -/

namespace Sys2Proof.Tests

open Sys2Proof.Machine

/-! ### Well-formedness -/

theorem test_wf_refuses_format_2 : (Instr.readPalette 2 false 16 1).wf = false := by decide
theorem test_wf_refuses_format_3 : (Instr.readPalette 3 true 16 1).wf = false := by decide
theorem test_wf_admits_format_1 : (Instr.readPalette 1 true 16 1).wf = true := by decide

/-! ### Decoding words written out from rules R102, R114 and R115 -/

/-- A texture of one cell (FF010203), Direct24, at the last cell of page 17. -/
def tex17 : Texture :=
  { emptyTexture with
    width := 1, height := 1, x := 255, y := 255, page := 17, color := [[⟨255, 1, 2, 3⟩]] }

/-- A command word with its two arguments and no payload. -/
def command (cmd : U32) (arg0 arg1 : U64) : Encoded := .command ⟨cmd, arg0, arg1, .none⟩

theorem test_decode_setup : decode (command 0x00000001 0 0) = .ok .setup := by decide
theorem test_decode_decodeTim : decode (command 0x00000002 0 0) = .ok .decodeTim := by decide
theorem test_decode_readPalette :
    decode (command 0x00004103 256 2) = .ok (.readPalette 1 true 256 2) := by decide
theorem test_decode_getModeFromClut : decode (command 0x00000004 16 0) = .ok (.getModeFromClut 16) := by
  decide
theorem test_decode_draw :
    decode (.command ⟨0x00000110, 0, 0, .texture tex17⟩) = .ok (.draw true tex17) := by decide
theorem test_decode_clear : decode (command 0x00003E11 0 0) = .ok (.clear 31) := by decide
theorem test_decode_clearAll : decode (command 0x00000012 0 0) = .ok .clearAll := by decide
theorem test_decode_updatePage : decode (command 0x00002313 0 0) = .ok (.updatePage 17 true) := by decide
theorem test_decode_updateAllPages : decode (command 0x00000114 0 0) = .ok (.updateAllPages true) := by
  decide
theorem test_decode_isUsed : decode (command 0x00002215 0 0) = .ok (.isUsed 17) := by decide
theorem test_decode_containsPage :
    decode (command 0x00000016 0xFFFFFFFFFFFFFFFF 0) = .ok (.containsPage 0xFFFFFFFFFFFFFFFF) := by decide
theorem test_decode_clampPage : decode (command 0x00000017 40 0) = .ok (.clampPage 40) := by decide
theorem test_decode_clampCoord : decode (command 0x00000018 300 0) = .ok (.clampCoord 300) := by decide
theorem test_decode_exportPageColor : decode (command 0x00002220 0 0) = .ok (.exportPageColor 17) := by
  decide
theorem test_decode_exportPageStp : decode (command 0x00002221 0 0) = .ok (.exportPageStp 17) := by decide
theorem test_decode_exportTextureGrid :
    decode (.command ⟨0x00000022, 1, 0, .textures [tex17]⟩) = .ok (.exportTextureGrid 1 [tex17]) := by
  decide
theorem test_decode_exportPageTiled :
    decode (command 0x00000023 0x0004000500020003 0x0000000700010006) =
      .ok (.exportPageTiled 0 3 2 5 4 6 1 7) := by decide
theorem test_decode_readReg : decode (command 0x00000C30 0 0) = .ok (.readReg 6) := by decide
theorem test_decode_writeReg : decode (command 0x00000831 7 0) = .ok (.writeReg 4 7) := by decide
theorem test_decode_timIndexed4 : decode (.timFlags 0x00000010) = .ok (.timIndexed4 1) := by decide
theorem test_decode_timIndexed8 : decode (.timFlags 0x00000001) = .ok (.timIndexed8 0) := by decide
theorem test_decode_timDirect16 : decode (.timFlags 0x00000002) = .ok (.timDirect16 0) := by decide
theorem test_decode_timDirect24 : decode (.timFlags 0x80000003) = .ok (.timDirect24 0x8000000) := by decide
theorem test_decode_timMixed : decode (.timFlags 0x00000004) = .ok (.timMixed 0) := by decide
theorem test_decode_timInvalid5 : decode (.timFlags 0x00000005) = .ok (.timInvalid5 0) := by decide
theorem test_decode_timInvalid6 : decode (.timFlags 0x00000006) = .ok (.timInvalid6 0) := by decide
theorem test_decode_timInvalid7 : decode (.timFlags 0x00000007) = .ok (.timInvalid7 0) := by decide
theorem test_decode_timIndexed4Pal : decode (.timFlags 0x00000008) = .ok (.timIndexed4Pal 0) := by decide
theorem test_decode_timIndexed8Pal : decode (.timFlags 0x00000009) = .ok (.timIndexed8Pal 0) := by decide
theorem test_decode_timDirect16Pal : decode (.timFlags 0x0000000A) = .ok (.timDirect16Pal 0) := by decide
theorem test_decode_timDirect24Pal : decode (.timFlags 0x0000000B) = .ok (.timDirect24Pal 0) := by decide
theorem test_decode_timMixedPal : decode (.timFlags 0x0000000C) = .ok (.timMixedPal 0) := by decide
theorem test_decode_timInvalid5Pal : decode (.timFlags 0x0000000D) = .ok (.timInvalid5Pal 0) := by decide
theorem test_decode_timInvalid6Pal : decode (.timFlags 0x0000000E) = .ok (.timInvalid6Pal 0) := by decide
theorem test_decode_timInvalid7Pal : decode (.timFlags 0xFFFFFFFF) = .ok (.timInvalid7Pal 0xFFFFFFF) := by
  decide

/-! Illegal encodings (section 2.10 of the vectors). -/

theorem test_decode_undefined_opcode : decode (command 0x00000005 0 0) = .error .badOpcode := by decide
theorem test_decode_reserved_bit : decode (command 0x00010001 0 0) = .error .reservedBits := by decide
theorem test_decode_page_must_be_0 : decode (command 0x00000202 0 0) = .error .reservedBits := by decide
theorem test_decode_bad_format : decode (command 0x00008003 0 0) = .error .badFormat := by decide

/-! The host's two questions about a word of the opcode table. -/

theorem test_table_word_command : decodeTableWord 32 0x00000031 = some (.writeReg 0 0) := by decide
theorem test_table_word_flags : decodeTableWord 8 0x0A = some (.timDirect16Pal 0) := by decide

/-- STATUS after a step or an instruction; none where it does not go on. -/
def statusOf (o : Out) : Option (BitVec 16) :=
  match o with
  | .next t => some t.status
  | _ => none

/-- CUR after a step or an instruction. -/
def curOf (o : Out) : Option U64 :=
  match o with
  | .next t => some t.cur
  | _ => none

/-- The result of the response after a step or an instruction. -/
def resultOf (o : Out) : Option Result :=
  match o with
  | .next t => t.response.map (·.result)
  | _ => none

/-- The one field of the state after a step or an instruction that `f` names. -/
def after {α : Type} (o : Out) (f : State → α) : Option α :=
  match o with
  | .next t => some (f t)
  | _ => none

theorem test_fetch_writeReg : statusOf (step (State.reset.withFetchWord 32 0x00000031)) = some 0x0001 := by
  decide
theorem test_fetch_fast_reject : curOf (step (State.reset.withFetchWord 8 0x04)) = some 8 := by decide

/-! ### Single steps, with the results of spec/95_test_vectors.md -/

/-- The stream bytes of a list of numbers. -/
def bytes (l : List Nat) : List Byte := l.map (BitVec.ofNat 8)

/-- After reset with CUR, MAXRES, BGCOLOR and BGSTP written and the store set up, over a stream. -/
def fresh (l : List Nat) : State :=
  { State.reset.loadBytes (bytes l) with
    curWritten := true, maxres := 1024, maxresWritten := true, bgcolor := 0xFF808080,
    bgcolorWritten := true, bgstpWritten := true, pagesReady := true }

/-- The same with CUR at 8, where the rows of the flags word start. -/
def at8 (l : List Nat) : State := { fresh l with cur := 8 }

/-- A Direct16 container of one pixel: image origin, stride, height, pixel bytes. -/
def d16 (ox oy s h lo hi : Nat) : List Nat :=
  [0x10, 0, 0, 0, 2, 0, 0, 0, 0x0E, 0, 0, 0, ox % 256, ox / 256, oy % 256, oy / 256, s, 0, h, 0, lo, hi]

/-- The container of program P2: Indexed4, clut 16 x 1, origin (70, 300), one word wide, two rows. -/
def p2 : List Nat :=
  [0x10, 0, 0, 0, 8, 0, 0, 0, 0x2C, 0, 0, 0, 0, 0, 0xE0, 1, 16, 0, 1, 0,
    0, 0, 0x1F, 0, 0xE0, 3, 0, 0x7C, 0x1F, 0x80] ++ List.replicate 22 0 ++
  [0x10, 0, 0, 0, 70, 0, 44, 1, 1, 0, 2, 0, 0x10, 0x32, 0x40, 1]

/-- An Indexed8 container: clut 2 x 1 at 8, image header at 24, pixels at 36. -/
def p8 (ox oy st h : Nat) (pixels : List Nat) : List Nat :=
  [0x10, 0, 0, 0, 9, 0, 0, 0, 16, 0, 0, 0, 0, 0, 0xE0, 1, 2, 0, 1, 0, 0x1F, 0x80, 0xE0, 3,
    0, 0, 0, 0, ox % 256, ox / 256, oy % 256, oy / 256, st, 0, h, 0] ++ pixels

/-- Rows of Indexed8 at 4 * ceil(width / 4) bytes. -/
def forced4 (s : State) : State := { s with params := { s.params with idx8RowRule := .forced4 } }

/-- MAXRES = 0 with the comparison of rule R175 read alone. -/
def compareWidth (s : State) : State :=
  { s with maxres := 0, params := { s.params with zeroMaxres := .compareWidth } }

/-- A Direct24 container of two pixels and its padding, two bytes short of it. -/
def d24 : List Nat :=
  [0x10, 0, 0, 0, 3, 0, 0, 0, 0x14, 0, 0, 0, 0, 0, 0, 0, 4, 0, 1, 0, 1, 2, 3, 4, 5, 6]

/-- Section 2.1. -/
theorem test_expand_7FFF : expand16 0x7FFF = ⟨⟨255, 248, 248, 248⟩, 0⟩ := by decide
theorem test_expand_8001 : expand16 0x8001 = ⟨⟨255, 8, 0, 0⟩, 1⟩ := by decide

/-- Section 2.2, basic. -/
theorem test_readPalette_palinfo :
    after (exec (.readPalette 0 false 2 1) (fresh [0x1F, 0, 0, 0x80])) (fun t => palInfo t.pal) =
      some 0x00020015 := by decide
theorem test_readPalette_strict_short :
    statusOf (exec (.readPalette 1 false 256 1) (fresh (List.replicate 20 1))) = some 0x2004 := by decide

/-- A load of one row keeps the flag of row 1 (rules R43, R134). -/
theorem test_row_flags_stay :
    palRowFlag (loadedPalette { Palette.initial with rowStp := [.stored true, .stored true] }
      .maskingBlack false 1 [[0]] 1) 1 = true := by decide

/-- Section 2.3. -/
theorem test_getModeFromClut_256 : resultOf (exec (.getModeFromClut 256) (fresh [])) = some (.bit true) := by
  decide

/-- Section 2.4: tag, version, last page. -/
theorem test_decodeTim_tag : statusOf (exec .decodeTim (fresh (0x11 :: (d16 0 0 1 1 0x1F 0).tail))) =
    some 0x0102 := by decide
theorem test_decodeTim_last_page :
    resultOf (exec .decodeTim (fresh (d16 1023 511 1 1 0xFF 0x7F))) =
      some (.texture ⟨.direct16, 16, 1, 1, 1023, 511, 63, 255, 31, none, [[⟨255, 248, 248, 248⟩]],
        some [[0]], false⟩) := by decide

/-- Section 2.4: an indexed format without a palette, and with a code of 4 or above. -/
theorem test_timIndexed4 : statusOf (exec (.timIndexed4 0) (at8 [])) = some 0x0602 := by decide
theorem test_timIndexed8 : statusOf (exec (.timIndexed8 0) (at8 [])) = some 0x0602 := by decide
theorem test_timMixed : statusOf (exec (.timMixed 0) (at8 [])) = some 0x0302 := by decide
theorem test_timInvalid5 : statusOf (exec (.timInvalid5 0) (at8 [])) = some 0x0302 := by decide
theorem test_timInvalid6 : statusOf (exec (.timInvalid6 0) (at8 [])) = some 0x0302 := by decide
theorem test_timInvalid7 : curOf (exec (.timInvalid7 0) (at8 [])) = some 8 := by decide
theorem test_timMixedPal : statusOf (exec (.timMixedPal 0) (at8 [])) = some 0x0302 := by decide
theorem test_timInvalid5Pal : statusOf (exec (.timInvalid5Pal 0) (at8 [])) = some 0x0302 := by decide
theorem test_timInvalid6Pal : statusOf (exec (.timInvalid6Pal 0) (at8 [])) = some 0x0302 := by decide
theorem test_timInvalid7Pal : curOf (exec (.timInvalid7Pal 0) (at8 [])) = some 8 := by decide

/-- Section 2.4: width over MAXRES, and the page check. -/
theorem test_timDirect16_page : statusOf (exec (.timDirect16 0) (at8 (d16 1024 0 1 1 0x1F 0))) =
    some 0x0B02 := by decide
theorem test_timDirect16_stride : statusOf (exec (.timDirect16 0) (at8 (d16 0 0 0 1 0x1F 0))) =
    some 0x0702 := by decide

/-- Section 2.5: Direct24 with padding past the end of the stream. -/
theorem test_timDirect24_padding : curOf (exec (.timDirect24 0) (at8 d24)) = some 28 := by decide
theorem test_timDirect24_pixels :
    resultOf (exec (.timDirect24 0) (at8 d24)) =
      some (.texture ⟨.direct24, 24, 2, 1, 0, 0, 0, 0, 0, none, [[⟨255, 1, 2, 3⟩, ⟨255, 4, 5, 6⟩]],
        none, false⟩) := by decide

/-- Program P2. -/
theorem test_timIndexed4Pal_texture :
    resultOf (exec (.timIndexed4Pal 0) (at8 p2)) =
      some (.texture ⟨.indexed4, 4, 4, 2, 70, 300, 24, 44, 17, some 0,
        [[⟨0, 0, 0, 0⟩, ⟨255, 248, 0, 0⟩, ⟨255, 0, 248, 0⟩, ⟨255, 0, 0, 248⟩],
          [⟨0, 0, 0, 0⟩, ⟨255, 248, 0, 0⟩, ⟨255, 248, 0, 0⟩, ⟨0, 0, 0, 0⟩]],
        some [[0, 0, 0, 0], [0, 1, 0, 0]], false⟩) := by decide
theorem test_timIndexed4Pal_cursor : curOf (exec (.timIndexed4Pal 0) (at8 p2)) = some 68 := by decide

/-- Code 2 with a palette of width 16 is Indexed4 (rule R168), and a clut width of 0 is refused. -/
theorem test_timDirect16Pal : curOf (exec (.timDirect16Pal 0) (at8 p2)) = some 68 := by decide
theorem test_timDirect24Pal : statusOf (exec (.timDirect24Pal 0) (at8 p2)) = some 0x0001 := by decide
theorem test_timIndexed8Pal_width :
    statusOf (exec (.timIndexed8Pal 0) (at8 (p2.set 16 0))) = some 0x0402 := by decide
/-- Two rows of width 2 under Forced4: four bytes from row to row (rule R178). -/
theorem test_timIndexed8Pal_forced4 :
    resultOf (exec (.timIndexed8Pal 0) (forced4 (at8 (p8 64 256 1 2 [0, 1, 0xAA, 0xBB, 1, 0])))) =
      some (.texture ⟨.indexed8, 8, 2, 2, 64, 256, 0, 0, 17, some 0,
        [[⟨255, 248, 0, 0⟩, ⟨255, 0, 248, 0⟩], [⟨255, 0, 248, 0⟩, ⟨255, 248, 0, 0⟩]],
        some [[1, 0], [0, 1]], false⟩) := by decide

/-- Section 2.7. -/
theorem test_setup : after (exec .setup (fresh [])) (fun t => pageFlags t.pages) =
    some 0xFFFFFFFF00000000 := by decide
theorem test_draw_used :
    after (exec (.draw false tex17) (fresh [])) (fun t => pageFlags t.pages) =
      some 0x0002000000020000 := by decide
theorem test_draw_cell :
    after (exec (.draw false tex17) (fresh [])) (fun t => argb32 (colorCell (t.page 17) 255 255)) =
      some 0xFF010203 := by decide
theorem test_clear : after (exec (.clear 17) (fresh [])) (fun t => argb32 (colorCell (t.page 17) 3 4)) =
    some 0xFF808080 := by decide
theorem test_clearAll : after (exec .clearAll (fresh [])) (fun t => pageFlags t.pages) =
    some 0xFFFFFFFF00000000 := by decide
theorem test_updatePage : resultOf (exec (.updatePage 17 false) (fresh [])) = some (.bit false) := by decide
theorem test_updateAllPages : resultOf (exec (.updateAllPages true) (fresh [])) = some (.int 32) := by decide
theorem test_isUsed : resultOf (exec (.isUsed 17) (fresh [])) = some (.bit false) := by decide
theorem test_containsPage : resultOf (exec (.containsPage 32) (fresh [])) = some (.bit false) := by decide
theorem test_clampPage : resultOf (exec (.clampPage 0xFFFFFFFFFFFFFFFB) (fresh [])) = some (.int 0) := by
  decide
theorem test_clampCoord : resultOf (exec (.clampCoord 300) (fresh [])) = some (.int 255) := by decide

/-- Section 2.8. -/
theorem test_exportTextureGrid :
    resultOf (exec (.exportTextureGrid 1 [tex17]) (fresh [])) =
      some (.colorImage ⟨1, 1, [[⟨255, 1, 2, 3⟩]]⟩) := by decide
theorem test_exportPageTiled :
    resultOf (exec (.exportPageTiled 17 255 255 1 1 2 1 0) (fresh [])) =
      some (.colorImage ⟨2, 1, [[⟨0, 0, 0, 0⟩, ⟨0, 0, 0, 0⟩]]⟩) := by decide
theorem test_exportPageTiled_edge :
    statusOf (exec (.exportPageTiled 17 200 0 57 1 1 1 0) (fresh [])) = some 0x3205 := by decide
theorem test_exportPageColor : statusOf (exec (.exportPageColor 17) State.reset) = some 0x3405 := by decide
theorem test_exportPageStp : statusOf (exec (.exportPageStp 17) State.reset) = some 0x3405 := by decide

/-- Section 2.9. -/
theorem test_readReg_unwritten : statusOf (exec (.readReg 1) State.reset) = some 0x3305 := by decide
theorem test_readReg_cur : resultOf (exec (.readReg 4) (at8 [])) = some (.reg 8) := by decide
theorem test_writeReg_cfg :
    after (exec (.writeReg 0 0xFFFFFFFF) (fresh [])) (fun t => t.cfg) = some 7 := by decide
theorem test_writeReg_wide : statusOf (exec (.writeReg 3 256) (fresh [])) = some 0x3205 := by decide

/-! ### Witnesses: states and operands that meet the hypotheses of each statement

A statement with several clauses has one for each, at a boundary of its range. -/

/-- A state with one pending command. -/
def pending (cmd : U32) (arg0 arg1 : U64) : State :=
  { State.reset with inbox := [.command ⟨cmd, arg0, arg1, .none⟩] }

/-- Tolerant mode. -/
def tolerantly (s : State) : State := { s with cfg := 2 }

theorem witness_DecodeInvertsEncode : (Instr.readPalette 1 true 2 3).wf = true := by decide

theorem witness_IllegalEncodings_undefined :
    (pending 0x00000032 0 0).inbox = [.command ⟨0x00000032, 0, 0, .none⟩] ∧
      0x32 ∉ [1, 2, 3, 4, 16, 17, 18, 19, 20, 21, 22, 23, 24, 32, 33, 34, 35, 48, 49] := by decide
theorem witness_IllegalEncodings_reserved :
    (pending 0x00004031 0 0).inbox = [.command ⟨0x00004031, 0, 0, .none⟩] ∧
      0x31 ∈ [1, 2, 3, 4, 16, 17, 18, 19, 20, 21, 22, 23, 24, 32, 33, 34, 35, 48, 49] ∧
      0x31 ∉ [3] ∧ 0x4031 / 16384 % 4 ≠ 0 := by decide
theorem witness_IllegalEncodings_format :
    (pending 0x00008103 0 0).inbox = [.command ⟨0x00008103, 0, 0, .none⟩] ∧ 0x8103 % 256 = 3 ∧
      ¬(0x8103 / 65536 ≠ 0 ∨ (3 ∉ [3, 16, 19, 20] ∧ 0x8103 / 256 % 2 ≠ 0) ∨
        (3 ∉ [17, 19, 21, 32, 33, 35, 48, 49] ∧ 0x8103 / 512 % 32 ≠ 0) ∨
        (3 ∉ [3] ∧ 0x8103 / 16384 % 4 ≠ 0)) ∧ 2 ≤ 0x8103 / 16384 % 4 := by decide

theorem witness_StepRunsDecodedCommand :
    (pending 0x00000003 2 1).inbox = [.command ⟨0x00000003, 2, 1, .none⟩] ∧
      decode (.command ⟨0x00000003, 2, 1, .none⟩) = .ok (.readPalette 0 false 2 1) ∧
      (Instr.readPalette 0 false 2 1).wf = true := by decide

theorem witness_DecodeTimRunsTheFlagsWord :
    let s := fresh [0x10, 0, 0, 0, 4, 0, 0, 0]
    s.curWritten = true ∧ s.maxresWritten = true ∧ s.cur.toNat + 8 ≤ s.slen.toNat ∧
      s.u16At s.cur.toNat = 0x10 ∧ s.u16At (s.cur.toNat + 2) = 0 := by decide
theorem witness_DecodeTimRunsTheFlagsWord_version :
    let s := { fresh [0x10, 0, 1, 0, 4, 0, 0, 0] with cfg := 1 }
    s.curWritten = true ∧ s.maxresWritten = true ∧ s.cur.toNat + 8 ≤ s.slen.toNat ∧
      s.u16At s.cur.toNat = 0x10 ∧ s.ignoreVersion = true := by decide

theorem witness_StepLoadsStream :
    { State.reset with inbox := [.loadStream [0x10, 0]] }.inbox = [.loadStream [0x10, 0]] ∧
      [0x10, 0].length < 2 ^ 32 := by decide

theorem witness_StepWaits : State.reset.inbox = [] := rfl
theorem witness_StepRefusesOverlongLoads :
    { State.reset with inbox := [.loadStream (List.replicate (2 ^ 32) 0)] }.inbox =
        [.loadStream (List.replicate (2 ^ 32) 0)] ∧
      2 ^ 32 ≤ (List.replicate (2 ^ 32) (0 : Byte)).length :=
  ⟨rfl, by rw [List.length_replicate]⟩

/-- A legal state with a stream loaded and one more load pending. -/
def legal : State := { State.reset.loadBytes (bytes [0x10, 0]) with inbox := [.loadStream [1]] }

theorem witness_StepKeepsLegal : legal.Legal ∧ after (step legal) (fun t => t.slen) = some 1 :=
  ⟨⟨by decide, fun p => by fin_cases p <;> decide, by unfold State.cfgLegal; decide,
    ⟨by decide, fun h => absurd h (by decide)⟩, fun h => absurd h (by decide), rfl⟩, by decide⟩

/-- A store that is set up, page 0 clean with its event, every other page modified; a DRAW is pending. -/
def coherent : State :=
  { fresh [] with
    pages := (Vector.replicate 32 { Page.initial with modified := true }).set 0 Page.initial
    uploads := [⟨0, [], []⟩]
    inbox := [.command ⟨0x00000010, 0, 0, .texture tex17⟩] }

theorem witness_StepKeepsConsumerCoherent :
    coherent.consumerCoherent ∧ statusOf (step coherent) = some 0x0001 :=
  ⟨fun _ _ p => by fin_cases p <;> decide, by decide⟩

theorem witness_ParamsNeverChange : statusOf (step (pending 0x00000001 0 0)) = some 0x3305 := by decide

theorem witness_IllegalCommandChangesOnlyStatus :
    after (exec (.readReg 10) (fresh [])) (fun t => t.response) =
      some (some ⟨.illegalCommand, .badRegister, .none⟩) := by decide
theorem witness_IllegalCommandChangesOnlyStatus_step :
    (pending 0x00010001 0 0).inbox = [.command ⟨0x00010001, 0, 0, .none⟩] ∧
      after (step (pending 0x00010001 0 0)) (fun t => t.response) =
        some (some ⟨.illegalCommand, .reservedBits, .none⟩) := by decide

theorem witness_PageCommandsNeedSetup : State.reset.pagesReady = false := rfl

theorem witness_SetupInitialisesEveryPage :
    (fresh []).bgcolorWritten = true ∧ (fresh []).bgstpWritten = true := by decide
theorem witness_SetupInitialisesEveryPage_unwritten :
    { fresh [] with bgstpWritten := false }.bgstpWritten = false := by decide

theorem wellFormed_tex17 : WellFormedTexture tex17 := by
  refine ⟨⟨rfl, by decide⟩, rfl, by decide, rfl, by decide⟩

/-- A Direct16 texture of 2 x 1 pixels whose second column lies off page 31. -/
def tex31 : Texture :=
  { emptyTexture with
    fmt := .direct16, bpp := 16, width := 2, height := 1, x := 255, y := 0, page := 31
    color := [[⟨255, 8, 0, 0⟩, ⟨0, 0, 0, 0⟩]], mask := some [[1, 0]] }

theorem wellFormed_tex31 : WellFormedTexture tex31 := by
  refine ⟨⟨rfl, by decide⟩, ⟨[[1, 0]], rfl, rfl, by decide⟩, by decide, rfl, by decide⟩

theorem witness_DrawCompositesTheTexture :
    (fresh []).pagesReady = true ∧ WellFormedTexture tex31 ∧ (30 : Fin 32).val ≠ tex31.page ∧
      (31 : Fin 32).val = tex31.page ∧ coveringPixel tex31 255 0 = some ⟨255, 8, 0, 0⟩ ∧
      coveringPixel tex31 254 0 = none :=
  ⟨rfl, wellFormed_tex31, by decide, by decide, by decide, by decide⟩

/-- The same texture as a page, which is not well formed. -/
def texPage : Texture := { tex31 with isPage := true }

theorem witness_BadTexturesAreRefused :
    ¬WellFormedTexture texPage ∧ (fresh []).pagesReady = true ∧ texPage ∈ [tex31, texPage] :=
  ⟨fun h => by have := h.2.2.2.1; revert this; decide, rfl, by decide⟩

theorem witness_DecodedTexturesAreWellFormed :
    after (exec .decodeTim (fresh (d16 0 0 1 1 0x1F 0x80))) (fun t => t.response) =
      some (some ⟨.ok, .none, .texture ⟨.direct16, 16, 1, 1, 0, 0, 0, 0, 0, none, [[⟨255, 248, 0, 0⟩]],
        some [[1]], false⟩⟩) := by decide

theorem witness_ClearResetsOnePage :
    (fresh []).pagesReady = true ∧ (31 : Fin 32).val = (31 : BitVec 5).toNat ∧
      (0 : Fin 32).val ≠ (31 : BitVec 5).toNat := by decide

theorem witness_ClearAllIsEveryClear :
    (fresh []).pagesReady = true ∧ ∀ p, p ∈ (List.finRange 32).map fun i => BitVec.ofNat 5 (31 - i.val) := by
  decide

theorem witness_UpdatePageUploads_modified :
    coherent.pagesReady = true ∧ (31 : Fin 32).val = (31 : BitVec 5).toNat ∧
      (coherent.page 31).modified = true := by decide
theorem witness_UpdatePageUploads_clean :
    coherent.pagesReady = true ∧ (0 : Fin 32).val = (0 : BitVec 5).toNat ∧
      (coherent.page 0).modified = false := by decide

theorem witness_UpdateAllPagesInOrder : coherent.pagesReady = true := rfl

theorem witness_IsUsedAnswers :
    (fresh []).pagesReady = true ∧ (31 : Fin 32).val = (31 : BitVec 5).toNat := by decide

theorem witness_DrawsToDistinctPagesCommute :
    (fresh []).pagesReady = true ∧ WellFormedTexture tex17 ∧ WellFormedTexture tex31 ∧
      tex17.page ≠ tex31.page :=
  ⟨rfl, wellFormed_tex17, wellFormed_tex31, by decide⟩

theorem witness_OnlyUpdatesEmitUploads :
    statusOf (exec .setup (fresh [])) = some 0x0001 ∧ (∀ p f, Instr.setup ≠ .updatePage p f) ∧
      ∀ f, Instr.setup ≠ .updateAllPages f :=
  ⟨by decide, by simp, by simp⟩

/-- A page whose first cell is opaque red, its side-band 1. -/
def redPage : Page :=
  { color := [(0, ⟨255, 248, 0, 0⟩), (1, ⟨0, 0, 0, 0⟩)], stp := [(0, 1), (1, 0)], used := true,
    modified := false }

theorem witness_EqualContentsAreEqualPages :
    pageCanonical redPage = true ∧ redPage.used = redPage.used ∧
      ∀ x y, x < 256 → y < 256 →
        colorCell redPage x y = colorCell redPage x y ∧ stpCell redPage x y = stpCell redPage x y :=
  ⟨by decide, rfl, fun _ _ _ _ => ⟨rfl, rfl⟩⟩

theorem witness_PageExportsReturnTheRegions :
    (fresh []).pagesReady = true ∧ (17 : Fin 32).val = (17 : BitVec 5).toNat := by decide

theorem witness_TiledExport_legal :
    (fresh []).pagesReady = true ∧ (17 : Fin 32).val = (17 : BitVec 5).toNat ∧ (0 : U32) = 0 ∧
      (1 : U16) ≠ 0 ∧ (255 : U16).toNat + (1 : U16).toNat ≤ 256 := by decide
theorem witness_TiledExport_past_the_edge :
    (fresh []).pagesReady = true ∧ (17 : Fin 32).val = (17 : BitVec 5).toNat ∧
      ¬(256 : U16).toNat + (1 : U16).toNat ≤ 256 := by decide

theorem witness_GridExport_refused :
    ([] : List Texture).length = 0 ∧ (2 : U64).toNat > [tex17].length := by decide
theorem witness_GridExport :
    0 < (1 : U64).toNat ∧ (1 : U64).toNat ≤ [tex17].length ∧ ∀ tex ∈ [tex17], WellFormedTexture tex :=
  ⟨by decide, by decide, fun _ h => by rw [List.mem_singleton.1 h]; exact wellFormed_tex17⟩

theorem witness_ExportsAreReadOnly :
    (∃ p, Instr.exportPageStp 31 = .exportPageStp p) ∧
      statusOf (exec (.exportPageStp 31) State.reset) = some 0x3405 :=
  ⟨⟨31, rfl⟩, by decide⟩

theorem witness_ReadReg_number : 10 ≤ (10 : BitVec 5).toNat := by decide
theorem witness_ReadReg_pageflags : (9 : BitVec 5) = 9 ∧ State.reset.pagesReady = false := by decide
theorem witness_ReadReg_unwritten : State.reset.maxresWritten = false ∧ State.reset.bgcolorWritten = false ∧
    State.reset.bgstpWritten = false ∧ State.reset.curWritten = false := by decide
theorem witness_ReadReg_values :
    (fresh []).maxresWritten = true ∧ (fresh []).bgcolorWritten = true ∧
      (fresh []).bgstpWritten = true ∧ (fresh []).curWritten = true ∧ (fresh []).pagesReady = true := by decide

theorem witness_WriteReg_number : 10 ≤ (10 : BitVec 5).toNat := by decide
theorem witness_WriteReg_read_only :
    5 ≤ (5 : BitVec 5).toNat ∧ (5 : BitVec 5).toNat < 10 ∧ 5 ≤ (9 : BitVec 5).toNat ∧
      (9 : BitVec 5).toNat < 10 := by decide
theorem witness_WriteReg_wide :
    (2 : BitVec 5).toNat ≤ 2 ∧ 2 ^ 32 ≤ (0x100000000 : U64).toNat ∧ 2 ^ 8 ≤ (0x100 : U64).toNat := by decide
theorem witness_WriteReg_fits :
    (0xFFFFFFFF : U64).toNat < 2 ^ 32 ∧ (0xFF : U64).toNat < 2 ^ 8 := by decide

theorem witness_ExpandedEntries : (0x8000 : U16) ≠ 0 := by decide

theorem witness_ReadPaletteLoadsTheRows :
    let s := fresh (List.replicate 8 0x1F)
    s.curWritten = true ∧ 1 ≤ (2 : U64).toNat ∧ (2 : U64).toNat ≤ 256 ∧
      s.cur.toNat + 2 * (2 : U64).toNat * (2 : U64).toNat ≤ s.slen.toNat := by decide
theorem witness_ReadPaletteLoadsTheRows_first :
    let s := fresh (List.replicate 4 0x1F)
    s.curWritten = true ∧ s.tolerant = false ∧ (256 : U64).toNat ≤ 256 ∧
      s.cur.toNat + 2 * (2 : U64).toNat * 1 ≤ s.slen.toNat := by decide

/-- A table with the flags of rows 0 and 1 stored. -/
def flagged (s : State) : State :=
  { s with pal := { s.pal with rowStp := [.stored true, .stored true] } }
/-- Row 1 is past a load of the first row only. -/
theorem witness_ReadPaletteLoadsTheRows_other_row :
    let s := flagged (fresh (List.replicate 4 0x1F))
    s.curWritten = true ∧ s.tolerant = false ∧ s.cur.toNat + 2 * (2 : U64).toNat * 1 ≤ s.slen.toNat ∧
      after (exec (.readPalette 0 true 2 2) s) (fun t => (palRowFlag t.pal 0, palRowFlag t.pal 1)) =
        some (false, true) := by decide
theorem witness_ReadPaletteStrictStreamEnd_other_row :
    let s := flagged (fresh [0x1F])
    s.curWritten = true ∧ s.tolerant = false ∧ s.cur.toNat + 2 * (2 : U64).toNat * 1 > s.slen.toNat ∧
      after (exec (.readPalette 0 true 2 2) s) (fun t => palRowFlag t.pal 1) = some true := by decide

theorem witness_ReadPaletteTolerantTruncation :
    let s := tolerantly (fresh (List.replicate 20 1))
    s.curWritten = true ∧ s.tolerant = true ∧ (256 : U64).toNat ≤ 256 ∧ 1 ≤ (1 : U64).toNat ∧
      2 * (256 : U64).toNat * (1 : U64).toNat > s.slen.toNat - s.cur.toNat := by decide

theorem witness_ReadPaletteStrictStreamEnd :
    let s := fresh (List.replicate 20 1)
    s.curWritten = true ∧ s.tolerant = false ∧ (256 : U64).toNat ≤ 256 ∧ 1 ≤ (1 : U64).toNat ∧
      s.cur.toNat + 2 * (256 : U64).toNat * 1 > s.slen.toNat := by decide

theorem witness_ReadPaletteOperandChecks :
    State.reset.curWritten = false ∧ (fresh []).curWritten = true ∧ 256 < (257 : U64).toNat ∧
      ¬((256 : U64).toNat = 0 ∨ 256 < (256 : U64).toNat) ∧ (0 : U64).toNat = 0 := by decide

theorem witness_DecodeTimHeaderChecks_unwritten : State.reset.maxresWritten = false := rfl
theorem witness_DecodeTimHeaderChecks_tag :
    let s := fresh [0x11, 0]
    s.curWritten = true ∧ s.maxresWritten = true ∧ s.cur.toNat + 2 ≤ s.slen.toNat ∧
      s.u16At s.cur.toNat ≠ 0x10 := by decide
theorem witness_DecodeTimHeaderChecks_version :
    let s := fresh [0x10, 0, 1, 0]
    s.curWritten = true ∧ s.maxresWritten = true ∧ s.cur.toNat + 4 ≤ s.slen.toNat ∧
      s.u16At s.cur.toNat = 0x10 ∧ s.u16At (s.cur.toNat + 2) ≠ 0 ∧ s.ignoreVersion = false := by decide

theorem witness_DecodeTimHeaderTruncated_tag :
    let s := fresh [0x10]
    s.curWritten = true ∧ s.maxresWritten = true ∧ s.slen.toNat < s.cur.toNat + 2 := by decide
theorem witness_DecodeTimHeaderTruncated_version :
    let s := fresh [0x10, 0, 0]
    s.curWritten = true ∧ s.maxresWritten = true ∧ s.u16At s.cur.toNat = 0x10 ∧
      s.slen.toNat < s.cur.toNat + 4 := by decide
theorem witness_DecodeTimHeaderTruncated_flags :
    let s := fresh [0x10, 0, 0, 0, 2, 0, 0]
    s.curWritten = true ∧ s.maxresWritten = true ∧ s.u16At s.cur.toNat = 0x10 ∧
      s.u16At (s.cur.toNat + 2) = 0 ∧ s.slen.toNat < s.cur.toNat + 8 := by decide
theorem witness_DecodeTimHeaderTruncated_row :
    8 ≤ (at8 ((p8 0 0 1 1 []).take 19)).cur.toNat ∧
      (at8 ((p8 0 0 1 1 []).take 19)).slen.toNat < (at8 []).cur.toNat + 12 := by decide

/-- A palette block with a legal clut lies at CUR = 8 and its image header, with these fields, at qi. -/
def AfterPalette (s : State) (qi ox oy st h : Nat) : Prop :=
  8 ≤ s.cur.toNat ∧ s.clutLegal s.cur.toNat ∧ s.imageAfter s.cur.toNat = qi ∧
    s.u16At (qi + 4) = ox ∧ s.u16At (qi + 6) = oy ∧ s.u16At (qi + 8) = st ∧ s.u16At (qi + 10) = h

theorem witness_DecodeTimHeaderTruncated_image :
    let s := at8 ((p8 0 0 1 1 []).take 35)
    AfterPalette s 24 0 0 1 1 ∧ s.cur.toNat + 12 + 2 * 2 * s.rowsAsked s.cur.toNat ≤ s.slen.toNat ∧
      s.imageAfter s.cur.toNat ≤ s.slen.toNat ∧ s.slen.toNat < 24 + 12 := by
  simp only [AfterPalette, State.clutLegal]
  decide
theorem witness_DecodeTimHeaderTruncated_image_past :
    let s := { at8 (((p2.take 52).set 18 2)) with cfg := 4 }
    s.clutLegal s.cur.toNat ∧ s.tolerant = false ∧
      s.cur.toNat + 12 + 2 * 16 * s.rowsAsked s.cur.toNat ≤ s.slen.toNat ∧
      s.slen.toNat < s.imageAfter s.cur.toNat := by
  simp only [State.clutLegal]
  decide

theorem witness_FastRejectStopsAfterTheFlags :
    let s := fresh [0x10, 0, 0, 0, 0x0F, 0, 0, 0]
    s.curWritten = true ∧ s.maxresWritten = true ∧ s.cur.toNat + 8 ≤ s.slen.toNat ∧
      s.u16At s.cur.toNat = 0x10 ∧ s.u16At (s.cur.toNat + 2) = 0 ∧
      4 ≤ s.u32At (s.cur.toNat + 4) % 8 := by decide

theorem witness_FastRejectRowsReject : Instr.timInvalid7Pal 0 ∈ fastRejectRows 0 := by decide

theorem witness_IndexedNeedsPalette :
    8 ≤ (at8 []).cur.toNat ∧ Instr.timIndexed8 0 ∈ [Instr.timIndexed4 0, .timIndexed8 0] := by decide

theorem witness_FormatIsReDerived :
    (at8 p2).cur.toNat + 12 ≤ (at8 p2).slen.toNat ∧
      Instr.timDirect24Pal 0 ∈ [Instr.timDirect16Pal 0, .timDirect24Pal 0] := by decide

/-- The palette header of P2 with another clut width and height. -/
def clut (wlo whi hlo hhi : Nat) : State :=
  at8 ((((p2.set 16 wlo).set 17 whi).set 18 hlo).set 19 hhi)

theorem witness_PaletteBlockChecks_width :
    let s := clut 1 1 1 0
    8 ≤ s.cur.toNat ∧ s.cur.toNat + 12 ≤ s.slen.toNat ∧ 256 < s.u16At (s.cur.toNat + 8) := by decide
theorem witness_PaletteBlockChecks_height :
    let s := clut 0 1 0 0
    8 ≤ s.cur.toNat ∧ s.cur.toNat + 12 ≤ s.slen.toNat ∧ 1 ≤ s.u16At (s.cur.toNat + 8) ∧
      s.u16At (s.cur.toNat + 8) ≤ 256 ∧ s.u16At (s.cur.toNat + 10) = 0 := by decide
theorem witness_PaletteBlockChecks_tolerant :
    let s := tolerantly (clut 25 0 1 0)
    8 ≤ s.cur.toNat ∧ s.cur.toNat + 12 ≤ s.slen.toNat ∧ s.u16At (s.cur.toNat + 8) = 25 ∧
      s.u16At (s.cur.toNat + 10) = 1 ∧ s.tolerant = true ∧
      s.slen.toNat - (s.cur.toNat + 12) < 2 * 25 * 1 := by decide

theorem witness_PaletteBlockChecks_strict :
    let s := clut 25 0 1 0
    8 ≤ s.cur.toNat ∧ s.cur.toNat + 12 ≤ s.slen.toNat ∧ s.clutLegal s.cur.toNat ∧ s.tolerant = false ∧
      s.slen.toNat < s.cur.toNat + 12 + 2 * 25 * s.rowsAsked s.cur.toNat := by
  simp only [State.clutLegal]
  decide

/-- The image header fields of a direct container whose row runs at 8. -/
def imageAt8 (s : State) (ox oy st h : Nat) : Bool :=
  decide (8 ≤ s.cur.toNat ∧ s.cur.toNat + 12 ≤ s.slen.toNat) &&
    decide (s.u16At (s.cur.toNat + 4) = ox ∧ s.u16At (s.cur.toNat + 6) = oy ∧
      s.u16At (s.cur.toNat + 8) = st ∧ s.u16At (s.cur.toNat + 10) = h)

theorem witness_DirectImageChecks_stride : imageAt8 (at8 (d16 0 0 0 1 0 0)) 0 0 0 1 = true := by decide
theorem witness_DirectImageChecks_height : imageAt8 (at8 (d16 0 0 1 0 0 0)) 0 0 1 0 = true := by decide
theorem witness_DirectImageChecks_zero_width :
    let s := { at8 (d16 0 0 1 1 0 0) with params := { Params.default with zeroWidthD24 := .reject } }
    imageAt8 s 0 0 1 1 = true ∧ 2 * 1 / 3 = 0 ∧ s.params.zeroWidthD24 = .reject := by decide
theorem witness_DirectImageChecks_zero_width_fault :
    let s := { at8 (d16 0 0 1 1 0 0) with params := { Params.default with zeroWidthD24 := .fault } }
    imageAt8 s 0 0 1 1 = true ∧ 2 * 1 / 3 = 0 ∧ s.params.zeroWidthD24 = .fault := by decide
theorem witness_DirectImageChecks_width :
    let s := { at8 (d16 0 0 5 1 0 0) with maxres := 4 }
    imageAt8 s 0 0 5 1 = true ∧ s.maxres.toNat < 5 := by decide
theorem witness_DirectImageChecks_page :
    imageAt8 (at8 (d16 1024 0 1 1 0 0)) 1024 0 1 1 = true ∧
      imageAt8 (at8 (d16 0 512 1 1 0 0)) 0 512 1 1 = true ∧ 1 ≤ (at8 []).maxres.toNat := by decide
theorem witness_DirectImageChecks_zero_maxres :
    let s := { at8 (d16 0 0 1 1 0 0) with maxres := 0 }
    imageAt8 s 0 0 1 1 = true ∧ s.params.zeroWidthD24 = .emptyTexture ∧ ¬s.admitsWidth (2 * 1 / 3) ∧
      statusOf (exec (.timDirect24 0) s) = some 0x0A02 := by
  refine ⟨by decide, by decide, fun h => ?_, by decide⟩
  cases h.2 (by decide)
theorem witness_DirectImageChecks_loaded_stride : AfterPalette (at8 (p8 0 0 0 1 [])) 24 0 0 0 1 := by
  simp only [AfterPalette, State.clutLegal]
  decide
theorem witness_DirectImageChecks_loaded_height :
    AfterPalette (at8 (p8 0 0 1 0 [])) 24 0 0 1 0 ∧ 24 + 12 ≤ (at8 (p8 0 0 1 0 [])).slen.toNat := by
  simp only [AfterPalette, State.clutLegal]
  decide
theorem witness_DirectImageChecks_loaded_width :
    let s := { at8 (p8 0 0 1 1 []) with maxres := 1 }
    AfterPalette s 24 0 0 1 1 ∧ s.maxres.toNat < 2 * 1 := by
  simp only [AfterPalette, State.clutLegal]
  decide
theorem witness_DirectImageChecks_loaded_page :
    let s := { at8 (p8 1024 512 1 1 []) with maxres := 2 }
    AfterPalette s 24 1024 512 1 1 ∧ 2 * 1 ≤ s.maxres.toNat := by
  simp only [AfterPalette, State.clutLegal]
  decide

theorem witness_Direct16RowDecodes :
    Direct16ImageFits (at8 (d16 1023 511 1 1 0xFF 0x7F)) (at8 (d16 1023 511 1 1 0xFF 0x7F)).cur.toNat := by
  refine ⟨⟨?_, ?_, ?_, ?_, ?_⟩, ?_⟩ <;> decide

theorem witness_Direct16RowTruncated :
    let s := at8 (d16 0 0 1 2 0xFF 0x7F)
    8 ≤ s.cur.toNat ∧ s.cur.toNat + 12 ≤ s.slen.toNat ∧ Direct16HeaderPasses s s.cur.toNat ∧
      s.slen.toNat < s.cur.toNat + 12 + 2 * s.u16At (s.cur.toNat + 8) * s.u16At (s.cur.toNat + 10) := by
  refine ⟨?_, ?_, ⟨?_, ?_, ?_, ?_, ?_⟩, ?_⟩ <;> decide

theorem witness_Direct16RowTruncated_direct24 :
    let s := tolerantly (at8 d24)
    let u := at8 (d24.take 25)
    imageAt8 s 0 0 4 1 = true ∧ s.slen.toNat < s.cur.toNat + 12 + 2 * 4 * 1 ∧ imageAt8 u 0 0 4 1 = true ∧
      u.slen.toNat < u.cur.toNat + 12 + 2 * 4 * (1 - 1) + 3 * (2 * 4 / 3) := by decide
theorem witness_Direct16RowTruncated_paletted :
    let s := tolerantly (forced4 (at8 (p8 0 0 1 1 [0, 1, 0])))
    let u := at8 (p8 0 0 1 1 [0])
    AfterPalette s 24 0 0 1 1 ∧ s.slen.toNat < 24 + 12 + s.palettedRowBytes true 1 * 1 ∧
      AfterPalette u 24 0 0 1 1 ∧ u.slen.toNat < 24 + 12 + u.palettedRowBytes true 1 * (1 - 1) + 2 * 1 := by
  simp only [AfterPalette, State.clutLegal, State.palettedRowBytes]
  decide

theorem witness_DecodeTimDecodesDirect16 :
    let s := fresh (d16 1023 511 1 1 0xFF 0x7F)
    s.curWritten = true ∧ s.maxresWritten = true ∧ s.u16At s.cur.toNat = 0x10 ∧
      s.u16At (s.cur.toNat + 2) = 0 ∧ s.u32At (s.cur.toNat + 4) % 16 = 2 ∧
      Direct16ImageFits s (s.cur.toNat + 8) := by
  refine ⟨?_, ?_, ?_, ?_, ?_, ⟨?_, ?_, ?_, ?_, ?_⟩, ?_⟩ <;> decide

theorem witness_Direct24RowDecodes :
    let s := at8 d24
    imageAt8 s 0 0 4 1 = true ∧ 2 * 4 / 3 ≤ s.maxres.toNat ∧
      s.cur.toNat + 12 + 2 * 4 * (1 - 1) + 3 * (2 * 4 / 3) ≤ s.slen.toNat ∧ s.tolerant = false := by decide
theorem witness_Direct24RowDecodes_empty :
    let s := at8 (d16 0 0 1 1 0xAA 0xBB)
    imageAt8 s 0 0 1 1 = true ∧ s.params.zeroWidthD24 = .emptyTexture ∧
      s.cur.toNat + 12 + 2 * 1 * (1 - 1) + 3 * (2 * 1 / 3) ≤ s.slen.toNat := by decide
theorem witness_Direct24RowDecodes_compareWidth :
    let s := compareWidth (at8 (d16 0 0 1 1 0xAA 0xBB))
    imageAt8 s 0 0 1 1 = true ∧ s.admitsWidth (2 * 1 / 3) ∧
      statusOf (exec (.timDirect24 0) s) = some 0x0001 := by
  refine ⟨by decide, ⟨by decide, fun _ => rfl⟩, by decide⟩

theorem witness_PalettedRowsDecode :
    let s := at8 p2
    AfterPalette s 52 70 300 1 2 ∧ rowsOf256 .indexed4 (s.u16At (8 + 8)) = false ∧ 4 * 1 ≤ s.maxres.toNat ∧
      52 + 12 + s.palettedRowBytes false 1 * (2 - 1) + 2 * 1 ≤ s.slen.toNat ∧ s.tolerant = false := by
  simp only [AfterPalette, State.clutLegal, State.palettedRowBytes]
  decide
theorem witness_PalettedRowsDecode_indexed8 :
    let s := tolerantly { at8 (p8 1023 511 1 2 [0, 1, 1, 0]) with maxres := 2 }
    AfterPalette s 24 1023 511 1 2 ∧ rowsOf256 .indexed8 (s.u16At (8 + 8)) = true ∧
      2 * 1 ≤ s.maxres.toNat ∧ s.params.idx8RowRule = .declared ∧
      24 + 12 + s.palettedRowBytes true 1 * 2 ≤ s.slen.toNat ∧
      statusOf (exec (.timIndexed8Pal 0) s) = some 0x0001 := by
  simp only [AfterPalette, State.clutLegal, State.palettedRowBytes]
  decide
theorem witness_PalettedRowsDecode_forced4 :
    let s := forced4 (at8 (p8 1023 511 1 2 [0, 1, 0xAA, 0xBB, 1, 0]))
    AfterPalette s 24 1023 511 1 2 ∧ rowsOf256 .indexed8 (s.u16At (8 + 8)) = true ∧ s.tolerant = false ∧
      s.palettedRowBytes true 1 = 4 ∧ 24 + 12 + 4 * (2 - 1) + 2 * 1 ≤ s.slen.toNat ∧
      curOf (exec (.timIndexed8Pal 0) s) = some 44 := by
  simp only [AfterPalette, State.clutLegal, State.palettedRowBytes]
  decide

theorem witness_DecodersTouchNoPage :
    readsStream (.timMixed 0) = true ∧ statusOf (exec (.timMixed 0) (at8 [])) = some 0x0302 := by decide

/-- The same stream and registers with another palette table and another page store. -/
def elsewhere : State :=
  { fresh (d16 0 0 1 1 0x1F 0x80) with pal := { Palette.initial with epoch := 7 }, pagesReady := false }

theorem witness_DecodeTimIsIndependent :
    let s := fresh (d16 0 0 1 1 0x1F 0x80)
    s.stream = elsewhere.stream ∧ s.slen = elsewhere.slen ∧ s.cur = elsewhere.cur ∧
      s.curWritten = elsewhere.curWritten ∧ s.cfg = elsewhere.cfg ∧ s.maxres = elsewhere.maxres ∧
      s.maxresWritten = elsewhere.maxresWritten ∧ s.params = elsewhere.params ∧
      statusOf (exec .decodeTim s) = some 0x0001 ∧
      statusOf (exec .decodeTim elsewhere) = some 0x0001 := by decide

end Sys2Proof.Tests
end

/-! SUPPORT. The model parameters are constants of a run (log entry 2): one lemma per operation of the model,
then per command, then for the step. -/

namespace Sys2Proof.Machine

/-- Every state that an outcome goes on to has the parameters of `s`. -/
def KeepsParams (s : State) (o : Out) : Prop := ∀ t, o = .next t → t.params = s.params

theorem keepsParams_next {s t : State} : KeepsParams s (.next t) ↔ t.params = s.params := by
  simp [KeepsParams]

theorem keepsParams_refused (s : State) (r : Refusal) : KeepsParams s (.refused r) := by
  simp [KeepsParams]

/-- Keeping the parameters of a state is keeping those of any state with the same ones. -/
theorem KeepsParams.congr {s s' : State} {o : Out} (h : KeepsParams s' o) (e : s'.params = s.params) :
    KeepsParams s o :=
  fun t ht => (h t ht).trans e

/-! ### Outcomes and the ends of a candidate -/

section
variable (s : State)

@[simp] theorem State.ok_params (x : Result) : (s.ok x).params = s.params := rfl
@[simp] theorem State.illegal_params (r : Reason) : (s.illegal r).params = s.params := rfl

@[simp] theorem endCandidate_params (p0 : Nat) (reached : U64) (ldecl : Nat) (code : Code) (r : Reason) :
    (endCandidate s p0 reached ldecl code r).params = s.params := rfl

@[simp] theorem rejectCandidate_params (p0 : Nat) (reached : U64) (ldecl : Nat) (r : Reason) :
    (rejectCandidate s p0 reached ldecl r).params = s.params := rfl

@[simp] theorem streamEnded_params (p0 : Nat) (reached : U64) (ldecl : Nat) (r : Reason) :
    (streamEnded s p0 reached ldecl r).params = s.params := by
  rw [streamEnded_eq, endCandidate_params]

theorem illegalEncoding_keepsParams (e : DecodeError) : KeepsParams s (illegalEncoding s e) := by
  cases e with
  | payloadMismatch => exact keepsParams_refused s _
  | badOpcode | reservedBits | badFormat => exact keepsParams_next.2 (s.illegal_params _)

/-! ### The page store -/

/-- A page command keeps the parameters if its body does: without a store it only answers (rule R231). -/
theorem whenSetUp_keepsParams {b : State} (h : b.params = s.params) :
    KeepsParams s (.next (s.whenSetUp b)) := by
  cases hr : s.pagesReady with
  | true => rw [s.whenSetUp_ready b hr]; exact keepsParams_next.2 h
  | false => rw [s.whenSetUp_not b hr]; exact keepsParams_next.2 (s.illegal_params _)

theorem whenSetUp_ok_keepsParams {b : State} (h : b.params = s.params) (x : Result) :
    KeepsParams s (.next (s.whenSetUp (b.ok x))) :=
  whenSetUp_keepsParams s ((b.ok_params x).trans h)

@[simp] theorem clearPage_params (p : Fin 32) : (clearPage s p).params = s.params := rfl

@[simp] theorem clearPages_params : (clearPages s).params = s.params := by rw [clearPages_eq]

@[simp] theorem updatePage_params (force : Bool) (p : Fin 32) :
    (updatePage force s p).1.params = s.params := by
  obtain ⟨_, h⟩ | ⟨_, _, h⟩ := updatePage_cases force s p <;> simp [h]

@[simp] theorem updatePages_params (force : Bool) : (updatePages force allPages s).1.params = s.params := by
  obtain ⟨_, h, _⟩ := updatePages_eq force allPages nodup_allPages s
  rw [h]

theorem execSetup_keepsParams : KeepsParams s (execSetup s) := by
  unfold execSetup
  split <;> simp [keepsParams_next]

theorem execDraw_keepsParams (suppress : Bool) (t : Texture) : KeepsParams s (execDraw suppress t s) := by
  apply whenSetUp_keepsParams
  split <;> simp

theorem execClear_keepsParams (p : BitVec 5) : KeepsParams s (execClear p s) :=
  whenSetUp_ok_keepsParams s (clearPage_params s (pageOf p)) _

theorem execClearAll_keepsParams : KeepsParams s (execClearAll s) :=
  whenSetUp_ok_keepsParams s (clearPages_params s) _

theorem execUpdatePage_keepsParams (p : BitVec 5) (force : Bool) :
    KeepsParams s (execUpdatePage p force s) :=
  whenSetUp_ok_keepsParams s (updatePage_params s force (pageOf p)) _

theorem execUpdateAllPages_keepsParams (force : Bool) : KeepsParams s (execUpdateAllPages force s) :=
  whenSetUp_ok_keepsParams s (updatePages_params s force) _

/-! ### The exports -/

theorem execExportTextureGrid_keepsParams (cols : U64) (texs : List Texture) :
    KeepsParams s (execExportTextureGrid cols texs s) := by
  apply keepsParams_next.2
  split
  · simp
  · split <;> simp

theorem execExportPageTiled_keepsParams (p : BitVec 5) (rx ry rw rh nx ny : U16) (hi : U32) :
    KeepsParams s (execExportPageTiled p rx ry rw rh nx ny hi s) := by
  apply whenSetUp_keepsParams
  split <;> simp

/-! ### The registers -/

theorem execReadReg_keepsParams (r : BitVec 5) : KeepsParams s (execReadReg r s) := by
  apply keepsParams_next.2
  split_ifs <;> simp

theorem execWriteReg_keepsParams (r : BitVec 5) (v : U64) : KeepsParams s (execWriteReg r v s) := by
  apply keepsParams_next.2
  split_ifs <;> simp

/-! ### The palette decoder -/

/-- A palette load, done or cut short. -/
theorem params_of_paletteLoad {s s' : State} {fmt8 : Bool} {cw ch : Nat} {first : Bool}
    (h : paletteLoad s fmt8 cw ch first = .done s' ∨ paletteLoad s fmt8 cw ch first = .eos s') :
    s'.params = s.params := by
  obtain ⟨ws, c, _, _, e⟩ | ⟨c, e⟩ := paletteLoad_cases s fmt8 cw ch first
  · obtain rfl : _ = s' := by simpa [e] using h
    simp
  · obtain rfl : _ = s' := by simpa [e] using h
    simp

theorem readPaletteRows_params (fmt8 first : Bool) (cw ch : Nat) :
    (readPaletteRows s fmt8 first cw ch).params = s.params := by
  unfold readPaletteRows
  split
  · simp
  · split
    · next s' hl => simp [params_of_paletteLoad (.inl hl)]
    · next s' hl => simp [params_of_paletteLoad (.inr hl)]

theorem execReadPalette_keepsParams (m : BitVec 2) (first : Bool) (w h : U64) :
    KeepsParams s (execReadPalette m first w h s) := by
  apply keepsParams_next.2
  split_ifs <;> simp [readPaletteRows_params]

/-! ### The TIM decoder -/

theorem decodePixels_params (fmt : PixelFormat) (p0 ldecl : Nat) (hd : ImgHeader) :
    (decodePixels s fmt p0 ldecl hd).params = s.params := by
  simp only [decodePixels]
  split
  · simp
  · split <;> simp

theorem checkImage_params (fmt : PixelFormat) (p0 ldecl : Nat) (hd : ImgHeader) :
    (checkImage s fmt p0 ldecl hd).params = s.params := by
  simp only [checkImage]
  split_ifs <;> simp [decodePixels_params]

theorem readImage_params (fmt : PixelFormat) (p0 base : Nat) :
    (readImage s fmt p0 base).params = s.params := by
  unfold readImage
  split <;> simp [checkImage_params]

theorem loadPaletteBlock_params (code : PixelFormat) (p0 : Nat) (h : PalHeader) :
    (loadPaletteBlock s code p0 h).params = s.params := by
  simp only [loadPaletteBlock]
  split_ifs
  · simp
  · simp
  · simp
  · split
    · next s' hl => simp [readImage_params, params_of_paletteLoad (.inl hl)]
    · next s' hl => simp [params_of_paletteLoad (.inr hl)]

theorem readPaletteBlock_params (code : PixelFormat) (p0 : Nat) :
    (readPaletteBlock s code p0).params = s.params := by
  unfold readPaletteBlock
  split <;> simp [loadPaletteBlock_params]

/-- A row whose image follows the flags word. -/
theorem imageRow_keepsParams (fmt : PixelFormat) (p0 base : Nat) :
    KeepsParams s (.next (readImage s fmt p0 base)) :=
  keepsParams_next.2 (readImage_params s fmt p0 base)

/-- A row with a palette block. -/
theorem paletteRow_keepsParams (code : PixelFormat) (p0 : Nat) :
    KeepsParams s (.next (readPaletteBlock s code p0)) :=
  keepsParams_next.2 (readPaletteBlock_params s code p0)

theorem rejectNoPalette_keepsParams : KeepsParams s (.next (rejectNoPalette s)) :=
  keepsParams_next.2 (rejectCandidate_params s _ _ _ _)

theorem fastReject_keepsParams : KeepsParams s (.next (fastReject s)) :=
  keepsParams_next.2 (s.finish_params _ _ _)

/-- The sixteen rows of the flags word (rule R103). -/
theorem runFlags_keepsParams (code : BitVec 4) (hi : BitVec 28) : KeepsParams s (runFlags code hi s) := by
  unfold runFlags
  split
  case h_1 | h_2 => exact rejectNoPalette_keepsParams s
  case h_3 | h_4 => exact imageRow_keepsParams s _ _ _
  case h_9 | h_10 | h_11 | h_12 => exact paletteRow_keepsParams s _ _
  all_goals exact fastReject_keepsParams s

theorem execDecodeTim_keepsParams : KeepsParams s (execDecodeTim s) := by
  unfold execDecodeTim
  split
  · obtain ⟨w, c, h⟩ | ⟨c, h⟩ | ⟨c, r, _, h⟩ := readHeader_cases s
    · rw [h]; exact (runFlags_keepsParams (s.setCur c) _ _).congr (s.setCur_params c)
    · rw [h]; exact keepsParams_next.2 (streamEnded_params s _ _ _ _)
    · rw [h]; exact keepsParams_next.2 (rejectCandidate_params s _ _ _ _)
  · exact keepsParams_next.2 (s.illegal_params _)

/-! ### Every instruction, and the step -/

theorem exec_keepsParams (i : Instr) : KeepsParams s (exec i s) := by
  cases i with
  | setup => exact execSetup_keepsParams s
  | decodeTim => exact execDecodeTim_keepsParams s
  | readPalette m first w h => exact execReadPalette_keepsParams s m first w h
  | draw suppress t => exact execDraw_keepsParams s suppress t
  | clear p => exact execClear_keepsParams s p
  | clearAll => exact execClearAll_keepsParams s
  | updatePage p force => exact execUpdatePage_keepsParams s p force
  | updateAllPages force => exact execUpdateAllPages_keepsParams s force
  | isUsed | exportPageColor | exportPageStp => exact whenSetUp_ok_keepsParams s rfl _
  | getModeFromClut | containsPage | clampPage | clampCoord => exact keepsParams_next.2 (s.ok_params _)
  | exportTextureGrid cols texs => exact execExportTextureGrid_keepsParams s cols texs
  | exportPageTiled p rx ry rw rh nx ny hi =>
    exact execExportPageTiled_keepsParams s p rx ry rw rh nx ny hi
  | readReg r => exact execReadReg_keepsParams s r
  | writeReg r v => exact execWriteReg_keepsParams s r v
  | timIndexed4 | timIndexed8 => exact rejectNoPalette_keepsParams s
  | timDirect16 | timDirect24 => exact imageRow_keepsParams s _ _ _
  | timIndexed4Pal | timIndexed8Pal | timDirect16Pal | timDirect24Pal =>
    exact paletteRow_keepsParams s _ _
  | timMixed | timInvalid5 | timInvalid6 | timInvalid7 | timMixedPal | timInvalid5Pal | timInvalid6Pal
  | timInvalid7Pal => exact fastReject_keepsParams s

theorem loadStream_keepsParams (bytes : List Byte) : KeepsParams s (loadStream bytes s) := by
  unfold loadStream
  split
  · exact keepsParams_next.2 (s.loadBytes_params bytes)
  · exact keepsParams_refused s _

/-- Taking the move keeps the parameters, and so does what the move does (rules R7, R83). -/
theorem step_keepsParams : KeepsParams s (step s) := by
  unfold step
  split
  · exact keepsParams_next.2 rfl
  · exact (loadStream_keepsParams _ _).congr (s.takeMove_params _)
  · split
    · exact (exec_keepsParams _ _).congr (s.takeMove_params _)
    · exact (illegalEncoding_keepsParams _ _).congr (s.takeMove_params _)

end

/-- Settles O13: every operation of the model builds its state from the one before, never writing the
parameters. -/
theorem paramsNeverChange : Obligations.ParamsNeverChange :=
  fun s t h => step_keepsParams s t h

end Sys2Proof.Machine

/-! SUPPORT. What a step can do, said once: every command is a run of a few operations on the state and then an
outcome as rules R48, R56 and R306 have it. The invariants of a step are then facts about these operations. -/

namespace Sys2Proof.Machine

/-! ### The operations a step is made of -/

/-- A response as rules R56, R300 and R306 have it, whose texture, if it has one, is as rule R48 has it. -/
def Response.proper (r : Response) : Prop :=
  r.legal ∧ ∀ tex, r.result = .texture tex → WellFormedTexture tex

/-- One operation of the model on the state, with what the model has checked before it. -/
inductive Op : State → State → Prop
  | takeMove (s : State) (rest : List HostMove) : Op s (s.takeMove rest)
  | loadBytes (s : State) (bytes : List Byte) : bytes.length < 2 ^ 32 → Op s (s.loadBytes bytes)
  | setCur (s : State) (c : U64) : Op s (s.setCur c)
  | anyCur (s : State) (lo hi : Nat) : Op s (s.anyCur lo hi)
  | setPalDim (s : State) (dx dy w h : U16) : Op s (s.setPalDim dx dy w h)
  | load (s : State) (u : UnreadEntry) (fmt8 : Bool) (cw : Nat) (ws : List (List U16)) (epoch : Nat) :
      1 ≤ cw → 1 ≤ ws.length → ws.length ≤ 256 → (∀ w ∈ ws, w.length = cw) →
        Op s (s.setPal (loadedPalette s.pal u fmt8 cw ws epoch))
  | cutShort (s : State) (n epoch : Nat) : n ≤ 256 → Op s (s.setPal (brokenPalette s.pal n epoch))
  | setReg (s : State) (r : Nat) (v : U64) : Op s (s.setReg r v)
  | clear (s : State) (p : Fin 32) : Op s (clearPage s p)
  | setup (s : State) : s.bgcolorWritten = true → s.bgstpWritten = true → Op s (clearPages s).setReady
  | draw (s : State) (suppress : Bool) (t : Texture) (p : Fin 32) :
      Op s (s.setPage p (drawTexture s.params suppress t (s.page p)))
  | update (s : State) (force : Bool) (p : Fin 32) : Op s (updatePage force s p).1
  | finish (s : State) (c : Code) (r : Reason) (x : Result) :
      Response.proper ⟨c, r, x⟩ → Op s (s.finish c r x)

/-- `t` comes from `s` by some operations, one after another. -/
abbrev Reaches : State → State → Prop := Relation.ReflTransGen Op

/-- What every operation keeps, a run of operations keeps. -/
theorem Reaches.keeps {P : State → Prop} (hP : ∀ {s t}, Op s t → P s → P t) {s t : State}
    (h : Reaches s t) (hs : P s) : P t := by
  induction h with
  | refl => exact hs
  | tail _ op ih => exact hP op ih

/-! ### Legal states -/

section
variable (p : Palette) (u : UnreadEntry) (fmt8 : Bool) (cw : Nat) (ws : List (List U16)) (epoch : Nat)

/-- PAL_ROWS after a completed load (rule R43). -/
theorem nRows_loadedPalette (h : ws.length ≤ 256) :
    (loadedPalette p u fmt8 cw ws epoch).nRows.toNat = ws.length := by
  rw [loadedPalette, BitVec.toNat_ofNat]
  omega

theorem rowCols_le_rowSize : rowCols fmt8 cw ≤ rowSize fmt8 := Nat.min_le_right cw (rowSize fmt8)

theorem rowSize_le : 16 ≤ rowSize fmt8 ∧ rowSize fmt8 ≤ 256 := by cases fmt8 <;> decide

/-- PAL_COLS after a completed load (rule R43). -/
theorem nCols_loadedPalette : (loadedPalette p u fmt8 cw ws epoch).nCols.toNat = rowCols fmt8 cw := by
  have h1 := rowCols_le_rowSize fmt8 cw
  have h2 := rowSize_le fmt8
  rw [loadedPalette, BitVec.toNat_ofNat]
  omega

/-- PAL_STPANY after a completed load is the OR of the flags of its rows (rule R138). -/
theorem stpAny_loadedPalette : (loadedPalette p u fmt8 cw ws epoch).stpAny =
    (List.range ws.length).any (palRowFlag (loadedPalette p u fmt8 cw ws epoch)) := by
  have e := congrArg (List.any · id) (rowFlags_loadedPalette p u fmt8 cw ws epoch)
  simpa only [List.any_map, Function.id_comp, loadedPalette] using e.symm

/-- A completed load has its rows, each of the row size (rules R42, R134). -/
theorem dims_rows_loadedPalette (hw : ∀ w ∈ ws, w.length = cw) :
    Dims (rowSize fmt8) ws.length (loadedPalette p u fmt8 cw ws epoch).rows := by
  refine ⟨by simp [loadedPalette], fun row hrow => ?_⟩
  obtain ⟨w, hmem, rfl⟩ := List.mem_map.1 hrow
  exact length_expandRow u fmt8 cw w (hw w hmem)

/-- A completed load of 1 to 256 rows leaves a table that its metadata describe (rules R39, R43). -/
theorem consistent_loadedPalette (hcw : 1 ≤ cw) (h1 : 1 ≤ ws.length) (h2 : ws.length ≤ 256)
    (hw : ∀ w ∈ ws, w.length = cw) (hp : p.rowStp.length ≤ 256) :
    (loadedPalette p u fmt8 cw ws epoch).consistent := by
  obtain ⟨hlen, hrows⟩ := dims_rows_loadedPalette p u fmt8 cw ws epoch hw
  rw [Palette.consistent, nRows_loadedPalette p u fmt8 cw ws epoch h2, nCols_loadedPalette]
  refine ⟨?_, fun _ => ⟨hlen, h1, h2, fun r hr => ?_, hrows, stpAny_loadedPalette p u fmt8 cw ws epoch,
    ?_, rowCols_le_rowSize fmt8 cw⟩⟩
  · simp only [loadedPalette, rowFlagsAfter, List.length_append, List.length_map, List.length_drop]
    omega
  · exact ⟨rowHasStp (ws[r].take (rowCols fmt8 cw)), by
      simp [loadedPalette, rowFlagsAfter, List.getElem?_append_left, hr]⟩
  · have := rowSize_le fmt8
    unfold rowCols
    omega

end

/-- A load cut short leaves PAL_VALID 0 and at most 256 row flags (rule R139). -/
theorem consistent_brokenPalette (p : Palette) (n epoch : Nat) (hn : n ≤ 256) (hp : p.rowStp.length ≤ 256) :
    (brokenPalette p n epoch).consistent := by
  refine ⟨?_, fun h => by simp [brokenPalette] at h⟩
  simp only [brokenPalette, rowFlagsAfter, List.length_append, List.length_replicate, List.length_drop]
  omega

/-- Replacing a page by a canonical one keeps every page canonical. -/
theorem State.pagesCanonical_setPage {s : State} (h : s.pagesCanonical) (p : Fin 32) {pg : Page}
    (hpg : pageCanonical pg = true) : (s.setPage p pg).pagesCanonical := by
  intro q
  rw [State.page_setPage]
  split
  · exact hpg
  · exact h q

/-- CFG keeps its reserved bits 0, whatever is written to it (rule R32). -/
theorem cfgValue_lt (v : U64) : (cfgValue v).toNat < 8 := by
  simp only [cfgValue, BitVec.toNat_setWidth, BitVec.extractLsb'_toNat]
  omega

/-- A register write keeps CFG's reserved bits 0. -/
theorem State.cfgLegal_setReg {s : State} (h : s.cfgLegal) (r : Nat) (v : U64) :
    (s.setReg r v).cfgLegal := by
  unfold State.setReg
  split
  · exact cfgValue_lt v
  all_goals exact h

/-- A register write only sets written bits. -/
theorem State.setupWritten_setReg {s : State} (h : s.setupWritten) (r : Nat) (v : U64) :
    (s.setReg r v).setupWritten := by
  unfold State.setReg
  split
  case h_3 => exact fun hr => ⟨rfl, (h hr).2⟩
  case h_4 => exact fun hr => ⟨(h hr).1, rfl⟩
  all_goals exact h

/-- A loaded stream is canonical (rule R37). -/
theorem State.streamCanonical_loadBytes (s : State) (bytes : List Byte) (h : bytes.length < 2 ^ 32) :
    (s.loadBytes bytes).streamCanonical = true := by
  rw [State.streamCanonical, State.loadBytes_slen, BitVec.toNat_ofNat, Nat.mod_eq_of_lt h]
  exact Memory.wf_memOfBytes bytes

/-- UPDATE_PAGE changes no cell of a page (rule R246). -/
theorem pageCanonical_updatePage (force : Bool) (s : State) (p q : Fin 32) :
    pageCanonical ((updatePage force s p).1.page q) = pageCanonical (s.page q) := by
  obtain ⟨_, h⟩ | ⟨_, _, h⟩ := updatePage_cases force s p
  · rw [h, State.page_setPage, State.upload_page]
    split
    · next e => subst e; rfl
    · rfl
  · rw [h]

/-- UPDATE_PAGE changes the pages and UPLOADS alone (rules R239, R246). -/
theorem updatePage_frame (force : Bool) (s : State) (p : Fin 32) :
    ∃ v l, (updatePage force s p).1 = { s with pages := v, uploads := l } := by
  obtain ⟨_, h⟩ | ⟨_, _, h⟩ := updatePage_cases force s p <;> rw [h] <;> exact ⟨_, _, rfl⟩

/-- Every operation keeps the legal states. -/
theorem Op.keepsLegal {s t : State} (op : Op s t) (h : s.Legal) : t.Legal := by
  obtain ⟨hstream, hpages, hcfg, hpal, hsetup, hstatus⟩ := h
  cases op with
  | takeMove | setCur | anyCur | setPalDim => exact ⟨hstream, hpages, hcfg, hpal, hsetup, hstatus⟩
  | loadBytes bytes hl =>
    exact ⟨s.streamCanonical_loadBytes bytes hl, hpages, hcfg, hpal, hsetup, hstatus⟩
  | load u fmt8 cw ws epoch hcw h1 h2 hw =>
    exact ⟨hstream, hpages, hcfg, consistent_loadedPalette s.pal u fmt8 cw ws epoch hcw h1 h2 hw hpal.1,
      hsetup, hstatus⟩
  | cutShort n epoch hn =>
    exact ⟨hstream, hpages, hcfg, consistent_brokenPalette s.pal n epoch hn hpal.1, hsetup, hstatus⟩
  | setReg r v =>
    refine ⟨?_, ?_, State.cfgLegal_setReg hcfg r v, ?_, State.setupWritten_setReg hsetup r v, ?_⟩
    · simpa [State.streamCanonical] using hstream
    · simpa [State.pagesCanonical] using hpages
    · simpa using hpal
    · simpa [State.statusMirrors] using hstatus
  | clear p =>
    exact ⟨hstream, State.pagesCanonical_setPage hpages p (pageCanonical_clearedPage _ _), hcfg, hpal,
      hsetup, hstatus⟩
  | setup h1 h2 =>
    have e := clearPages_eq s
    refine ⟨?_, fun q => ?_, ?_, ?_, fun _ => ?_, ?_⟩
    · rw [e]; exact hstream
    · rw [State.setReady_page, clearPages_page]; exact pageCanonical_clearedPage _ _
    · rw [e]; exact hcfg
    · rw [e]; exact hpal
    · rw [e]; exact ⟨h1, h2⟩
    · rw [e]; exact hstatus
  | draw suppress t p =>
    exact ⟨hstream, State.pagesCanonical_setPage hpages p (pageCanonical_drawTexture _ _ t _ (hpages p)),
      hcfg, hpal, hsetup, hstatus⟩
  | update force p =>
    have hp : (updatePage force s p).1.pagesCanonical := fun q =>
      (pageCanonical_updatePage force s p q).trans (hpages q)
    obtain ⟨v, l, e⟩ := updatePage_frame force s p
    rw [e] at hp ⊢
    exact ⟨hstream, hp, hcfg, hpal, hsetup, hstatus⟩
  | finish c r x hr => exact ⟨hstream, hpages, hcfg, hpal, hsetup, rfl, hr.1⟩

/-! ### Consumer coherence -/

/-- The last event of page p after one more event (rule R52). -/
theorem lastUpload_append (p : Fin 32) (l : List Upload) (u : Upload) :
    lastUpload p (l ++ [u]) = if u.page = p then some u else lastUpload p l := by
  unfold lastUpload
  by_cases h : u.page = p
  · simp [List.filter_append, h]
  · simp [List.filter_append, h]

/-- Replacing a page by one that is marked modified keeps coherence (rule R53). -/
theorem State.consumerCoherent_setPage {s : State} (h : s.consumerCoherent) (p : Fin 32) {pg : Page}
    (hpg : s.params.deferredDrawMarks = .markBoth → pg.modified = true) :
    (s.setPage p pg).consumerCoherent := by
  intro hm hr q hq
  have hne : p ≠ q := by
    rintro rfl
    rw [State.page_setPage_self, hpg hm] at hq
    cases hq
  rw [State.page_setPage_ne s p q pg hne] at hq
  rw [State.snapshot, State.page_setPage_ne s p q pg hne]
  exact h hm hr q hq

/-- Under MarkBoth a drawn page is modified (rule R236). -/
theorem drawTexture_modified (par : Params) (suppress : Bool) (t : Texture) (pg : Page)
    (h : par.deferredDrawMarks = .markBoth) : (drawTexture par suppress t pg).modified = true := by
  cases suppress <;> simp [drawTexture, markDraw, h]

/-- An uploaded page equals its new last event, and the event of another page leaves its own (rule R53). -/
theorem updatePage_consumerCoherent {s : State} (h : s.consumerCoherent) (force : Bool) (p : Fin 32) :
    (updatePage force s p).1.consumerCoherent := by
  obtain ⟨_, e⟩ | ⟨_, _, e⟩ := updatePage_cases force s p
  · rw [e]
    intro hm hr q hq
    rw [State.setPage_uploads, State.upload_uploads, lastUpload_append, State.snapshot]
    by_cases hpq : p = q
    · subst hpq
      rw [if_pos rfl, State.page_setPage_self]
    · rw [State.page_setPage_ne _ p q _ hpq, State.upload_page] at hq ⊢
      rw [if_neg hpq]
      exact h hm hr q hq
  · rw [e]
    exact h

/-- Every operation keeps consumer coherence. -/
theorem Op.keepsConsumerCoherent {s t : State} (op : Op s t) (h : s.consumerCoherent) :
    t.consumerCoherent := by
  cases op with
  | takeMove | loadBytes | setCur | anyCur | setPalDim | load | cutShort | finish => exact h
  | setReg r v => simpa [State.consumerCoherent, State.snapshot] using h
  | clear p => exact State.consumerCoherent_setPage h p fun _ => clearedPage_modified _ _
  | setup =>
    intro _ _ q hq
    rw [State.setReady_page, clearPages_page, clearedPage_modified] at hq
    cases hq
  | draw suppress t p => exact State.consumerCoherent_setPage h p (drawTexture_modified s.params suppress t _)
  | update force p => exact updatePage_consumerCoherent h force p

end Sys2Proof.Machine

/-! SUPPORT. Every command is such a run and an outcome: the outcomes, the page store, the registers, the
palette decoder, the TIM decoder with the textures it makes, and then every instruction and the step. -/

namespace Sys2Proof.Machine

/-! ### Ends of a command -/

/-- A command that starts in `s` ends in `t`: some operations, then a proper outcome. -/
def Ends (s t : State) : Prop :=
  ∃ b c r x, Reaches s b ∧ Response.proper ⟨c, r, x⟩ ∧ t = b.finish c r x

/-- An outcome is the last operation of a command. -/
theorem Ends.reaches {s t : State} (h : Ends s t) : Reaches s t := by
  obtain ⟨b, c, r, x, hb, hp, rfl⟩ := h
  exact hb.tail (.finish b c r x hp)

/-- Operations before a command's own belong to it. -/
theorem Ends.of_reaches {s u t : State} (hu : Reaches s u) (h : Ends u t) : Ends s t := by
  obtain ⟨b, c, r, x, hb, hp, e⟩ := h
  exact ⟨b, c, r, x, hu.trans hb, hp, e⟩

/-- What an ended command answers is proper, and STATUS shows it (rules R38, R56). -/
theorem Ends.response {s t : State} (h : Ends s t) :
    ∃ r, t.response = some r ∧ t.status = statusWord r.code r.reason ∧ r.proper := by
  obtain ⟨b, c, r, x, _, hp, rfl⟩ := h
  exact ⟨⟨c, r, x⟩, rfl, rfl, hp⟩

/-- An outcome without result is proper when its reason belongs to its code (rule R306). -/
theorem Response.proper_none {c : Code} {r : Reason} (h : r.code = c) : Response.proper ⟨c, r, .none⟩ :=
  ⟨⟨h, fun _ => rfl⟩, fun _ e => by cases e⟩

section
variable {s u : State} (hu : Reaches s u)
include hu

theorem ends_ok (x : Result) (hx : ∀ tex, x = .texture tex → WellFormedTexture tex) : Ends s (u.ok x) :=
  ⟨u, .ok, .none, x, hu, ⟨⟨rfl, fun h => absurd rfl h⟩, hx⟩, rfl⟩

theorem ends_finish {c : Code} {r : Reason} (h : r.code = c) : Ends s (u.finish c r .none) :=
  ⟨u, c, r, .none, hu, Response.proper_none h, rfl⟩

theorem ends_illegal {r : Reason} (h : r.code = .illegalCommand) : Ends s (u.illegal r) :=
  ends_finish hu h

/-- A candidate that ends without result (rule R183). -/
theorem ends_endCandidate (p0 : Nat) (c : U64) (ldecl : Nat) {code : Code} {r : Reason} (h : r.code = code) :
    Ends s (endCandidate u p0 c ldecl code r) :=
  ends_finish (hu.tail (.anyCur u _ _)) h

theorem ends_rejectCandidate (p0 : Nat) (c : U64) (ldecl : Nat) {r : Reason} (h : r.code = .formatRejected) :
    Ends s (rejectCandidate u p0 c ldecl r) :=
  ends_endCandidate hu p0 c ldecl h

/-- The end of the stream, in both modes (rule R73). -/
theorem ends_streamEnded (p0 : Nat) (c : U64) (ldecl : Nat) {r : Reason} (h : r.code = .truncatedInput) :
    Ends s (streamEnded u p0 c ldecl r) := by
  unfold streamEnded
  split
  · exact ends_endCandidate hu p0 c ldecl h
  · exact ends_endCandidate hu p0 c ldecl rfl

end

/-- A page command ends if its body does: without a store it is NOT_SETUP (rule R231). -/
theorem ends_whenSetUp {s b : State} (h : Ends s b) : Ends s (s.whenSetUp b) := by
  unfold State.whenSetUp
  split
  · exact h
  · exact ends_illegal .refl rfl

/-- A page command whose body answers OK. -/
theorem ends_whenSetUp_ok {s b : State} (h : Reaches s b) (x : Result)
    (hx : ∀ tex, x ≠ .texture tex) : Ends s (s.whenSetUp (b.ok x)) :=
  ends_whenSetUp (ends_ok h x fun tex e => absurd e (hx tex))

/-! ### The page store, the exports and the registers -/

/-- Clearing the pages of a list, one after another. -/
theorem reaches_foldl_clearPage (l : List (Fin 32)) (s : State) : Reaches s (l.foldl clearPage s) := by
  induction l generalizing s with
  | nil => exact .refl
  | cons p l ih => exact .head (.clear s p) (ih (clearPage s p))

/-- UPDATE_PAGE of the pages of a list, one after another (rule R240). -/
theorem reaches_updatePages (force : Bool) (l : List (Fin 32)) (s : State) :
    Reaches s (updatePages force l s).1 := by
  induction l generalizing s with
  | nil => exact .refl
  | cons p l ih => exact .head (.update s force p) (ih (updatePage force s p).1)

section
variable (s : State)

/-- An instruction of the model, run in `s`, ends. -/
def Ended (o : Out) : Prop := ∃ t, o = .next t ∧ Ends s t

theorem ended_next {s t : State} (h : Ends s t) : Ended s (.next t) := ⟨t, rfl, h⟩

/-- A command that answers OK and changes nothing else. -/
theorem ended_ok (x : Result) (hx : ∀ tex, x ≠ .texture tex) : Ended s (.next (s.ok x)) :=
  ended_next (ends_ok .refl x fun tex e => absurd e (hx tex))

theorem execSetup_ended : Ended s (execSetup s) := by
  apply ended_next
  split
  · next h =>
    obtain ⟨h1, h2⟩ := Bool.and_eq_true_iff.1 h
    exact ends_ok (.single (.setup s h1 h2)) _ nofun
  · exact ends_illegal .refl rfl

theorem execDraw_ended (suppress : Bool) (t : Texture) : Ended s (execDraw suppress t s) := by
  apply ended_next
  apply ends_whenSetUp
  split
  · exact ends_ok (.single (.draw s suppress t _)) _ nofun
  · exact ends_illegal .refl rfl

theorem execExportTextureGrid_ended (cols : U64) (texs : List Texture) :
    Ended s (execExportTextureGrid cols texs s) := by
  apply ended_next
  split_ifs
  · exact ends_illegal .refl rfl
  · exact ends_ok .refl _ nofun
  · exact ends_illegal .refl rfl

theorem execExportPageTiled_ended (p : BitVec 5) (rx ry rw rh nx ny : U16) (hi : U32) :
    Ended s (execExportPageTiled p rx ry rw rh nx ny hi s) := by
  apply ended_next
  apply ends_whenSetUp
  split
  · exact ends_ok .refl _ nofun
  · exact ends_illegal .refl rfl

theorem execReadReg_ended (r : BitVec 5) : Ended s (execReadReg r s) := by
  apply ended_next
  split_ifs
  · exact ends_illegal .refl rfl
  · exact ends_illegal .refl rfl
  · exact ends_ok .refl _ nofun
  · exact ends_illegal .refl rfl

theorem execWriteReg_ended (r : BitVec 5) (v : U64) : Ended s (execWriteReg r v s) := by
  apply ended_next
  split_ifs
  · exact ends_illegal .refl rfl
  · exact ends_illegal .refl rfl
  · exact ends_illegal .refl rfl
  · exact ends_ok (.single (.setReg s _ v)) _ nofun

end

/-! ### The palette load -/

/-- Every colour of palette row 0 that an index of this format selects has alpha 0 or 255. -/
def Palette.rowAlphaOk (p : Palette) (fmt8 : Bool) : Prop :=
  ∀ i, i < rowSize fmt8 → alphaOk (palCell p 0 i).color = true

/-- An expanded word has alpha 0 or 255 (rules R130, R131). -/
theorem alphaOk_expand16 (w : U16) : alphaOk (expand16 w).color = true := by
  unfold expand16
  split <;> simp [alphaOk, maskingBlack, colorZero]

/-- So has every entry of a loaded row (rule R137). -/
theorem alphaOk_expandRow (u : UnreadEntry) (fmt8 : Bool) (cw : Nat) (ws : List U16) :
    ∀ e ∈ expandRow u fmt8 cw ws, alphaOk e.color = true := by
  have hb : alphaOk maskingBlack.color = true := rfl
  have hs : ∀ e ∈ (ws.take (rowCols fmt8 cw)).map expand16, alphaOk e.color = true := by
    intro e he
    obtain ⟨w, _, rfl⟩ := List.mem_map.1 he
    exact alphaOk_expand16 w
  intro e he
  simp only [expandRow, List.mem_append] at he
  obtain he | he := he
  · exact hs e he
  · obtain rfl := (List.mem_replicate.1 he).2
    unfold unreadEntry
    split
    · exact hb
    · cases hl : (ws.take (rowCols fmt8 cw)).map expand16 with
      | nil => exact hb
      | cons a l => exact hs a (hl ▸ List.mem_cons_self)

/-- A completed load of at least one row defines row 0 (rules R42, R134). -/
theorem rowAlphaOk_loadedPalette (p : Palette) (u : UnreadEntry) (fmt8 : Bool) (cw : Nat)
    (ws : List (List U16)) (epoch : Nat) (h1 : 1 ≤ ws.length) (hw : ∀ w ∈ ws, w.length = cw) :
    (loadedPalette p u fmt8 cw ws epoch).rowAlphaOk fmt8 := by
  intro i hi
  cases ws with
  | nil => simp at h1
  | cons w ws =>
    have hlen := length_expandRow u fmt8 cw w (hw w List.mem_cons_self)
    have hget : (expandRow u fmt8 cw w)[i]? = some ((expandRow u fmt8 cw w)[i]'(by omega)) :=
      List.getElem?_eq_getElem _
    simp only [palCell, loadedPalette, List.map_cons, List.getElem?_cons_zero, hget]
    exact alphaOk_expandRow u fmt8 cw w _ (List.getElem_mem _)

theorem clutDimOk_iff (n : Nat) : clutDimOk n = true ↔ 1 ≤ n ∧ n ≤ 256 := by
  simp only [clutDimOk, Bool.and_eq_true, decide_eq_true_eq]
  omega

/-- A load of a legal clut is a run of operations, and a completed one leaves proper colours in row 0. -/
theorem paletteLoad_reaches (s : State) (fmt8 : Bool) (cw ch : Nat) (first : Bool)
    (hcw : clutDimOk cw = true) (hch : clutDimOk ch = true) :
    (∃ t, paletteLoad s fmt8 cw ch first = .done t ∧ Reaches s t ∧ t.pal.rowAlphaOk fmt8) ∨
      ∃ t, paletteLoad s fmt8 cw ch first = .eos t ∧ Reaches s t := by
  have hn : 1 ≤ rowsDecoded first ch ∧ rowsDecoded first ch ≤ 256 := by
    have := (clutDimOk_iff ch).1 hch
    unfold rowsDecoded
    split <;> omega
  obtain ⟨ws, c, hl, hw, e⟩ | ⟨c, e⟩ := paletteLoad_cases s fmt8 cw ch first
  · refine .inl ⟨_, e, ?_, ?_⟩
    · exact .tail (.single (.load s _ fmt8 cw ws _ ((clutDimOk_iff cw).1 hcw).1 (by omega) (by omega) hw))
        (.setCur _ c)
    · exact rowAlphaOk_loadedPalette _ _ fmt8 cw ws _ (by omega) hw
  · exact .inr ⟨_, e, .tail (.single (.cutShort s _ _ hn.2)) (.setCur _ c)⟩

theorem readPaletteRows_ends (s : State) (fmt8 first : Bool) (cw ch : Nat) (hcw : clutDimOk cw = true)
    (hch : clutDimOk ch = true) : Ends s (readPaletteRows s fmt8 first cw ch) := by
  unfold readPaletteRows
  split
  · exact ends_finish (.single (.setCur s _)) rfl
  · have hd : Reaches s _ := .single (.setPalDim s 0 0 (BitVec.ofNat 16 cw) (BitVec.ofNat 16 ch))
    obtain ⟨t, e, ht, _⟩ | ⟨t, e, ht⟩ := paletteLoad_reaches _ fmt8 cw ch first hcw hch
    · rw [e]
      exact ends_ok (hd.trans ht) _ (by simp [paletteResult])
    · rw [e]
      exact ends_finish ((hd.trans ht).tail (.anyCur t _ _)) (by split <;> rfl)

theorem execReadPalette_ended (s : State) (m : BitVec 2) (first : Bool) (w h : U64) :
    Ended s (execReadPalette m first w h s) := by
  apply ended_next
  split_ifs with _ _ hh hw
  · exact ends_illegal .refl rfl
  · exact ends_illegal .refl rfl
  · exact ends_illegal .refl rfl
  · exact ends_finish .refl rfl
  · exact readPaletteRows_ends s _ first _ _ (by simpa using hw) (by simpa using hh)

/-! ### The textures of the TIM decoder -/

/-- A row of `w` pixels with alphas 0 or 255, with `w` mask cells where the format has a mask. -/
def PixelRow.proper (fmt : PixelFormat) (w : Nat) (row : PixelRow) : Prop :=
  row.color.length = w ∧ (fmt ≠ .direct24 → row.mask.length = w) ∧ ∀ c ∈ row.color, alphaOk c = true

/-- What a mapped reading answers is the image of what was read. -/
theorem readMap_ok {α β : Type} {f : α → β} {r : Reader α} {cur c : U64} {v : β}
    (h : readMap f r cur = .ok v c) : ∃ a, r cur = .ok a c ∧ v = f a := by
  simp only [readMap, readThen, readPure] at h
  split at h
  · next a c' e =>
    cases h
    exact ⟨a, e, rfl⟩
  · cases h

/-- A Direct24 pixel is opaque (rule R112). -/
theorem alphaOk_of_rd24 {m : Memory} {slen : Nat} {cur c : U64} {v : Color}
    (h : rd24 m slen cur = .ok v c) : alphaOk v = true := by
  simp only [rd24, readThen] at h
  split at h
  · split at h
    · obtain ⟨b, _, rfl⟩ := readMap_ok h
      rfl
    · cases h
  · cases h

/-- The rows that indices below the row size select (rules R180, R202). -/
theorem indexedRow_proper (src : IndexedMaskSource) (p : Palette) (fmt : PixelFormat) (fmt8 : Bool)
    (idxs : List Byte) (hp : p.rowAlphaOk fmt8) (hi : ∀ i ∈ idxs, i.toNat < rowSize fmt8) :
    (indexedRow src p idxs).proper fmt idxs.length := by
  refine ⟨by simp [indexedRow], fun _ => by simp [indexedRow], fun c hc => ?_⟩
  obtain ⟨i, him, rfl⟩ := List.mem_map.1 hc
  exact hp _ (hi i him)

/-- A nibble is a 4-bit index. -/
theorem toNat_lt_of_mem_nibbles {b i : Byte} (h : i ∈ nibbles b) : i.toNat < 16 := by
  simp only [nibbles, List.mem_cons, List.not_mem_nil, or_false] at h
  obtain rfl | rfl := h <;>
  · rw [BitVec.toNat_setWidth, BitVec.extractLsb'_toNat]
    omega

theorem length_flatMap_nibbles (bs : List Byte) : (bs.flatMap nibbles).length = 2 * bs.length := by
  induction bs with
  | nil => rfl
  | cons b t ih =>
    rw [List.flatMap_cons, List.length_append, ih, List.length_cons, nibbles, List.length_cons,
      List.length_singleton]
    omega

/-- The palette that an indexed format needs: row 0 with proper colours, of the format's size. -/
def State.paletteFor (s : State) (fmt : PixelFormat) : Prop :=
  isIndexed fmt = true → s.pal.rowAlphaOk (fmt == .indexed8)

/-- A row that is read, of a width the format can have, is proper (rules R201 to R205). -/
theorem readRow_proper (s : State) (fmt : PixelFormat) (st : Nat) (cur c : U64) (row : PixelRow)
    (hp : s.paletteFor fmt) (h : readRow s fmt (pixelWidth fmt st) cur = .ok row c) :
    row.proper fmt (pixelWidth fmt st) := by
  cases fmt with
  | indexed4 =>
    obtain ⟨bs, hbs, rfl⟩ := readMap_ok h
    have hl : (bs.flatMap nibbles).length = pixelWidth .indexed4 st := by
      rw [length_flatMap_nibbles, length_readMany _ _ _ _ hbs]
      simp only [pixelWidth, bitsPerPixel]
      omega
    rw [← hl]
    refine indexedRow_proper _ _ _ false _ (hp rfl) fun i hi => ?_
    obtain ⟨b, _, hb⟩ := List.mem_flatMap.1 hi
    exact toNat_lt_of_mem_nibbles hb
  | indexed8 =>
    obtain ⟨bs, hbs, rfl⟩ := readMap_ok h
    rw [← length_readMany _ _ _ _ hbs]
    exact indexedRow_proper _ _ _ true _ (hp rfl) fun i _ => i.isLt
  | direct16 =>
    obtain ⟨ws, hws, rfl⟩ := readMap_ok h
    have hl := length_readMany _ _ _ _ hws
    refine ⟨by simpa using hl, fun _ => by simpa using hl, fun c hc => ?_⟩
    obtain ⟨w, _, rfl⟩ := List.mem_map.1 hc
    exact alphaOk_expand16 w
  | direct24 =>
    obtain ⟨cs, hcs, rfl⟩ := readMap_ok h
    exact ⟨length_readMany _ _ _ _ hcs, fun hn => absurd rfl hn,
      mem_readMany _ (fun _ _ _ => alphaOk_of_rd24) _ _ _ _ hcs⟩

/-- An unpacked image has its height in proper rows (rules R200 to R206). -/
theorem unpack_proper (s : State) (fmt : PixelFormat) (st h rowLen : Nat) (cur c : U64)
    (rows : List PixelRow) (hp : s.paletteFor fmt)
    (hu : unpack s fmt (pixelWidth fmt st) h rowLen cur = .ok rows c) :
    rows.length = h ∧ ∀ row ∈ rows, row.proper fmt (pixelWidth fmt st) := by
  refine ⟨length_readMany _ _ _ _ hu, mem_readMany _ (fun cur row c hr => ?_) _ _ _ _ hu⟩
  unfold unpackRow at hr
  split at hr
  · next e =>
    cases hr
    exact readRow_proper s fmt st _ _ _ hp e
  · cases hr

/-- The texture of proper rows at an origin on a page is well formed (rules R48, R181, R208). -/
theorem wellFormedTexture_decodedTexture (fmt : PixelFormat) (hd : ImgHeader) (rows : List PixelRow)
    (hl : rows.length = hd.h.toNat) (hr : ∀ row ∈ rows, row.proper fmt (pixelWidth fmt hd.stride.toNat))
    (ho : originOnPage hd.ox.toNat hd.oy.toNat = true) :
    WellFormedTexture (decodedTexture fmt hd rows) := by
  refine ⟨⟨by simpa [decodedTexture] using hl, fun row hrow => ?_⟩, ?_, ?_, rfl, fun row hrow c hc => ?_⟩
  · obtain ⟨r, hmem, rfl⟩ := List.mem_map.1 hrow
    exact (hr r hmem).1
  · by_cases hf : fmt = .direct24
    · rw [if_pos (show (decodedTexture fmt hd rows).fmt = .direct24 from hf)]
      subst hf
      rfl
    · rw [if_neg (show (decodedTexture fmt hd rows).fmt ≠ .direct24 from hf)]
      refine ⟨rows.map (·.mask), by simp [decodedTexture, (hasMask_iff fmt).2 hf],
        by simpa [decodedTexture] using hl, fun row hrow => ?_⟩
      obtain ⟨r, hmem, rfl⟩ := List.mem_map.1 hrow
      exact (hr r hmem).2.1 hf
  · simp only [originOnPage, Bool.and_eq_true, decide_eq_true_eq] at ho
    simp only [decodedTexture, originPage]
    omega
  · obtain ⟨r, hmem, rfl⟩ := List.mem_map.1 hrow
    exact (alphaOk_iff c).1 ((hr r hmem).2.2 c hc)

/-! ### The TIM decoder -/

section
variable {s u : State} (hu : Reaches s u)
include hu

theorem decodePixels_ends (fmt : PixelFormat) (p0 ldecl : Nat) (hd : ImgHeader) (hp : u.paletteFor fmt)
    (ho : originOnPage hd.ox.toNat hd.oy.toNat = true) : Ends s (decodePixels u fmt p0 ldecl hd) := by
  simp only [decodePixels]
  split
  · exact ends_endCandidate hu p0 _ ldecl rfl
  · split
    · next rows c e =>
      obtain ⟨hl, hr⟩ := unpack_proper u fmt _ _ _ _ _ rows hp e
      refine ends_ok (hu.tail (.setCur u c)) _ fun tex ht => ?_
      cases ht
      exact wellFormedTexture_decodedTexture fmt hd rows hl hr ho
    · exact ends_streamEnded hu p0 _ ldecl rfl

theorem checkImage_ends (fmt : PixelFormat) (p0 ldecl : Nat) (hd : ImgHeader) (hp : u.paletteFor fmt) :
    Ends s (checkImage u fmt p0 ldecl hd) := by
  simp only [checkImage]
  split_ifs with _ _ _ _ _ ho
  · exact ends_rejectCandidate hu p0 _ ldecl rfl
  · exact ends_rejectCandidate hu p0 _ ldecl rfl
  · exact ends_rejectCandidate hu p0 _ ldecl rfl
  · exact ends_endCandidate hu p0 _ ldecl rfl
  · exact ends_rejectCandidate hu p0 _ ldecl rfl
  · exact ends_rejectCandidate hu p0 _ ldecl rfl
  · exact decodePixels_ends hu fmt p0 ldecl hd hp (by simpa using ho)

theorem readImage_ends (fmt : PixelFormat) (p0 base : Nat) (hp : u.paletteFor fmt) :
    Ends s (readImage u fmt p0 base) := by
  unfold readImage
  split
  · exact ends_streamEnded hu p0 _ base rfl
  · exact checkImage_ends (hu.tail (.setCur u _)) fmt p0 _ _ hp

/-- The rows that a palette block loads are of the size its format needs (rule R168). -/
theorem loadPaletteBlock_ends (code : PixelFormat) (p0 : Nat) (h : PalHeader) :
    Ends s (loadPaletteBlock u code p0 h) := by
  simp only [loadPaletteBlock]
  split_ifs with hw hh
  · exact ends_rejectCandidate hu p0 _ _ rfl
  · exact ends_rejectCandidate hu p0 _ _ rfl
  · exact ends_endCandidate hu p0 _ _ rfl
  · have hd := hu.tail (.setPalDim u h.dx h.dy h.w h.h)
    obtain ⟨t, e, ht, hp⟩ | ⟨t, e, ht⟩ := paletteLoad_reaches (u.setPalDim h.dx h.dy h.w h.h)
      (formatWithPalette code h.w.toNat == .indexed8) h.w.toNat h.h.toNat u.firstRowOnly
      (by simpa using hw) (by simpa using hh)
    · rw [e]
      exact readImage_ends (hd.trans ht) _ p0 _ fun _ => hp
    · rw [e]
      exact ends_streamEnded (hd.trans ht) p0 _ _ rfl

theorem readPaletteBlock_ends (code : PixelFormat) (p0 : Nat) : Ends s (readPaletteBlock u code p0) := by
  unfold readPaletteBlock
  split
  · exact ends_streamEnded hu p0 _ 8 rfl
  · exact loadPaletteBlock_ends (hu.tail (.setCur u _)) code p0 _

end

section
variable (s : State)

theorem fastReject_ended : Ended s (.next (fastReject s)) := ended_next (ends_finish .refl rfl)

theorem rejectNoPalette_ended : Ended s (.next (rejectNoPalette s)) :=
  ended_next (ends_rejectCandidate .refl _ _ 8 rfl)

/-- A row whose image follows the flags word: a direct format, which needs no palette. -/
theorem imageRow_ended (fmt : PixelFormat) (p0 base : Nat) (hf : isIndexed fmt = false) :
    Ended s (.next (readImage s fmt p0 base)) :=
  ended_next (readImage_ends .refl fmt p0 base fun h => by rw [hf] at h; cases h)

theorem paletteRow_ended (code : PixelFormat) (p0 : Nat) : Ended s (.next (readPaletteBlock s code p0)) :=
  ended_next (readPaletteBlock_ends .refl code p0)

/-- The sixteen rows of the flags word (rule R103). -/
theorem runFlags_ended (code : BitVec 4) (hi : BitVec 28) : Ended s (runFlags code hi s) := by
  unfold runFlags
  split
  case h_1 | h_2 => exact rejectNoPalette_ended s
  case h_3 | h_4 => exact imageRow_ended s _ _ _ rfl
  case h_9 | h_10 | h_11 | h_12 => exact paletteRow_ended s _ _
  all_goals exact fastReject_ended s

theorem execDecodeTim_ended : Ended s (execDecodeTim s) := by
  unfold execDecodeTim
  split
  · obtain ⟨w, c, h⟩ | ⟨c, h⟩ | ⟨c, r, hr, h⟩ := readHeader_cases s
    · rw [h]
      obtain ⟨t, e, ht⟩ := runFlags_ended (s.setCur c) (flagsCode w) (flagsRest w)
      exact ⟨t, e, ht.of_reaches (.single (.setCur s c))⟩
    · rw [h]
      exact ended_next (ends_streamEnded .refl _ c 8 rfl)
    · rw [h]
      exact ended_next (ends_rejectCandidate .refl _ c 8 (by obtain rfl | rfl := hr <;> rfl))
  · exact ended_next (ends_illegal .refl rfl)

/-! ### Every instruction, and the step -/

/-- Every instruction, in every state, is a run of operations and a proper outcome. -/
theorem exec_ended (i : Instr) : Ended s (exec i s) := by
  cases i with
  | setup => exact execSetup_ended s
  | decodeTim => exact execDecodeTim_ended s
  | readPalette m first w h => exact execReadPalette_ended s m first w h
  | draw suppress t => exact execDraw_ended s suppress t
  | clear p => exact ended_next (ends_whenSetUp_ok (.single (.clear s (pageOf p))) _ nofun)
  | clearAll => exact ended_next (ends_whenSetUp_ok (reaches_foldl_clearPage allPages s) _ nofun)
  | updatePage p force =>
    exact ended_next (ends_whenSetUp_ok (.single (.update s force (pageOf p))) _ nofun)
  | updateAllPages force =>
    exact ended_next (ends_whenSetUp_ok (reaches_updatePages force allPages s) _ nofun)
  | isUsed | exportPageColor | exportPageStp => exact ended_next (ends_whenSetUp_ok .refl _ nofun)
  | getModeFromClut | containsPage | clampPage | clampCoord => exact ended_ok s _ nofun
  | exportTextureGrid cols texs => exact execExportTextureGrid_ended s cols texs
  | exportPageTiled p rx ry rw rh nx ny hi => exact execExportPageTiled_ended s p rx ry rw rh nx ny hi
  | readReg r => exact execReadReg_ended s r
  | writeReg r v => exact execWriteReg_ended s r v
  | timIndexed4 | timIndexed8 => exact rejectNoPalette_ended s
  | timDirect16 | timDirect24 => exact imageRow_ended s _ _ _ rfl
  | timIndexed4Pal | timIndexed8Pal | timDirect16Pal | timDirect24Pal => exact paletteRow_ended s _ _
  | timMixed | timInvalid5 | timInvalid6 | timInvalid7 | timMixedPal | timInvalid5Pal | timInvalid6Pal
  | timInvalid7Pal => exact fastReject_ended s

end

/-- What `exec` goes on to, an instruction reaches with a proper outcome. -/
theorem ends_of_exec {i : Instr} {s t : State} (h : exec i s = .next t) : Ends s t := by
  obtain ⟨t', e, ht⟩ := exec_ended s i
  obtain rfl : t' = t := by simpa [e] using h
  exact ht

/-- An illegal encoding that has an outcome is answered (rules R117, R307). -/
theorem reaches_of_illegalEncoding {e : DecodeError} {s t : State} (h : illegalEncoding s e = .next t) :
    Reaches s t := by
  cases e with
  | payloadMismatch => cases h
  | badOpcode | reservedBits | badFormat =>
    cases h
    exact (ends_illegal .refl rfl).reaches

theorem reaches_of_loadStream {bytes : List Byte} {s t : State} (h : loadStream bytes s = .next t) :
    Reaches s t := by
  unfold loadStream at h
  split at h
  · next hl =>
    cases h
    exact .single (.loadBytes s bytes hl)
  · cases h

/-- Every step is a run of operations (rules R7, R83). -/
theorem reaches_of_step {s t : State} (h : step s = .next t) : Reaches s t := by
  unfold step at h
  split at h
  · cases h
    exact .refl
  · exact .head (.takeMove s _) (reaches_of_loadStream h)
  · split at h
    · exact .head (.takeMove s _) (ends_of_exec h).reaches
    · exact .head (.takeMove s _) (reaches_of_illegalEncoding h)

/-! ### The statements about every step and every instruction -/

/-- Settles O11: each operation of a step keeps the legal states. -/
theorem stepKeepsLegal : Obligations.StepKeepsLegal :=
  fun _ _ hs h => (reaches_of_step h).keeps Op.keepsLegal hs

/-- Settles O12: each operation of a step keeps consumer coherence. -/
theorem stepKeepsConsumerCoherent : Obligations.StepKeepsConsumerCoherent :=
  fun _ _ hs h => (reaches_of_step h).keeps Op.keepsConsumerCoherent hs

/-- Every reason belongs to a code of rule R300. -/
theorem Reason.code_ne_none (r : Reason) : r.code ≠ .none := by cases r <;> decide

/-- Settles O14: every instruction ends with a proper response, whose code is its reason's. -/
theorem everyInstructionAnswers : Obligations.EveryInstructionAnswers := by
  intro i s
  obtain ⟨t, e, ht⟩ := exec_ended s i
  obtain ⟨r, hr, hst, hp⟩ := ht.response
  exact ⟨t, r, e, hr, hst, hp.1.1 ▸ r.reason.code_ne_none, hp.1⟩

/-- Settles O21: a proper response's texture is well formed. -/
theorem decodedTexturesAreWellFormed : Obligations.DecodedTexturesAreWellFormed := by
  intro s t tex h hr
  obtain ⟨r, hr', _, hp⟩ := (ends_of_exec h).response
  obtain rfl := Option.some.inj (hr'.symm.trans hr)
  exact hp.2 tex rfl

/-- Settles O10: the reset state has no byte, no change point, no palette and no response, and its store is
not set up. -/
theorem resetIsLegalAndCoherent : Obligations.ResetIsLegalAndCoherent := by
  have hpage : ∀ p : Fin 32, State.reset.page p = Page.initial := fun p => by
    simp [State.page, State.reset]
  have hpages : State.reset.pagesCanonical := fun p => by
    rw [hpage]
    rfl
  exact ⟨⟨rfl, hpages, Nat.succ_pos 7, ⟨Nat.zero_le 256, nofun⟩, nofun, rfl⟩, nofun⟩

end Sys2Proof.Machine

/-! SUPPORT. Statements about the state's parts: stream loads, texture payloads, canonical pages, and the
fields of PAGEFLAGS and PALINFO. -/

namespace Sys2Proof.Machine

/-! ### Stream loads and texture payloads -/

/-- Settles O7: the step takes the load's branch, and a loaded byte is the host's. -/
theorem stepLoadsStream : Obligations.StepLoadsStream := by
  intro s bytes rest hinbox hlen
  have hstep : step s = .next ((s.takeMove rest).loadBytes bytes) := by
    simp only [step, hinbox, loadStream, if_pos hlen]
  refine ⟨_, hstep, rfl, Memory.wf_memOfBytes bytes, fun a h => ?_⟩
  change memByte (memOfBytes 0 bytes) a = bytes[a]
  rw [memByte_memOfBytes bytes 0 a (Nat.zero_le a)]
  simp [h]

/-- Settles O20: both commands check every texture of their payload. -/
theorem badTexturesAreRefused : Obligations.BadTexturesAreRefused := by
  intro s tex hbad
  have hok := (textureOk_eq_false tex).2 hbad
  refine ⟨fun suppress hr => ?_, fun cols l hmem => ?_⟩
  · rw [← illegal_eq_answers]
    simp only [exec, execDraw, s.whenSetUp_ready _ hr, hok, Bool.false_eq_true, if_false]
  · have hall : ¬l.all textureOk = true := fun h => by
      rw [List.all_eq_true.1 h tex hmem] at hok
      cases hok
    rw [← illegal_eq_answers]
    simp only [exec, execExportTextureGrid, if_neg hall, ite_self]

/-! ### Canonical pages -/

section
variable {α : Type} [DecidableEq α]

/-- The parts of a canonical table with a first change point. -/
theorem cellsWf_cons {last d v : α} {lo a hi : Nat} {t : Cells α} :
    cellsWf last d lo hi ((a, v) :: t) = true ↔
      lo ≤ a ∧ a ≤ hi ∧ v ≠ d ∧ cellsWf last v (a + 1) hi t = true := by
  simp only [cellsWf, Bool.and_eq_true, decide_eq_true_eq, and_assoc]

/-- A canonical table has no change point past its upper bound, and `last` is in force there. -/
theorem eq_nil_of_cellsWf {last d : α} {lo hi : Nat} {m : Cells α} (h : cellsWf last d lo hi m = true)
    (hlo : hi < lo) : m = [] ∧ d = last := by
  cases m with
  | nil => exact ⟨rfl, by simpa [cellsWf] using h⟩
  | cons x t =>
    obtain ⟨h1, h2, _⟩ := cellsWf_cons.1 h
    omega

/-- A canonical table is canonical from any bound at or before its first change point. -/
theorem cellsWf_of_headFrom {last d : α} {lo lo' hi : Nat} {m : Cells α}
    (h : cellsWf last d lo hi m = true) (hh : headFrom lo' m) : cellsWf last d lo' hi m = true := by
  cases m with
  | nil => exact h
  | cons x t =>
    obtain ⟨_, h2, h3, h4⟩ := cellsWf_cons.1 h
    exact cellsWf_cons.2 ⟨hh, h2, h3, h4⟩

/-- At its first change point a table reads the value that comes into force. -/
theorem cellsRead_first {last d v : α} {lo a hi : Nat} {t : Cells α}
    (h : cellsWf last d lo hi ((a, v) :: t) = true) : cellsRead d ((a, v) :: t) a = v := by
  obtain ⟨_, _, _, ht⟩ := cellsWf_cons.1 h
  rw [cellsRead_cons_ge d v a a t (Nat.le_refl a)]
  exact cellsRead_before v (a + 1) a t (headFrom_of_cellsWf last v (a + 1) hi t ht) (Nat.lt_succ_self a)

/-- A change point cannot stand where another canonical table with the same cells, whose own change points
come later, still has the value in force before it. -/
theorem no_change_before {last d v : α} {lo a hi : Nat} {t m : Cells α}
    (h : cellsWf last d lo hi ((a, v) :: t) = true) (hm : cellsWf last d (a + 1) hi m = true)
    (he : ∀ q, lo ≤ q → q < hi → cellsRead d ((a, v) :: t) q = cellsRead d m q) : False := by
  obtain ⟨hlo, hhi, hne, ht⟩ := cellsWf_cons.1 h
  by_cases ha : a < hi
  · have hread := he a hlo ha
    rw [cellsRead_first h, cellsRead_before d (a + 1) a m (headFrom_of_cellsWf last d _ hi m hm) (by omega)]
      at hread
    exact hne hread
  · have hv := (eq_nil_of_cellsWf ht (by omega)).2
    have hd := (eq_nil_of_cellsWf hm (by omega)).2
    exact hne (hv.trans hd.symm)

/-- The form is canonical: tables with the same cells are the same table (log entry 8). -/
theorem cells_ext {last d : α} {lo hi : Nat} {m n : Cells α} (hm : cellsWf last d lo hi m = true)
    (hn : cellsWf last d lo hi n = true)
    (he : ∀ q, lo ≤ q → q < hi → cellsRead d m q = cellsRead d n q) : m = n := by
  induction m generalizing d lo n with
  | nil =>
    cases n with
    | nil => rfl
    | cons y n =>
      exact (no_change_before hn (cellsWf_of_headFrom hm trivial) fun q h1 h2 => (he q h1 h2).symm).elim
  | cons x m ih =>
    obtain ⟨a, v⟩ := x
    cases n with
    | nil => exact (no_change_before hm (cellsWf_of_headFrom hn trivial) he).elim
    | cons y n =>
      obtain ⟨b, w⟩ := y
      rcases Nat.lt_trichotomy a b with h | rfl | h
      · exact (no_change_before hm (cellsWf_of_headFrom hn h) he).elim
      · obtain ⟨hlo, hhi, _, hm'⟩ := cellsWf_cons.1 hm
        obtain ⟨_, _, _, hn'⟩ := cellsWf_cons.1 hn
        have hvw : v = w := by
          by_cases ha : a < hi
          · rw [← cellsRead_first hm, ← cellsRead_first hn, he a hlo ha]
          · exact (eq_nil_of_cellsWf hm' (by omega)).2.trans (eq_nil_of_cellsWf hn' (by omega)).2.symm
        subst hvw
        have htail : m = n := ih hm' hn' (fun q h1 h2 => by
          have hq := he q (by omega) h2
          rwa [cellsRead_cons_ge d v a q m (by omega), cellsRead_cons_ge d v a q n (by omega)] at hq)
        rw [htail]
      · exact (no_change_before hn (cellsWf_of_headFrom hm h) fun q h1 h2 => (he q h1 h2).symm).elim

end

/-- Settles O30: both regions of the pages are canonical tables with the same cells. -/
theorem equalContentsAreEqualPages : Obligations.EqualContentsAreEqualPages := by
  intro a b ha hb hused hmod hcells
  simp only [pageCanonical, Bool.and_eq_true] at ha hb
  have hcell : ∀ q, q < 65536 → cellNo (q % 256) (q / 256) = q ∧ q % 256 < 256 ∧ q / 256 < 256 := by
    intro q hq
    unfold cellNo
    omega
  have hcolor : a.color = b.color := cells_ext ha.1 hb.1 fun q _ hq => by
    obtain ⟨e, hx, hy⟩ := hcell q hq
    simpa only [colorCell, e] using (hcells _ _ hx hy).1
  have hstp : a.stp = b.stp := cells_ext ha.2 hb.2 fun q _ hq => by
    obtain ⟨e, hx, hy⟩ := hcell q hq
    simpa only [stpCell, e] using (hcells _ _ hx hy).2
  calc a = ⟨a.color, a.stp, a.used, a.modified⟩ := rfl
    _ = b := by rw [hcolor, hstp, hused, hmod]

/-! ### Register layouts -/

/-- Bit i of the packed number is entry i. -/
theorem testBit_flagNat (l : List Bool) (i : Nat) : (flagNat l).testBit i = l[i]?.getD false := by
  induction l generalizing i with
  | nil => simp [flagNat]
  | cons b l ih =>
    cases i with
    | zero => cases b <;> simp [flagNat, Nat.testBit_zero]
    | succ i =>
      have hdiv : (b.toNat + 2 * flagNat l) / 2 = flagNat l := by
        have := b.toNat_le
        omega
      rw [flagNat, Nat.testBit_succ, hdiv, ih, List.getElem?_cons_succ]

/-- A flag of page p in the packed flags of all pages. -/
theorem testBit_flagNat_pages (s : State) (f : Page → Bool) (p : Fin 32) :
    (flagNat (s.pages.toList.map f)).testBit p = f (s.page p) := by
  rw [testBit_flagNat]
  simp [State.page]

/-- Settles O38: PAGEFLAGS is two words of one flag per page. -/
theorem pageFlagsLayout : Obligations.PageFlagsLayout := by
  intro s p
  have hp := p.isLt
  constructor
  · rw [pageFlags, BitVec.getLsbD_append, if_pos hp, BitVec.getLsbD_ofNat, testBit_flagNat_pages]
    simp [hp]
  · rw [pageFlags, BitVec.getLsbD_append, if_neg (by omega), Nat.add_sub_cancel_left,
      BitVec.getLsbD_ofNat, testBit_flagNat_pages]
    simp [hp]

/-- PALINFO as arithmetic on the palette metadata (rule R39). -/
theorem palInfo_toNat (p : Palette) : (palInfo p).toNat =
    p.valid.toNat + 2 * p.fmt8.toNat + 4 * p.stpAny.toNat + 16 * p.nRows.toNat +
      65536 * p.nCols.toNat := by
  simp only [palInfo, append_toNat, BitVec.toNat_ofNat, BitVec.toNat_ofBool]
  omega

/-- Settles O37: the fields stand at their positions. -/
theorem palInfoLayout : Obligations.PalInfoLayout := palInfo_toNat

end Sys2Proof.Machine

/-! SUPPORT. READ_PALETTE of a legal clut (rules R140 to R142): the table it loads where its decoded rows lie in
the stream, and its fault in strict mode where they do not. -/

namespace Sys2Proof.Machine

/-! ### READ_PALETTE after its operand checks -/

/-- The format select of a row size. -/
theorem formatSelect_cases (fmt8 : Bool) :
    ¬2 ≤ (if fmt8 then 1 else 0 : BitVec 2).toNat ∧ ((if fmt8 then 1 else 0 : BitVec 2) == 1) = fmt8 := by
  cases fmt8 <;> decide

/-- READ_PALETTE of a legal clut passes its operand checks (rule R140). -/
theorem exec_readPalette_legal (s : State) (fmt8 first : Bool) (cw ch : U64) (hc : s.curWritten = true)
    (hw : clutDimOk cw.toNat = true) (hh : clutDimOk ch.toNat = true) :
    exec (.readPalette (if fmt8 then 1 else 0) first cw ch) s =
      .next (readPaletteRows s fmt8 first cw.toNat ch.toNat) := by
  obtain ⟨h1, h2⟩ := formatSelect_cases fmt8
  simp only [exec, execReadPalette, if_neg h1, h2, hc, hw, hh, Bool.not_true, Bool.false_eq_true, if_false]

/-- PALDIM of READ_PALETTE: no position, and the two operands (rules R40, R140). -/
theorem palDimWord_dims {cw : Nat} (ch : Nat) (hw : cw ≤ 256) :
    palDimWord 0 0 (BitVec.ofNat 16 cw) (BitVec.ofNat 16 ch) =
      BitVec.ofNat 64 (2 ^ 32 * cw + 2 ^ 48 * ch) := by
  apply BitVec.eq_of_toNat_eq
  simp only [palDimWord, append_toNat, BitVec.toNat_ofNat, BitVec.ofNat_eq_ofNat]
  omega

/-- Row and word counts of a load as R140 and the reader write them. -/
theorem rows_mul_words (n cw : Nat) : n * (cw * 2) = 2 * cw * n := by ring

/-! ### The table of a load from a stream offset -/

/-- The table after a load of `n` rows of `cw` words from stream offset `a` (rule R134). -/
def State.loadedTable (s : State) (fmt8 : Bool) (a cw n : Nat) : Palette :=
  loadedPalette s.pal s.params.unreadEntry fmt8 cw (s.rowWordsAt a cw n) s.draws

section
variable (s : State) (fmt8 : Bool) (a cw : Nat) {n : Nat}

theorem length_rowWordsAt (n : Nat) : (s.rowWordsAt a cw n).length = n := by simp [State.rowWordsAt]

theorem length_of_mem_rowWordsAt {n : Nat} : ∀ w ∈ s.rowWordsAt a cw n, w.length = cw := by
  intro w hw
  obtain ⟨r, _, rfl⟩ := List.mem_map.1 hw
  exact length_paletteWords s.stream a cw r

/-- Row r of the words of a load. -/
theorem getElem?_rowWordsAt {r : Nat} (h : r < n) :
    (s.rowWordsAt a cw n)[r]? = some (paletteWords s.stream a cw r) := by
  rw [State.rowWordsAt, List.getElem?_map, List.getElem?_range h, Option.map_some]

theorem dims_rows_loadedTable : Dims (rowSize fmt8) n (s.loadedTable fmt8 a cw n).rows := by
  have h := dims_rows_loadedPalette s.pal s.params.unreadEntry fmt8 cw (s.rowWordsAt a cw n) s.draws
    (length_of_mem_rowWordsAt s a cw)
  rwa [length_rowWordsAt] at h

theorem nRows_loadedTable (h : n ≤ 256) : (s.loadedTable fmt8 a cw n).nRows.toNat = n := by
  have hl := length_rowWordsAt s a cw n
  exact (nRows_loadedPalette _ _ _ _ _ _ (by omega)).trans hl

/-- What READ_PALETTE answers for the load (rule R140). -/
theorem paletteResult_loadedTable (h : n ≤ 256) : paletteResult (s.loadedTable fmt8 a cw n) =
    .palette (s.loadedTable fmt8 a cw n).rows
      ((List.range n).map (palRowFlag (s.loadedTable fmt8 a cw n)))
      (s.loadedTable fmt8 a cw n).stpAny := by
  rw [paletteResult, nRows_loadedTable s fmt8 a cw h]

theorem nCols_loadedTable : (s.loadedTable fmt8 a cw n).nCols.toNat = min cw (rowSize fmt8) :=
  nCols_loadedPalette _ _ _ _ _ _

/-- PALINFO after the load (rules R39, R134). -/
theorem palInfo_loadedTable (h : n ≤ 256) : (palInfo (s.loadedTable fmt8 a cw n)).toNat =
    1 + 2 * fmt8.toNat + 4 * (s.loadedTable fmt8 a cw n).stpAny.toNat + 16 * n +
      65536 * min cw (rowSize fmt8) := by
  rw [palInfo_toNat, nRows_loadedTable s fmt8 a cw h, nCols_loadedTable]
  rfl

theorem stpAny_loadedTable : (s.loadedTable fmt8 a cw n).stpAny =
    ((List.range n).map (palRowFlag (s.loadedTable fmt8 a cw n))).any id := by
  have h := stpAny_loadedPalette s.pal s.params.unreadEntry fmt8 cw (s.rowWordsAt a cw n) s.draws
  rw [length_rowWordsAt] at h
  rw [List.any_map]
  exact h

/-- The flag of a row of the load (rule R138). -/
theorem palRowFlag_loadedTable_of_lt {r : Nat} (h : r < n) :
    palRowFlag (s.loadedTable fmt8 a cw n) r = s.rowFlagAt a cw (rowSize fmt8) r := by
  rw [State.loadedTable, palRowFlag_loadedPalette, getElem?_rowWordsAt s a cw h]
  exact rowHasStp_paletteWords s fmt8 a cw r

/-- The flags of the other rows stay (rule R43). -/
theorem palRowFlag_loadedTable_of_ge {r : Nat} (h : n ≤ r) :
    palRowFlag (s.loadedTable fmt8 a cw n) r = palRowFlag s.pal r := by
  have hl := length_rowWordsAt s a cw n
  rw [State.loadedTable, palRowFlag_loadedPalette, List.getElem?_eq_none (by omega)]

/-- Entry c of row r of the load (rules R134, R135, R137). -/
theorem cellAt_rows_loadedTable {r c : Nat} (hcw : 1 ≤ cw) (hr : r < n) (hc : c < rowSize fmt8) :
    cellAt (s.loadedTable fmt8 a cw n).rows r c = some (s.entryAt a cw (rowSize fmt8) r c) := by
  simp only [cellAt, State.loadedTable, loadedPalette, List.getElem?_map, getElem?_rowWordsAt s a cw hr,
    Option.map_some]
  exact getElem?_expandRow s fmt8 a cw r c hcw hc

end

/-- A cell that the table's rows hold is what the table reads there (rule R42). -/
theorem palCell_of_cellAt {p : Palette} {r c : Nat} {e : PalEntry} (h : cellAt p.rows r c = some e) :
    palCell p r c = e := by
  unfold cellAt at h
  unfold palCell
  split at h
  · next row hrow => simp [hrow, h]
  · cases h

/-! ### READ_PALETTE with its rows in the stream -/

/-- READ_PALETTE whose decoded rows (in tolerant mode, all rows) lie in the stream (rules R134 to R140). -/
theorem readPaletteRows_inside (s : State) (fmt8 first : Bool) (cw ch : Nat) (hch : 1 ≤ ch)
    (hin : s.cur.toNat + 2 * cw * (if s.tolerant then ch else rowsDecoded first ch) ≤ s.slen.toNat) :
    readPaletteRows s fmt8 first cw ch =
      (((s.setPalDim 0 0 (BitVec.ofNat 16 cw) (BitVec.ofNat 16 ch)).setPal
        (s.loadedTable fmt8 s.cur.toNat cw (rowsDecoded first ch))).setCur
          (s.cur + BitVec.ofNat 64 (2 * cw * ch))).ok
        (paletteResult (s.loadedTable fmt8 s.cur.toNat cw (rowsDecoded first ch))) := by
  have hn : rowsDecoded first ch ≤ ch := by unfold rowsDecoded; split <;> omega
  have hrows : s.cur.toNat + rowsDecoded first ch * (cw * 2) ≤ s.slen.toNat := by
    have hle : 2 * cw * rowsDecoded first ch ≤ 2 * cw * ch := Nat.mul_le_mul_left _ hn
    rw [rows_mul_words]
    split at hin <;> omega
  have hspan : ¬(s.tolerant && decide (2 * cw * ch > remaining s.slen.toNat s.cur)) = true := by
    rw [Bool.and_eq_true, decide_eq_true_eq, remaining]
    rintro ⟨ht, _⟩
    rw [ht, if_pos rfl] at hin
    omega
  unfold readPaletteRows
  rw [if_neg hspan, paletteLoad_done (s.setPalDim 0 0 (BitVec.ofNat 16 cw) (BitVec.ofNat 16 ch)) fmt8 cw
    ch first hch hrows]
  rfl

/-- Settles O42: the loaded table gives the answer, PALINFO and every cell. -/
theorem readPaletteLoadsTheRows : Obligations.ReadPaletteLoadsTheRows := by
  intro s fmt8 first cw ch hc hw1 hw2 hh1 hh2 size n hin
  have hn : rowsDecoded first ch.toNat ≤ 256 := by unfold rowsDecoded; split <;> omega
  have hexec := exec_readPalette_legal s fmt8 first cw ch hc (clutDimOk_of _ hw1 hw2)
    (clutDimOk_of _ hh1 hh2)
  rw [readPaletteRows_inside s fmt8 first cw.toNat ch.toNat hh1 hin,
    paletteResult_loadedTable s fmt8 _ _ hn] at hexec
  refine ⟨_, _, _, _, hexec, ?_, dims_rows_loadedTable s fmt8 s.cur.toNat cw.toNat,
    (List.length_map (palRowFlag (s.loadedTable fmt8 s.cur.toNat cw.toNat n))).trans List.length_range,
    stpAny_loadedTable s fmt8 s.cur.toNat cw.toNat, ?_,
    fun r hr => palRowFlag_loadedTable_of_ge s fmt8 _ _ hr, fun r hr => ⟨?_, ?_, fun c hcs => ?_⟩⟩
  · rw [← palDimWord_dims _ hw2]
    rfl
  · exact palInfo_loadedTable s fmt8 _ _ hn
  · rw [List.getElem?_map, List.getElem?_range hr, Option.map_some,
      palRowFlag_loadedTable_of_lt s fmt8 _ _ hr]
    rfl
  · exact palRowFlag_loadedTable_of_lt s fmt8 _ _ hr
  · have hcell := cellAt_rows_loadedTable s fmt8 s.cur.toNat cw.toNat hw1 hr hcs
    exact ⟨hcell, palCell_of_cellAt hcell⟩

/-! ### READ_PALETTE past the end of the stream -/

/-- READ_PALETTE in strict mode whose decoded rows pass the end of the stream (rules R139, R142). -/
theorem readPaletteRows_past (s : State) (fmt8 first : Bool) (cw ch : Nat) (hcw : 1 ≤ cw) (hch : 1 ≤ ch)
    (ht : s.tolerant = false) (hp : s.slen.toNat < s.cur.toNat + 2 * cw * rowsDecoded first ch) :
    ∃ c, readPaletteRows s fmt8 first cw ch =
      ((((s.setPalDim 0 0 (BitVec.ofNat 16 cw) (BitVec.ofNat 16 ch)).setPal
        (brokenPalette s.pal (rowsDecoded first ch) s.draws)).setCur c).anyCur s.cur.toNat
          (s.cur.toNat + 2 * cw * ch)).finish .decodeFault .streamEnd .none := by
  obtain ⟨c, _, e⟩ := paletteLoad_past (s.setPalDim 0 0 (BitVec.ofNat 16 cw) (BitVec.ofNat 16 ch)) fmt8 cw ch
    first hcw hch (by rw [rows_mul_words]; exact hp)
  refine ⟨c, ?_⟩
  unfold readPaletteRows
  simp only [ht, Bool.false_and, Bool.false_eq_true, if_false, e]
  rfl

/-- Settles O44: the load is cut short, and the cursor is then drawn from the span. -/
theorem readPaletteStrictStreamEnd : Obligations.ReadPaletteStrictStreamEnd := by
  intro s fmt8 first cw ch hc ht hw1 hw2 hh1 hh2 hp
  have hexec := exec_readPalette_legal s fmt8 first cw ch hc (clutDimOk_of _ hw1 hw2)
    (clutDimOk_of _ hh1 hh2)
  obtain ⟨c, e⟩ := readPaletteRows_past s fmt8 first cw.toNat ch.toNat hw1 hh1 ht hp
  rw [e] at hexec
  obtain ⟨hlo, hhi⟩ := anyCur_range (((s.setPalDim 0 0 (BitVec.ofNat 16 cw.toNat)
    (BitVec.ofNat 16 ch.toNat)).setPal (brokenPalette s.pal (rowsDecoded first ch.toNat) s.draws)).setCur c)
    s.cur.toNat (s.cur.toNat + 2 * cw.toNat * ch.toNat) (Nat.le_add_right _ _) s.cur.isLt
  refine ⟨_, hexec, ?_, hlo, hhi, rfl, rfl, rfl, rfl, rfl,
    fun r hr => palRowFlag_brokenPalette s.pal _ s.draws r hr⟩
  rw [← palDimWord_dims _ hw2]
  rfl

end Sys2Proof.Machine

/-! SUPPORT. Running a command (rules R83, R84, R121): the step on a command's encoding, and two draws. -/

namespace Sys2Proof.Machine

/-! ### The step -/

/-- Settles O5: the step takes the command's branch of the oldest move, and the decoder's branch there. -/
theorem stepRunsDecodedCommand : Obligations.StepRunsDecodedCommand := by
  intro s t rest i hinbox hdecode _
  have hstep : step s = exec i (s.takeMove rest) := by simp only [step, hinbox, hdecode]
  exact hstep

/-! ### Two draws -/

/-- DRAW of a well-formed texture into a store that is set up replaces its page alone (rules R48, R232). -/
theorem exec_draw (s : State) (suppress : Bool) (t : Texture) (hr : s.pagesReady = true)
    (ht : WellFormedTexture t) :
    exec (.draw suppress t) s =
      .next ((s.setPage (pageOfNat t.page)
        (drawTexture s.params suppress t (s.page (pageOfNat t.page)))).ok .none) := by
  simp only [exec, execDraw, s.whenSetUp_ready _ hr, (textureOk_iff t).2 ht, if_true]

/-- Well-formed textures with different page numbers are drawn to different pages. -/
theorem pageOfNat_ne {a b : Texture} (ha : WellFormedTexture a) (hb : WellFormedTexture b)
    (h : a.page ≠ b.page) : pageOfNat a.page ≠ pageOfNat b.page := by
  obtain ⟨_, _, hpa, _⟩ := ha
  obtain ⟨_, _, hpb, _⟩ := hb
  intro e
  have e' : a.page % 32 = b.page % 32 := congrArg Fin.val e
  omega

/-- Replacing two different pages commutes. -/
theorem State.setPage_comm (s : State) {p q : Fin 32} (h : p ≠ q) (a b : Page) :
    (s.setPage p a).setPage q b = (s.setPage q b).setPage p a := by
  have hv : (s.pages.set p a).set q b = (s.pages.set q b).set p a :=
    Vector.set_comm a b fun e => h (Fin.ext e)
  simp only [State.setPage, hv]

/-- A draw finds its page as it was before a command that replaced another page. -/
theorem exec_draw_after_setPage (s : State) (suppress : Bool) (t : Texture) {p : Fin 32} (pg : Page)
    (hr : s.pagesReady = true) (ht : WellFormedTexture t) (hp : p ≠ pageOfNat t.page) :
    exec (.draw suppress t) ((s.setPage p pg).ok .none) =
      .next (((s.setPage p pg).setPage (pageOfNat t.page)
        (drawTexture s.params suppress t (s.page (pageOfNat t.page)))).ok .none) := by
  have hpage : ((s.setPage p pg).ok .none).page (pageOfNat t.page) = s.page (pageOfNat t.page) :=
    s.page_setPage_ne p _ pg hp
  rw [exec_draw ((s.setPage p pg).ok .none) suppress t hr ht, hpage]
  rfl

/-- Settles O28: each draw reads and replaces its own page alone, so the other draw finds the same page
before and after it, and the two replacements commute. -/
theorem drawsToDistinctPagesCommute : Obligations.DrawsToDistinctPagesCommute := by
  intro s f g a b hr ha hb hne
  have hpq := pageOfNat_ne ha hb hne
  rw [exec_draw s f a hr ha, exec_draw s g b hr hb]
  simp only [andThenRun]
  rw [exec_draw_after_setPage s g b _ hr hb hpq, exec_draw_after_setPage s f a _ hr ha hpq.symm,
    s.setPage_comm hpq]

end Sys2Proof.Machine

/-! SUPPORT. A stream that ends inside a header of a TIM container (rules R73, R162): the TIM header, the first
header after the flags word, and the image header after a palette block. -/

namespace Sys2Proof.Machine

/-! ### The end of the stream as a candidate's end -/

/-- The end of the stream inside a candidate ends it with the outcome of the mode (rules R73, R183). -/
theorem streamEnded_ends (s : State) (p0 : Nat) (reached : U64) (ldecl hi : Nat) (reason : Reason)
    (hp : p0 < 2 ^ 64) (h1 : reached.toNat ≤ hi) (h2 : p0 + ldecl ≤ hi) :
    s.candidateEnds (streamEnded s p0 reached ldecl reason) p0 hi
      (if s.tolerant then .truncatedInput else .decodeFault)
      (if s.tolerant then reason else .streamEnd) := by
  rw [streamEnded_eq]
  exact endCandidate_ends s s.cur p0 reached ldecl hi _ _ hp h1 h2

/-- The same after the palette block at CUR was loaded: the load is kept (rules R309, R339). -/
theorem streamEnded_endsLoaded (s : State) (code : PixelFormat) (p0 : Nat) (reached : U64) (ldecl hi : Nat)
    (reason : Reason) (hl : s.clutLegal s.cur.toNat) (hp : p0 < 2 ^ 64) (h1 : reached.toNat ≤ hi)
    (h2 : p0 + ldecl ≤ hi) :
    s.candidateEndsLoaded (streamEnded (s.loadedAt code) p0 reached ldecl reason) s.cur.toNat
      (rowsOf256 code (s.u16At (s.cur.toNat + 8))) p0 hi
      (if s.tolerant then .truncatedInput else .decodeFault)
      (if s.tolerant then reason else .streamEnd) := by
  rw [streamEnded_eq, State.loadedAt_tolerant]
  exact endCandidate_endsLoaded s code (s.loadedAt code).cur p0 reached ldecl hi _ _ hl hp h1 h2

/-! ### The TIM header -/

/-- A flags word past the end of the stream (rules R73, R165). -/
theorem readFlags_past (s : State) (p0 : Nat) (cur : U64) (h : s.slen.toNat < cur.toNat + 4) :
    readFlags s p0 cur = .ended (streamEnded s p0 cur 8 .headerTruncated) := by
  simp only [readFlags, rd32_past s cur h]

/-- A stream that ends inside the version, or inside the flags word after an admitted version (rules R73,
R164). -/
theorem readVersion_past (s : State) (p0 : Nat) (cur : U64)
    (h : s.slen.toNat < cur.toNat + 2 ∨
      (s.u16At cur.toNat = 0 ∨ s.ignoreVersion = true) ∧ s.slen.toNat < cur.toNat + 6) :
    ∃ c, c.toNat ≤ cur.toNat + 2 ∧
      readVersion s p0 cur = .ended (streamEnded s p0 c 8 .headerTruncated) := by
  by_cases hv : s.slen.toNat < cur.toNat + 2
  · exact ⟨cur, by omega, by simp only [readVersion, rd16_past s cur hv]⟩
  · obtain ⟨hver, hflags⟩ := h.resolve_left hv
    have hcur : (cur + BitVec.ofNat 64 2).toNat = cur.toNat + 2 :=
      toNat_add_ofNat cur 2 (by have := slen_lt s; omega)
    have hadmit : ¬(BitVec.ofNat 16 (s.u16At cur.toNat) ≠ 0 ∧ s.ignoreVersion = false) := by
      rintro ⟨h0, hi⟩
      rcases hver with hver | hver
      · exact h0 (by rw [hver]; rfl)
      · rw [hver] at hi
        cases hi
    refine ⟨cur + BitVec.ofNat 64 2, by omega, ?_⟩
    simp only [readVersion, rd16_inside s cur (by omega)]
    rw [if_neg hadmit, readFlags_past s p0 _ (by omega)]

/-- A stream that ends inside the TIM header, before its tag or its version fails (rules R73, R162). -/
theorem readHeader_past (s : State)
    (h : s.slen.toNat < s.cur.toNat + 2 ∨
      (s.u16At s.cur.toNat = 0x10 ∧ s.slen.toNat < s.cur.toNat + 4) ∨
      (s.u16At s.cur.toNat = 0x10 ∧ (s.u16At (s.cur.toNat + 2) = 0 ∨ s.ignoreVersion = true) ∧
        s.slen.toNat < s.cur.toNat + 8)) :
    ∃ c, c.toNat ≤ s.cur.toNat + 8 ∧
      readHeader s = .ended (streamEnded s s.cur.toNat c 8 .headerTruncated) := by
  by_cases ht : s.slen.toNat < s.cur.toNat + 2
  · exact ⟨s.cur, by omega, by simp only [readHeader, rd16_past s s.cur ht]⟩
  · have hcur : (s.cur + BitVec.ofNat 64 2).toNat = s.cur.toNat + 2 :=
      toNat_add_ofNat s.cur 2 (by have := slen_lt s; omega)
    have htag : s.u16At s.cur.toNat = 0x10 := by
      rcases h.resolve_left ht with ⟨htag, _⟩ | ⟨htag, _⟩ <;> exact htag
    obtain ⟨c, hc, e⟩ := readVersion_past s s.cur.toNat (s.cur + BitVec.ofNat 64 2) (by
      rw [hcur]
      rcases h.resolve_left ht with ⟨_, hl⟩ | ⟨_, hver, hl⟩
      · exact .inl (by omega)
      · exact .inr ⟨hver, by omega⟩)
    refine ⟨c, by omega, ?_⟩
    simp only [readHeader, rd16_inside s s.cur (by omega), htag]
    rw [if_neg (by decide), e]

/-- DECODE_TIM of a container whose header ends the candidate (rule R160). -/
theorem exec_decodeTim_ended {s t : State} (hc : s.curWritten = true) (hm : s.maxresWritten = true)
    (h : readHeader s = .ended t) : exec .decodeTim s = .next t := by
  simp only [exec, execDecodeTim, hc, hm, h, Bool.and_self, if_true]

/-! ### The rows of the flags word -/

/-- A row with a palette block runs it, its candidate 8 bytes before CUR (rules R103, R167; log entry 5). -/
theorem exec_paletteRow (s : State) (code : PixelFormat) (hi : BitVec 28) :
    exec (paletteRow code hi) s = .next (readPaletteBlock s code (s.cur.toNat - 8)) := by
  cases code <;> rfl

/-- The rows of Direct16 and Direct24 run the image, their candidate 8 bytes before CUR (rules R103, R173; log
entry 5). -/
theorem exec_directRow (s : State) (hi : BitVec 28) :
    exec (.timDirect16 hi) s = .next (readImage s .direct16 (s.cur.toNat - 8) 8) ∧
      exec (.timDirect24 hi) s = .next (readImage s .direct24 (s.cur.toNat - 8) 8) :=
  ⟨rfl, rfl⟩

/-- A palette header that runs past the end of the stream (rules R73, R167). -/
theorem readPaletteBlock_header_past (s : State) (code : PixelFormat) (p0 : Nat)
    (h : s.slen.toNat < s.cur.toNat + 12) :
    ∃ c, c.toNat ≤ max s.cur.toNat s.slen.toNat ∧
      readPaletteBlock s code p0 = streamEnded s p0 c 8 .headerTruncated := by
  obtain ⟨c, hc, hb⟩ := readPalHeader_past (m := s.stream) (slen_lt s) s.cur h
  exact ⟨c, hb, by simp only [readPaletteBlock, hc]⟩

/-- Every row that goes on to a header reads its image header or its palette header first (rules R167,
R173). -/
theorem exec_row_header_past (s : State) (hi : BitVec 28) (h : s.slen.toNat < s.cur.toNat + 12) :
    ∀ i ∈ [Instr.timDirect16 hi, .timDirect24 hi, .timIndexed4Pal hi, .timIndexed8Pal hi,
      .timDirect16Pal hi, .timDirect24Pal hi],
      ∃ c, c.toNat ≤ max s.cur.toNat s.slen.toNat ∧
        exec i s = .next (streamEnded s (s.cur.toNat - 8) c 8 .headerTruncated) := by
  obtain ⟨e16, e24⟩ := exec_directRow s hi
  have image : ∀ fmt i, exec i s = .next (readImage s fmt (s.cur.toNat - 8) 8) →
      ∃ c, c.toNat ≤ max s.cur.toNat s.slen.toNat ∧
        exec i s = .next (streamEnded s (s.cur.toNat - 8) c 8 .headerTruncated) := by
    intro fmt i e
    obtain ⟨c, hc, e'⟩ := readImage_past s fmt (s.cur.toNat - 8) 8 h
    exact ⟨c, hc, by rw [e, e']⟩
  have palette : ∀ code, ∃ c, c.toNat ≤ max s.cur.toNat s.slen.toNat ∧
      exec (paletteRow code hi) s = .next (streamEnded s (s.cur.toNat - 8) c 8 .headerTruncated) := by
    intro code
    obtain ⟨c, hc, e⟩ := readPaletteBlock_header_past s code (s.cur.toNat - 8) h
    exact ⟨c, hc, by rw [exec_paletteRow, e]⟩
  simp only [List.forall_mem_cons]
  exact ⟨image .direct16 _ e16, image .direct24 _ e24, palette .indexed4, palette .indexed8,
    palette .direct16, palette .direct24, by simp⟩

/-- Each row with a palette block that lies in the stream, with a stream that ends inside the image header
after it (rules R73, R173). -/
theorem exec_paletteRow_image_past (s : State) (code : PixelFormat) (hi : BitVec 28)
    (hl : s.clutLegal s.cur.toNat)
    (hin : s.cur.toNat + 12 + 2 * s.u16At (s.cur.toNat + 8) * s.rowsAsked s.cur.toNat ≤ s.slen.toNat)
    (ht : s.tolerant = true → s.imageAfter s.cur.toNat ≤ s.slen.toNat)
    (hp : s.slen.toNat < s.imageAfter s.cur.toNat + 12) :
    ∃ c, c.toNat ≤ max (s.imageAfter s.cur.toNat) s.slen.toNat ∧
      exec (paletteRow code hi) s = .next (streamEnded (s.loadedAt code) (s.cur.toNat - 8) c
        (8 + (12 + 2 * s.u16At (s.cur.toNat + 8) * s.u16At (s.cur.toNat + 10))) .headerTruncated) := by
  have hcur := s.loadedAt_cur code hl (by omega)
  obtain ⟨c, hc, e⟩ := readImage_past (s.loadedAt code)
    (formatOfRows (rowsOf256 code (s.u16At (s.cur.toNat + 8)))) (s.cur.toNat - 8)
    (8 + (12 + 2 * s.u16At (s.cur.toNat + 8) * s.u16At (s.cur.toNat + 10)))
    (by rw [hcur]; exact hp)
  rw [hcur] at hc
  exact ⟨c, hc, by rw [exec_paletteRow_loaded s code hi hl hin ht, e]⟩

/-- Settles O47: each of the three headers ends its candidate at the end of the stream, and the cursor
reached lies in the range of rule R183. -/
theorem decodeTimHeaderTruncated : Obligations.DecodeTimHeaderTruncated := by
  intro s code reason q
  have hq : q < 2 ^ 64 := s.cur.isLt
  refine ⟨fun hcw hmw h => ?_, fun hi h8 => ⟨fun h i hmem => ?_, fun fmt hl hin ht hp => ?_⟩⟩
  · obtain ⟨c, hc, e⟩ := readHeader_past s h
    exact ⟨_, exec_decodeTim_ended hcw hmw e, streamEnded_ends s q c 8 (q + 8) _ hq hc le_rfl⟩
  · obtain ⟨c, hc, e⟩ := exec_row_header_past s hi h i hmem
    exact ⟨_, e, streamEnded_ends s (q - 8) c 8 _ _ (by omega) hc (by omega)⟩
  · obtain ⟨c, hc, e⟩ := exec_paletteRow_image_past s fmt hi hl hin ht hp
    have hdecl : q - 8 + (8 + (12 + 2 * s.u16At (q + 8) * s.u16At (q + 10))) = s.imageAfter q := by
      unfold State.imageAfter
      omega
    exact ⟨_, e, streamEnded_endsLoaded s fmt (q - 8) c _ _ _ hl (by omega) hc
      (hdecl.le.trans (le_max_left _ _))⟩

end Sys2Proof.Machine

/-! SUPPORT. An image that passes every check of its header but runs past the end of the stream (rules R179,
R207), in the rows of the flags word with and without a palette block. -/

namespace Sys2Proof.Machine

/-! ### An image past the end of the stream -/

/-- The image header at a stream offset passes every check of its format (rules R33, R174, R175, R177). -/
structure State.ImagePasses (s : State) (fmt : PixelFormat) (a : Nat) : Prop where
  stride : s.u16At (a + 8) ≠ 0
  height : s.u16At (a + 10) ≠ 0
  zeroWidth : fmt = .direct24 →
    pixelWidth fmt (s.u16At (a + 8)) ≠ 0 ∨ s.params.zeroWidthD24 = .emptyTexture
  width : s.admitsWidth (pixelWidth fmt (s.u16At (a + 8)))
  originX : s.u16At (a + 4) < 1024
  originY : s.u16At (a + 6) < 512

/-- The pixels of an image whose pixel data start at a stream offset run past the end of the stream: the
declared span in tolerant mode, the last pixel in strict mode (rules R179, R207). -/
def State.pixelsPast (s : State) (fmt : PixelFormat) (st h a : Nat) : Prop :=
  let rowLen := rowBytes s.params.idx8RowRule fmt st
  let used := usedBytes fmt (pixelWidth fmt st)
  if s.tolerant then s.slen.toNat < a + rowLen * h
  else used ≠ 0 ∧ s.slen.toNat < a + rowLen * (h - 1) + used

/-- The declared span of an image is far below the range of CUR (rules R107, R178). -/
theorem rowBytes_mul_lt (rule : Idx8RowRule) (fmt : PixelFormat) {st h : Nat} (hst : st < 65536)
    (hh : h < 65536) : rowBytes rule fmt st * h < 2 ^ 35 := by
  have hrow : rowBytes rule fmt st ≤ 2 ^ 18 := by
    cases fmt <;> cases rule <;> simp only [rowBytes, pixelWidth, bitsPerPixel] <;> omega
  have := Nat.mul_le_mul hrow hh.le
  omega

/-- An image whose header lies in the stream and passes, and whose pixels run past the end of the stream: the
outcome of the mode, the cursor reached not past the declared end of the pixels. -/
theorem readImage_pixelsPast (s : State) (fmt : PixelFormat) (p0 base : Nat)
    (hin : s.cur.toNat + 12 ≤ s.slen.toNat) (hpass : s.ImagePasses fmt s.cur.toNat)
    (hpast : s.pixelsPast fmt (s.u16At (s.cur.toNat + 8)) (s.u16At (s.cur.toNat + 10))
      (s.cur.toNat + 12)) :
    let span := rowBytes s.params.idx8RowRule fmt (s.u16At (s.cur.toNat + 8)) *
      s.u16At (s.cur.toNat + 10)
    ∃ c reached : U64, reached.toNat ≤ s.cur.toNat + 12 + span ∧
      readImage s fmt p0 base = endCandidate (s.setCur c) p0 reached (base + 12 + span)
        (if s.tolerant then .truncatedInput else .decodeFault)
        (if s.tolerant then .imageTruncated else .streamEnd) := by
  intro span
  have hspan : span < 2 ^ 35 := rowBytes_mul_lt _ _ (u16At_lt s _) (u16At_lt s _)
  have hslen := s.slen.isLt
  have hcur : (s.cur + BitVec.ofNat 64 12).toNat = s.cur.toNat + 12 :=
    toNat_add_ofNat s.cur 12 (by omega)
  have hst : (s.imgHeaderAt s.cur.toNat).stride.toNat = s.u16At (s.cur.toNat + 8) := toNat_ofNat_u16At s _
  have hh : (s.imgHeaderAt s.cur.toNat).h.toNat = s.u16At (s.cur.toNat + 10) := toNat_ofNat_u16At s _
  obtain ⟨reached, hr, e⟩ := decodePixels_past (s.setCur (s.cur + BitVec.ofNat 64 12)) fmt p0
    (base + 12 + span) (s.imgHeaderAt s.cur.toNat)
    (by rw [hh]; exact hpass.height)
    (by rw [hst, hh, State.setCur_cur, hcur, State.setCur_params]; change _ + span < _; omega)
    (by
      rw [hst, hh, State.setCur_cur, hcur]
      exact hpast)
    (by rw [State.setCur_cur, hcur]; exact hin)
  rw [hst, hh, State.setCur_cur, hcur, State.setCur_params] at hr
  refine ⟨s.cur + BitVec.ofNat 64 12, reached, hr, ?_⟩
  rw [readImage_checks s fmt p0 base hin, checkImage_passes]
  · exact e
  · exact ofNat_u16At_ne s _ hpass.stride
  · exact ofNat_u16At_ne s _ hpass.height
  · rw [hst]; exact hpass.zeroWidth
  · rw [hst]; exact hpass.width
  · exact (toNat_ofNat_u16At s _).trans_lt hpass.originX
  · exact (toNat_ofNat_u16At s _).trans_lt hpass.originY

/-- Such an image without a palette block ends its candidate, CUR between p0 and the declared end of the
container (rule R183). -/
theorem readImage_pixelsPast_ends (s : State) (fmt : PixelFormat) (h8 : 8 ≤ s.cur.toNat)
    (hin : s.cur.toNat + 12 ≤ s.slen.toNat) (hpass : s.ImagePasses fmt s.cur.toNat)
    (hpast : s.pixelsPast fmt (s.u16At (s.cur.toNat + 8)) (s.u16At (s.cur.toNat + 10))
      (s.cur.toNat + 12)) :
    s.candidateEnds (readImage s fmt (s.cur.toNat - 8) 8) (s.cur.toNat - 8)
      (s.cur.toNat + 12 + rowBytes s.params.idx8RowRule fmt (s.u16At (s.cur.toNat + 8)) *
        s.u16At (s.cur.toNat + 10))
      (if s.tolerant then .truncatedInput else .decodeFault)
      (if s.tolerant then .imageTruncated else .streamEnd) := by
  obtain ⟨c, reached, hr, e⟩ := readImage_pixelsPast s fmt (s.cur.toNat - 8) 8 hin hpass hpast
  have hp := s.cur.isLt
  rw [e]
  exact endCandidate_ends s c _ reached _ _ _ _ (by omega) hr (by omega)

/-! ### The image after a palette block -/

/-- The row length of the statements is rowBytes of the format (rules R107, R178). -/
theorem rowBytes_formatOfRows (s : State) (fmt8 : Bool) (st : Nat) :
    rowBytes s.params.idx8RowRule (formatOfRows fmt8) st = s.palettedRowBytes fmt8 st := by
  cases fmt8 with
  | false => simp [rowBytes, formatOfRows, State.palettedRowBytes]
  | true =>
    have hw : pixelWidth .indexed8 st = 2 * st := by
      simp only [pixelWidth, bitsPerPixel]
      omega
    cases hr : s.params.idx8RowRule <;> simp [rowBytes, formatOfRows, State.palettedRowBytes, hw, hr]

/-- The width of an image after a palette block (rule R175). -/
theorem pixelWidth_formatOfRows (fmt8 : Bool) (st : Nat) :
    pixelWidth (formatOfRows fmt8) st = if fmt8 then 2 * st else 4 * st := by
  cases fmt8 <;> simp only [formatOfRows, pixelWidth, bitsPerPixel, if_true, Bool.false_eq_true, if_false] <;>
    omega

/-- A row of palette indices uses two bytes for each stride word (rule R107). -/
theorem usedBytes_formatOfRows (fmt8 : Bool) (st : Nat) :
    usedBytes (formatOfRows fmt8) (pixelWidth (formatOfRows fmt8) st) = 2 * st := by
  rw [pixelWidth_formatOfRows]
  cases fmt8 <;> simp only [formatOfRows, usedBytes, if_true, Bool.false_eq_true, if_false] <;> omega

/-- When the pixels of an image after a palette block run past the end of the stream, in the words of the
statements (rules R179, R207). -/
theorem pixelsPast_formatOfRows (s : State) {fmt8 : Bool} {st h a : Nat} (hst : st ≠ 0)
    (hp : if s.tolerant then s.slen.toNat < a + s.palettedRowBytes fmt8 st * h
      else s.slen.toNat < a + s.palettedRowBytes fmt8 st * (h - 1) + 2 * st) :
    s.pixelsPast (formatOfRows fmt8) st h a := by
  rw [State.pixelsPast, rowBytes_formatOfRows, usedBytes_formatOfRows]
  cases ht : s.tolerant <;> simp only [ht, Bool.false_eq_true, if_true, if_false] at hp ⊢ <;> omega

/-- The palette rows that a load decodes end before the image header (rules R106, R134). -/
theorem rowsAsked_le_imageAfter (s : State) {q : Nat} (hl : s.clutLegal q) :
    q + 12 + 2 * s.u16At (q + 8) * s.rowsAsked q ≤ s.imageAfter q := by
  obtain ⟨_, _, hh, _⟩ := hl
  have hn : s.rowsAsked q ≤ s.u16At (q + 10) := by unfold State.rowsAsked; split <;> omega
  exact Nat.add_le_add_left (Nat.mul_le_mul_left _ hn) _

/-- A palette load changes nothing that the checks of an image read. -/
theorem State.ImagePasses.loadedAt {s : State} {fmt : PixelFormat} {a : Nat} (h : s.ImagePasses fmt a)
    (code : PixelFormat) : (s.loadedAt code).ImagePasses fmt a :=
  ⟨h.stride, h.height, h.zeroWidth, h.width, h.originX, h.originY⟩

/-- Each row with a palette block whose image header lies in the stream and passes, and whose pixels run past
the end of the stream: the candidate ends with its palette loaded. -/
theorem exec_paletteRow_pixelsPast (s : State) (code : PixelFormat) (hi : BitVec 28) (fmt8 : Bool)
    (hf : rowsOf256 code (s.u16At (s.cur.toNat + 8)) = fmt8) (h8 : 8 ≤ s.cur.toNat)
    (hl : s.clutLegal s.cur.toNat) (hin : s.imageAfter s.cur.toNat + 12 ≤ s.slen.toNat)
    (hpass : s.ImagePasses (formatOfRows fmt8) (s.imageAfter s.cur.toNat))
    (hpast : s.pixelsPast (formatOfRows fmt8) (s.u16At (s.imageAfter s.cur.toNat + 8))
      (s.u16At (s.imageAfter s.cur.toNat + 10)) (s.imageAfter s.cur.toNat + 12)) :
    ∃ t, exec (paletteRow code hi) s = .next t ∧
      s.candidateEndsLoaded t s.cur.toNat fmt8 (s.cur.toNat - 8)
        (s.imageAfter s.cur.toNat + 12 +
          s.palettedRowBytes fmt8 (s.u16At (s.imageAfter s.cur.toNat + 8)) *
            s.u16At (s.imageAfter s.cur.toNat + 10))
        (if s.tolerant then .truncatedInput else .decodeFault)
        (if s.tolerant then .imageTruncated else .streamEnd) := by
  subst hf
  have hrows := rowsAsked_le_imageAfter s hl
  have hdecl : s.imageAfter s.cur.toNat =
      s.cur.toNat + 12 + 2 * s.u16At (s.cur.toNat + 8) * s.u16At (s.cur.toNat + 10) := rfl
  have hcur := s.loadedAt_cur code hl (by omega)
  have hexec := exec_paletteRow_loaded s code hi hl (by omega) fun _ => by omega
  obtain ⟨c, reached, hr, e⟩ := readImage_pixelsPast (s.loadedAt code)
    (formatOfRows (rowsOf256 code (s.u16At (s.cur.toNat + 8)))) (s.cur.toNat - 8)
    (8 + (12 + 2 * s.u16At (s.cur.toNat + 8) * s.u16At (s.cur.toNat + 10)))
    (by rw [hcur]; exact hin) (by rw [hcur]; exact hpass.loadedAt code)
    (by rw [hcur]; exact hpast)
  rw [hcur, State.loadedAt_params, State.loadedAt_u16At, State.loadedAt_u16At,
    rowBytes_formatOfRows] at hr e
  have hp := s.cur.isLt
  rw [e] at hexec
  exact ⟨_, hexec, endCandidate_endsLoaded s code c _ reached _ _ _ _ hl (by omega) hr (by omega)⟩

/-! ### The rows -/

/-- The width of a Direct16 image is its stride, and of a Direct24 image two thirds of it (rule R175). -/
theorem pixelWidth_direct (st : Nat) :
    pixelWidth .direct16 st = st ∧ pixelWidth .direct24 st = 2 * st / 3 := by
  simp only [pixelWidth, bitsPerPixel]
  omega

/-- A Direct16 image has no padding: its last pixel ends where its declared span does (rules R107, R109). -/
theorem pixelsPast_direct16 (s : State) {st h a : Nat} (hst : st ≠ 0) (hh : h ≠ 0)
    (hp : s.slen.toNat < a + 2 * st * h) : s.pixelsPast .direct16 st h a := by
  have hspan : 2 * st * (h - 1) + 2 * st = 2 * st * h := by
    rw [← Nat.mul_succ, Nat.succ_eq_add_one, Nat.sub_one_add_one hh]
  simp only [State.pixelsPast, rowBytes, usedBytes, (pixelWidth_direct st).1]
  split <;> omega

/-- When the pixels of a Direct24 image run past the end of the stream, in the words of the statements. -/
theorem pixelsPast_direct24 (s : State) {st h a : Nat}
    (hp : if s.tolerant then s.slen.toNat < a + 2 * st * h
      else 2 * st / 3 ≠ 0 ∧ s.slen.toNat < a + 2 * st * (h - 1) + 3 * (2 * st / 3)) :
    s.pixelsPast .direct24 st h a := by
  simp only [State.pixelsPast, rowBytes, usedBytes, (pixelWidth_direct st).2]
  cases ht : s.tolerant <;> simp only [ht, Bool.false_eq_true, if_true, if_false] at hp ⊢ <;> omega

/-- Settles O55: the three kinds of row pass their checks and meet the end of the stream in their pixels. -/
theorem direct16RowTruncated : Obligations.Direct16RowTruncated := by
  intro s hi h8 q code reason
  obtain ⟨e16, e24⟩ := exec_directRow s hi
  refine ⟨?direct16, ?direct24, ?paletted⟩
  case direct16 =>
    intro hin ⟨hst, hh, hw, hx, hy⟩ last hlast
    have hwidth := (pixelWidth_direct (s.u16At (q + 8))).1
    exact ⟨_, e16, readImage_pixelsPast_ends s .direct16 h8 hin
      ⟨hst, hh, nofun, by rw [hwidth]; exact State.admitsWidth_of_ne_zero hst hw, hx, hy⟩
      (pixelsPast_direct16 s hst hh hlast)⟩
  case direct24 =>
    intro hin st h w last hst hh hz hw hx hy hlast
    have hwidth := (pixelWidth_direct st).2
    exact ⟨_, e24, readImage_pixelsPast_ends s .direct24 h8 hin
      ⟨hst, hh, fun _ => by rw [hwidth]; exact hz, by rw [hwidth]; exact hw, hx, hy⟩
      (pixelsPast_direct24 s hlast)⟩
  case paletted =>
    intro hl hin fmt fmt8 qi st h w rowLen hst hh hw hx hy hlast
    have hwidth : pixelWidth (formatOfRows fmt8) st = w := pixelWidth_formatOfRows fmt8 st
    have hw0 : w ≠ 0 := by simp only [w]; split <;> omega
    exact exec_paletteRow_pixelsPast s fmt hi fmt8 rfl h8 hl hin
      ⟨hst, hh, by cases fmt8 <;> nofun,
        by rw [hwidth]; exact State.admitsWidth_of_ne_zero hw0 hw, hx, hy⟩
      (pixelsPast_formatOfRows s hst hlast)

end Sys2Proof.Machine

/-! SUPPORT. The decoder against the encoder (rules R102, R114 to R117): decoding a word put together from its
fields, the illegal encodings and their outcomes, and the fast-rejected rows of the flags word. -/

namespace Sys2Proof

/-! ### Decoding a word put together from its fields -/

/-- Once the opcode and the reserved bits are checked, the operands are assembled (rules R116, R117). -/
theorem decode_of_reservedClear {t : Transaction} {u : FieldUse}
    (hu : fieldUse (cmdOpc t.cmd).toNat = some u) (hc : reservedClear u t.cmd = true) :
    decode (.command t) = buildCommand t := by
  simp only [decode, decodeCommand, hu, hc, if_true]

/-- A command word of a defined opcode whose unused fields are 0 passes the checks of rule R117 up to the
format select, and its operands are assembled. -/
theorem decode_cmdWord {opc : BitVec 8} {f : BitVec 1} {p : BitVec 5} {m : BitVec 2} {u : FieldUse}
    (hu : fieldUse opc.toNat = some u) (hf : (u.f || f == 0) = true) (hp : (u.p || p == 0) = true)
    (hm : (u.m || m == 0) = true) (a0 a1 : U64) (pl : Payload) :
    decode (.command ⟨cmdWord opc f p m, a0, a1, pl⟩) = buildCommand ⟨cmdWord opc f p m, a0, a1, pl⟩ := by
  have hclear : reservedClear u (cmdWord opc f p m) = true := by
    simp only [reservedClear, cmdReserved_cmdWord, cmdF_cmdWord, cmdP_cmdWord, cmdM_cmdWord, hf, hp, hm,
      beq_self_eq_true, Bool.and_self]
  exact decode_of_reservedClear (by rwa [cmdOpc_cmdWord]) hclear

/-- The two legal format selects of READ_PALETTE. -/
theorem decode_readPalette {m : BitVec 2} (hm : m.toNat < 2) (first : Bool) (w h : U64) :
    decode (encode (.readPalette m first w h)) = .ok (.readPalette m first w h) := by
  refine (decode_cmdWord rfl rfl rfl rfl w h .none).trans ?_
  simp [buildCommand, hm]

/-- EXPORT_PAGE_TILED splits its two arguments at their 16-bit boundaries (rule R116). -/
theorem decode_exportPageTiled (p : BitVec 5) (a0 a1 : U64) (pl : Payload) :
    decode (.command ⟨cmdWord 0x23 0 p 0, a0, a1, pl⟩) =
      .ok (.exportPageTiled p (a0.extractLsb' 0 16) (a0.extractLsb' 16 16) (a0.extractLsb' 32 16)
        (a0.extractLsb' 48 16) (a1.extractLsb' 0 16) (a1.extractLsb' 16 16) (a1.extractLsb' 32 32)) := by
  refine (decode_cmdWord rfl rfl rfl rfl a0 a1 pl).trans ?_
  simp [buildCommand]

/-- Splitting four packed 16-bit operands gives them back (ARG0 in rule R116). -/
theorem extract_pack4 (a b c d : U16) :
    (d ++ c ++ b ++ a).extractLsb' 0 16 = a ∧ (d ++ c ++ b ++ a).extractLsb' 16 16 = b ∧
      (d ++ c ++ b ++ a).extractLsb' 32 16 = c ∧ (d ++ c ++ b ++ a).extractLsb' 48 16 = d := by
  refine ⟨BitVec.extractLsb'_append_eq_right, ?_, ?_, ?_⟩
  · exact (BitVec.extractLsb'_append_eq_of_le (by decide)).trans BitVec.extractLsb'_append_eq_right
  · exact (BitVec.extractLsb'_append_eq_of_le (by decide)).trans
      ((BitVec.extractLsb'_append_eq_of_le (by decide)).trans BitVec.extractLsb'_append_eq_right)
  · exact (BitVec.extractLsb'_append_eq_of_le (by decide)).trans
      ((BitVec.extractLsb'_append_eq_of_le (by decide)).trans BitVec.extractLsb'_append_eq_left)

/-- Splitting two packed 16-bit operands and the upper half gives them back (ARG1 in rule R116). -/
theorem extract_pack3 (a b : U16) (c : U32) :
    (c ++ b ++ a).extractLsb' 0 16 = a ∧ (c ++ b ++ a).extractLsb' 16 16 = b ∧
      (c ++ b ++ a).extractLsb' 32 32 = c := by
  refine ⟨BitVec.extractLsb'_append_eq_right, ?_, ?_⟩
  · exact (BitVec.extractLsb'_append_eq_of_le (by decide)).trans BitVec.extractLsb'_append_eq_right
  · exact (BitVec.extractLsb'_append_eq_of_le (by decide)).trans BitVec.extractLsb'_append_eq_left

/-- Settles O1: every encoded command word passes the checks of its opcode, and every field of a word put
together from its fields is the one put in. -/
theorem decodeInvertsEncode : Obligations.DecodeInvertsEncode := by
  intro i hwf
  cases i with
  | setup | decodeTim | clearAll => exact decode_cmdWord rfl rfl rfl rfl 0 0 .none
  | getModeFromClut v | containsPage v | clampPage v | clampCoord v =>
    exact decode_cmdWord rfl rfl rfl rfl v 0 .none
  | exportTextureGrid cols l => exact decode_cmdWord rfl rfl rfl rfl cols 0 (.textures l)
  | draw suppress t =>
    refine (decode_cmdWord rfl rfl rfl rfl 0 0 (.texture t)).trans ?_
    simp [buildCommand, drawOf]
  | clear p | isUsed p | exportPageColor p | exportPageStp p | readReg p | updatePage p force
  | updateAllPages force =>
    refine (decode_cmdWord rfl rfl rfl rfl 0 0 .none).trans ?_
    simp [buildCommand]
  | writeReg r v =>
    refine (decode_cmdWord rfl rfl rfl rfl v 0 .none).trans ?_
    simp [buildCommand]
  | readPalette m first w h => exact decode_readPalette (of_decide_eq_true hwf) first w h
  | exportPageTiled p rx ry rw rh nx ny hi =>
    obtain ⟨hrx, hry, hrw, hrh⟩ := extract_pack4 rx ry rw rh
    obtain ⟨hnx, hny, hhi⟩ := extract_pack3 nx ny hi
    refine (decode_exportPageTiled p (rh ++ rw ++ ry ++ rx) (hi ++ ny ++ nx) .none).trans ?_
    rw [hrx, hry, hrw, hrh, hnx, hny, hhi]
  | timIndexed4 hi | timIndexed8 hi | timDirect16 hi | timDirect24 hi | timMixed hi | timInvalid5 hi
  | timInvalid6 hi | timInvalid7 hi | timIndexed4Pal hi | timIndexed8Pal hi | timDirect16Pal hi
  | timDirect24Pal hi | timMixedPal hi | timInvalid5Pal hi | timInvalid6Pal hi | timInvalid7Pal hi =>
    simp [encode, flagsWord, decode, decodeFlags]

/-- Settles O2: the five words are the encodings of the five instructions. -/
theorem writtenOutWordsDecode : Obligations.WrittenOutWordsDecode :=
  ⟨decodeInvertsEncode (.writeReg 0 2) rfl, decodeInvertsEncode (.readPalette 0 true 2 3) rfl,
    decodeInvertsEncode (.updatePage 17 true) rfl, decodeInvertsEncode (.readReg 6) rfl,
    decodeInvertsEncode (.timDirect16Pal 0) rfl⟩

/-- The word of rule R114 for EXPORT_PAGE_TILED, from its arithmetic. -/
theorem ofNat_exportPageTiled (p : BitVec 5) :
    BitVec.ofNat 32 (0x23 + 512 * p.toNat) = cmdWord 0x23 0 p 0 := by
  have hp := p.isLt
  apply BitVec.eq_of_toNat_eq
  simp only [cmdWord_toNat, BitVec.ofNat_eq_ofNat, BitVec.toNat_ofNat]
  omega

/-- Settles O4: the operands are the fields of the two arguments, which add up to them. -/
theorem tiledOperandsUnpack : Obligations.TiledOperandsUnpack := by
  intro p a0 a1 pl
  have h0 := a0.isLt
  have h1 := a1.isLt
  rw [ofNat_exportPageTiled]
  refine ⟨_, _, _, _, _, _, _, decode_exportPageTiled p a0 a1 pl, ?_, ?_⟩ <;>
    simp only [BitVec.extractLsb'_toNat, Nat.shiftRight_eq_div_pow] <;> omega

/-! ### Illegal encodings (rules R115, R117, R307) -/

/-- No other number is an opcode (rule R115). -/
theorem fieldUse_of_not_mem {n : Nat}
    (h : n ∉ [1, 2, 3, 4, 16, 17, 18, 19, 20, 21, 22, 23, 24, 32, 33, 34, 35, 48, 49]) :
    fieldUse n = none := by
  unfold fieldUse
  split <;> simp_all

/-- The reserved-bits check fails where bits 31:16, or a field the opcode does not use, are not 0. -/
theorem reservedClear_eq_false_iff (u : FieldUse) (c : U32) :
    reservedClear u c = false ↔ c.toNat / 65536 ≠ 0 ∨ (u.f = false ∧ c.toNat / 256 % 2 ≠ 0) ∨
      (u.p = false ∧ c.toNat / 512 % 32 ≠ 0) ∨ (u.m = false ∧ c.toNat / 16384 % 4 ≠ 0) := by
  simp only [reservedClear, ← cmdReserved_toNat, ← cmdF_toNat, ← cmdP_toNat, ← cmdM_toNat,
    Bool.and_eq_false_iff, Bool.or_eq_false_iff, beq_eq_false_iff_ne, ne_eq, BitVec.toNat_eq,
    BitVec.ofNat_eq_ofNat, BitVec.toNat_zero, or_assoc]

/-- The reserved-bits check of a defined opcode, in the columns of rule R115. -/
theorem exists_fieldUse_reservedClear_iff (c : U32)
    (h : c.toNat % 256 ∈ [1, 2, 3, 4, 16, 17, 18, 19, 20, 21, 22, 23, 24, 32, 33, 34, 35, 48, 49]) :
    ∃ u, fieldUse (cmdOpc c).toNat = some u ∧
      (reservedClear u c = false ↔ c.toNat / 65536 ≠ 0 ∨
        (c.toNat % 256 ∉ [3, 16, 19, 20] ∧ c.toNat / 256 % 2 ≠ 0) ∨
        (c.toNat % 256 ∉ [17, 19, 21, 32, 33, 35, 48, 49] ∧ c.toNat / 512 % 32 ≠ 0) ∨
        (c.toNat % 256 ∉ [3] ∧ c.toNat / 16384 % 4 ≠ 0)) := by
  rw [cmdOpc_toNat]
  refine ⟨_, fieldUse_of_mem _ h, ?_⟩
  simp only [reservedClear_eq_false_iff, decide_eq_false_iff_not]

/-- An undefined opcode is refused first (rule R307). -/
theorem decode_undefinedOpcode {t : Transaction} (h : fieldUse (cmdOpc t.cmd).toNat = none) :
    decode (.command t) = .error .badOpcode := by
  simp only [decode, decodeCommand, h]

/-- The reserved bits of a defined opcode are checked next (rule R307). -/
theorem decode_reservedBits {t : Transaction} {u : FieldUse}
    (hu : fieldUse (cmdOpc t.cmd).toNat = some u) (h : reservedClear u t.cmd = false) :
    decode (.command t) = .error .reservedBits := by
  simp only [decode, decodeCommand, hu, h, Bool.false_eq_true, if_false]

/-- The format select of READ_PALETTE is checked last (rule R307). -/
theorem decode_badFormat {t : Transaction} {u : FieldUse} (h3 : (cmdOpc t.cmd).toNat = 3)
    (hu : fieldUse (cmdOpc t.cmd).toNat = some u) (hc : reservedClear u t.cmd = true) (hm : 2 ≤ (cmdM t.cmd).toNat) :
    decode (.command t) = .error .badFormat := by
  have hm' : ¬(cmdM t.cmd).toNat < 2 := by omega
  rw [decode_of_reservedClear hu hc]
  simp only [buildCommand, h3, hm', if_false]

end Sys2Proof

namespace Sys2Proof.Machine

/-- A command that does not decode ends the step with the outcome of its encoding (rule R117). -/
theorem step_of_decode_error {s : State} {t : Transaction} {rest : List HostMove} {e : DecodeError}
    (hinbox : s.inbox = .command t :: rest) (he : decode (.command t) = .error e) :
    step s = illegalEncoding (s.takeMove rest) e := by
  simp only [step, hinbox, he]

/-- Settles O3: in the order of rule R307, each clause gives the decoder's refusal, and the step ends with its
outcome. -/
theorem illegalEncodingsEndTheCommand : Obligations.IllegalEncodingsEndTheCommand := by
  intro s t rest hinbox c defined reserved
  have hopc : (cmdOpc t.cmd).toNat = c % 256 := cmdOpc_toNat t.cmd
  refine ⟨fun hd => ?opcode, fun hd hr => ?reservedBits, fun h3 hr hm => ?formatSelect⟩
  case opcode =>
    exact step_of_decode_error hinbox (decode_undefinedOpcode (hopc ▸ fieldUse_of_not_mem hd))
  case reservedBits =>
    obtain ⟨u, hu, hclear⟩ := exists_fieldUse_reservedClear_iff t.cmd hd
    exact step_of_decode_error hinbox (decode_reservedBits hu (hclear.2 hr))
  case formatSelect =>
    have hd : defined := by simp only [defined, h3]; decide
    obtain ⟨u, hu, hclear⟩ := exists_fieldUse_reservedClear_iff t.cmd hd
    have hc : reservedClear u t.cmd = true := by simpa using hclear.not.2 hr
    exact step_of_decode_error hinbox
      (decode_badFormat (hopc.trans h3) hu hc (by rw [cmdM_toNat]; exact hm))

/-! ### The fast reject -/

/-- Settles O49: each of the eight rows is the fast reject, which records its outcome alone. -/
theorem fastRejectRowsReject : Obligations.FastRejectRowsReject := by
  intro s hi i hmem
  have hexec : exec i s = .next (fastReject s) := by
    simp only [fastRejectRows, List.mem_cons, List.not_mem_nil, or_false] at hmem
    rcases hmem with rfl | rfl | rfl | rfl | rfl | rfl | rfl | rfl <;> rfl
  rw [hexec, fastReject, finish_eq_answers]

end Sys2Proof.Machine

/-! SUPPORT. The palette decoder's words and refusals (rules R130 to R132, R140, R141, R143, R144): the channels of
an expanded word, the law that recovers the word, and what READ_PALETTE answers before it loads a row. -/

namespace Sys2Proof.Machine

/-! ### The fields of an expanded word -/

/-- A 5-bit channel scaled by 8 fits a byte (rule R132). -/
theorem channel8_toNat (c : BitVec 5) : (channel8 c).toNat = c.toNat * 8 := by
  rw [channel8, BitVec.toNat_ofNat]
  exact Nat.mod_eq_of_lt (by omega)

/-- The byte of the flag is bit 15 as a number (rule R133). -/
theorem flagByte_rawStp_toNat (raw : U16) : (flagByte (rawStp raw)).toNat = raw.toNat / 32768 := by
  have hb : rawStp raw = decide (raw.toNat / 32768 % 2 = 1) := by
    rw [rawStp, BitVec.getLsbD, Nat.testBit_eq_decide_div_mod_eq]
  by_cases h : raw.toNat / 32768 % 2 = 1
  · rw [hb, decide_eq_true h]
    change 1 = raw.toNat / 32768
    omega
  · rw [hb, decide_eq_false h]
    change 0 = raw.toNat / 32768
    omega

/-- The expansion of a word other than 0 (rule R130). -/
theorem expand16_of_ne_zero {raw : U16} (h : raw ≠ 0) :
    expand16 raw =
      ⟨⟨255, channel8 (raw.extractLsb' 0 5), channel8 (raw.extractLsb' 5 5), channel8 (raw.extractLsb' 10 5)⟩,
        flagByte (rawStp raw)⟩ := if_neg h

/-- The channel of the 5-bit field at a bit position (rules R108, R130). -/
theorem channel8_extract_toNat (raw : U16) (i : Nat) :
    (channel8 (raw.extractLsb' i 5)).toNat = raw.toNat / 2 ^ i % 32 * 8 := by
  rw [channel8_toNat, BitVec.extractLsb'_toNat, Nat.shiftRight_eq_div_pow]

/-- Settles O39: word 0 is masking black, and each part of another word's entry is its field. -/
theorem expandedEntries : Obligations.ExpandedEntries := by
  refine ⟨rfl, fun raw h => ?_⟩
  rw [expand16_of_ne_zero h]
  refine ⟨rfl, ?_, channel8_extract_toNat raw 5, channel8_extract_toNat raw 10, flagByte_rawStp_toNat raw⟩
  rw [channel8_extract_toNat raw 0, Nat.pow_zero, Nat.div_one]

/-- Settles O40: the word is the sum of its fields, each of which the entry gives back. -/
theorem reencodingRecoversTheWord : Obligations.ReencodingRecoversTheWord := by
  intro raw
  obtain ⟨hzero, hfields⟩ := expandedEntries
  by_cases h : raw = 0
  · rw [h, hzero]
    rfl
  · obtain ⟨_, hr, hg, hb, hstp⟩ := hfields raw h
    rw [encodeEntry, hr, hg, hb, hstp]
    omega

/-! ### The answers of the palette decoder's commands -/

/-- Settles O41: the mode is the comparison of the width with 256. -/
theorem getModeFromClutAnswers : Obligations.GetModeFromClutAnswers := by
  intro s w
  exact congrArg Host.Outcome.next (ok_eq_answers s (.bit (modeFromClut w.toNat)))

theorem clutDimOk_eq_false_iff (n : Nat) : clutDimOk n = false ↔ n = 0 ∨ 256 < n := by
  rw [← Bool.not_eq_true, clutDimOk_iff]
  omega

/-- READ_PALETTE with a legal format select makes its other checks in order (rules R140, R307). -/
theorem exec_readPalette_checks (s : State) (fmt8 first : Bool) (cw ch : U64) :
    exec (.readPalette (if fmt8 then 1 else 0) first cw ch) s =
      .next (if !s.curWritten then s.illegal .uninitialized
        else if !clutDimOk ch.toNat then s.illegal .badOperand
        else if !clutDimOk cw.toNat then s.finish .formatRejected .clutWidthBad .none
        else readPaletteRows s fmt8 first cw.toNat ch.toNat) := by
  obtain ⟨hselect, hfmt⟩ := formatSelect_cases fmt8
  simp only [exec, execReadPalette, if_neg hselect, hfmt]

/-- Settles O45: each clause passes the checks before its own and fails that one. -/
theorem readPaletteOperandChecks : Obligations.ReadPaletteOperandChecks := by
  intro s fmt8 first cw ch i badHeight badWidth
  simp only [i, exec_readPalette_checks, illegal_eq_answers, finish_eq_answers]
  refine ⟨fun hcur => ?cursor, fun hcur hh => ?height, fun hcur hh hw => ?width⟩
  case cursor => simp [hcur]
  case height =>
    have hh' : clutDimOk ch.toNat = false := (clutDimOk_eq_false_iff _).2 hh
    simp [hcur, hh']
  case width =>
    have hh' : clutDimOk ch.toNat = true := by simpa using (clutDimOk_eq_false_iff _).not.2 hh
    have hw' : clutDimOk cw.toNat = false := (clutDimOk_eq_false_iff _).2 hw
    simp [hcur, hh', hw']

/-- READ_PALETTE in tolerant mode whose span is longer than the rest of the stream skips it (rule R141). -/
theorem readPaletteRows_tolerant_short (s : State) (fmt8 first : Bool) (cw ch : Nat) (ht : s.tolerant = true)
    (hspan : remaining s.slen.toNat s.cur < 2 * cw * ch) :
    readPaletteRows s fmt8 first cw ch =
      (s.setCur (skipBy s.cur (2 * cw * ch))).finish .truncatedInput .paletteTruncated .none :=
  if_pos (by rw [ht, Bool.true_and, decide_eq_true hspan])

/-- Settles O43: the operands pass their checks, and the span check comes before the load. -/
theorem readPaletteTolerantTruncation : Obligations.ReadPaletteTolerantTruncation := by
  intro s fmt8 first cw ch hc ht hw1 hw2 hh1 hh2 hspan
  rw [exec_readPalette_legal s fmt8 first cw ch hc (clutDimOk_of _ hw1 hw2) (clutDimOk_of _ hh1 hh2),
    readPaletteRows_tolerant_short s fmt8 first cw.toNat ch.toNat ht hspan]
  rfl

end Sys2Proof.Machine

/-! SUPPORT. DECODE_TIM up to its flags word (rules R160 to R166): the header that lies in the stream, its two
rejects, and the row of the format table that the flags word selects. -/

namespace Sys2Proof.Machine

/-! ### The header in the stream -/

/-- The tag inside the stream, when it is not the tag of a TIM container (rule R163). -/
theorem readHeader_tagMismatch (s : State) (hin : s.cur.toNat + 2 ≤ s.slen.toNat)
    (htag : s.u16At s.cur.toNat ≠ 0x10) :
    readHeader s =
      .ended (rejectCandidate s s.cur.toNat (s.cur + BitVec.ofNat 64 2) 8 .tagMismatch) := by
  have hne : BitVec.ofNat 16 (s.u16At s.cur.toNat) ≠ 0x0010#16 := fun e =>
    htag (by rw [← toNat_ofNat_u16At, e]; rfl)
  simp only [readHeader, rd16_inside s s.cur hin, if_pos hne]

/-- The tag of a TIM container inside the stream: the version follows (rule R163). -/
theorem readHeader_tag (s : State) (hin : s.cur.toNat + 2 ≤ s.slen.toNat)
    (htag : s.u16At s.cur.toNat = 0x10) :
    readHeader s = readVersion s s.cur.toNat (s.cur + BitVec.ofNat 64 2) := by
  simp [readHeader, rd16_inside s s.cur hin, htag]

/-- A version inside the stream other than 0 is rejected without IGNORE_VERSION (rule R164). -/
theorem readVersion_mismatch (s : State) (p0 : Nat) (cur : U64) (hin : cur.toNat + 2 ≤ s.slen.toNat)
    (hver : s.u16At cur.toNat ≠ 0) (hign : s.ignoreVersion = false) :
    readVersion s p0 cur =
      .ended (rejectCandidate s p0 (cur + BitVec.ofNat 64 2) 8 .versionMismatch) := by
  simp only [readVersion, rd16_inside s cur hin, if_pos (And.intro (ofNat_u16At_ne s _ hver) hign)]

/-- An admitted version and a flags word inside the stream: CUR is just after the word (rules R164, R165). -/
theorem readVersion_flags (s : State) (p0 : Nat) (cur : U64) (hin : cur.toNat + 6 ≤ s.slen.toNat)
    (hver : s.u16At cur.toNat = 0 ∨ s.ignoreVersion = true) :
    readVersion s p0 cur = .flags (BitVec.ofNat 32 (s.u32At (cur.toNat + 2)))
      (s.setCur (cur + BitVec.ofNat 64 6)) := by
  have hcur : (cur + BitVec.ofNat 64 2).toNat = cur.toNat + 2 :=
    toNat_add_ofNat cur 2 (by have := slen_lt s; omega)
  have hadmit : ¬(BitVec.ofNat 16 (s.u16At cur.toNat) ≠ 0 ∧ s.ignoreVersion = false) := by
    rcases hver with h | h <;> simp [h]
  simp only [readVersion, rd16_inside s cur (by omega), if_neg hadmit, readFlags,
    rd32_inside s _ (by omega : (cur + BitVec.ofNat 64 2).toNat + 4 ≤ s.slen.toNat), hcur, add_ofNat_add]

/-- A container whose header lies in the stream and passes its checks, at CUR (rules R162 to R165). -/
structure State.HeaderPasses (s : State) : Prop where
  inside : s.cur.toNat + 8 ≤ s.slen.toNat
  tag : s.u16At s.cur.toNat = 0x10
  version : s.u16At (s.cur.toNat + 2) = 0 ∨ s.ignoreVersion = true

/-- Such a header gives its flags word, with CUR just after it. -/
theorem readHeader_flags (s : State) (h : s.HeaderPasses) :
    readHeader s = .flags (BitVec.ofNat 32 (s.u32At (s.cur.toNat + 4)))
      (s.setCur (s.cur + BitVec.ofNat 64 8)) := by
  obtain ⟨hin, htag, hver⟩ := h
  have hcur : (s.cur + BitVec.ofNat 64 2).toNat = s.cur.toNat + 2 :=
    toNat_add_ofNat s.cur 2 (by have := slen_lt s; omega)
  rw [readHeader_tag s (by omega) htag,
    readVersion_flags s _ _ (by omega) (by rw [hcur]; exact hver), hcur, add_ofNat_add]

/-! ### The flags word -/

/-- Running a flags word is running the instruction it decodes to (rules R102, R103). -/
theorem runFlags_eq_exec (w : U32) (s : State) :
    runFlags (flagsCode w) (flagsRest w) s = exec (decodeFlags w) s := by
  unfold runFlags decodeFlags
  generalize (flagsCode w).toNat = code
  match code with
  | 0 | 1 | 2 | 3 | 4 | 5 | 6 | 7 | 8 | 9 | 10 | 11 | 12 | 13 | 14 | _ + 15 => rfl

/-- The row bits of a flags word (rule R102). -/
theorem flagsCode_toNat (w : U32) : (flagsCode w).toNat = w.toNat % 16 := by
  rw [flagsCode, BitVec.extractLsb'_toNat, Nat.shiftRight_zero]

/-- A flags word with a format code of 4 or above selects a fast-rejected row (rules R103, R166). -/
theorem decodeFlags_mem_fastRejectRows (w : U32) (h : 4 ≤ w.toNat % 8) :
    decodeFlags w ∈ fastRejectRows (flagsRest w) := by
  have hcode := flagsCode_toNat w
  simp only [decodeFlags, fastRejectRows]
  split
  case h_1 | h_2 | h_3 | h_4 | h_9 | h_10 | h_11 | h_12 => omega
  all_goals simp

/-- A flags word with row bits 2 selects the row of Direct16 (rule R103). -/
theorem decodeFlags_direct16 (w : U32) (h : w.toNat % 16 = 2) :
    decodeFlags w = .timDirect16 (flagsRest w) := by
  simp only [decodeFlags, flagsCode_toNat, h]

/-! ### DECODE_TIM -/

/-- DECODE_TIM of a header that passes runs the row of its flags word, from just after the word. -/
theorem exec_decodeTim_flags (s : State) (hc : s.curWritten = true) (hm : s.maxresWritten = true)
    (h : s.HeaderPasses) :
    exec .decodeTim s = exec (decodeFlags (BitVec.ofNat 32 (s.u32At (s.cur.toNat + 4))))
      (s.setCur (s.cur + BitVec.ofNat 64 8)) := by
  rw [← runFlags_eq_exec]
  simp only [exec, execDecodeTim, hc, hm, readHeader_flags s h, Bool.and_self, if_true]

/-- Settles O6: the header passes its checks, and the flags word selects its row. -/
theorem decodeTimRunsTheFlagsWord : Obligations.DecodeTimRunsTheFlagsWord :=
  fun s hc hm hin htag hver => exec_decodeTim_flags s hc hm ⟨hin, htag, hver⟩

/-- A rejected candidate ends with CUR from p0 to any bound on the cursor reached and the declared end (rule
R183). -/
theorem rejectCandidate_ends (s : State) (p0 : Nat) (reached : U64) (ldecl hi : Nat) (reason : Reason)
    (hp : p0 < 2 ^ 64) (h1 : reached.toNat ≤ hi) (h2 : p0 + ldecl ≤ hi) :
    s.candidateEnds (rejectCandidate s p0 reached ldecl reason) p0 hi .formatRejected reason :=
  endCandidate_ends s s.cur p0 reached ldecl hi _ reason hp h1 h2

/-- Settles O46: the written bits, the tag and the version are checked in this order. -/
theorem decodeTimHeaderChecks : Obligations.DecodeTimHeaderChecks := by
  intro s
  have hs := slen_lt s
  refine ⟨fun hw => ?unwritten, fun hc hm => ⟨fun hin htag => ?tag, fun hin htag hver hign => ?version⟩⟩
  case unwritten =>
    have hw' : (s.curWritten && s.maxresWritten) = false := Bool.and_eq_false_iff.2 hw
    rw [← illegal_eq_answers]
    simp only [exec, execDecodeTim, hw', Bool.false_eq_true, if_false]
  case tag =>
    have hcur := toNat_add_ofNat s.cur 2 (by omega)
    exact ⟨_, exec_decodeTim_ended hc hm (readHeader_tagMismatch s hin htag),
      rejectCandidate_ends s _ _ _ _ _ s.cur.isLt (by omega) le_rfl⟩
  case version =>
    have hcur := toNat_add_ofNat s.cur 2 (by omega)
    have hcur' := toNat_add_ofNat s.cur (2 + 2) (by omega)
    have e := readVersion_mismatch s s.cur.toNat (s.cur + BitVec.ofNat 64 2) (by omega)
      (by rw [hcur]; exact hver) hign
    rw [add_ofNat_add] at e
    exact ⟨_, exec_decodeTim_ended hc hm ((readHeader_tag s (by omega) htag).trans e),
      rejectCandidate_ends s _ _ _ _ _ s.cur.isLt (by omega) le_rfl⟩

/-- Settles O48: the flags word selects a fast-rejected row, which leaves CUR just after the word. -/
theorem fastRejectStopsAfterTheFlags : Obligations.FastRejectStopsAfterTheFlags := by
  intro s hc hm hin htag hver hcode
  rw [exec_decodeTim_flags s hc hm ⟨hin, htag, hver⟩]
  exact fastRejectRowsReject _ _ _ (decodeFlags_mem_fastRejectRows _ (by rwa [toNat_ofNat_u32At]))

/-! ### Rows without their palette, and rows with a re-derived format -/

/-- Settles O50: both rows are the reject of a missing palette, 8 bytes after the candidate's start. -/
theorem indexedNeedsPalette : Obligations.IndexedNeedsPalette := by
  intro s hi h8 i hmem
  have hexec : exec i s = .next (rejectNoPalette s) := by
    simp only [List.mem_cons, List.not_mem_nil, or_false] at hmem
    rcases hmem with rfl | rfl <;> rfl
  have hp := s.cur.isLt
  exact ⟨_, hexec, rejectCandidate_ends s (s.cur.toNat - 8) _ _ _ _ (by omega) le_rfl (by omega)⟩

/-- A palette header inside the stream: its checks and its load follow, with CUR past it (rule R167). -/
theorem exec_paletteRow_header (s : State) (code : PixelFormat) (hi : BitVec 28)
    (hin : s.cur.toNat + 12 ≤ s.slen.toNat) :
    exec (paletteRow code hi) s =
      .next (loadPaletteBlock (s.setCur (s.cur + BitVec.ofNat 64 12)) code (s.cur.toNat - 8)
        (s.palHeaderAt s.cur.toNat)) := by
  rw [exec_paletteRow]
  simp only [readPaletteBlock, readPalHeader_inside s s.cur hin]
  rfl

/-- The format code counts in a palette block only through the format it gives (rule R168). -/
theorem loadPaletteBlock_congr (s : State) {code code' : PixelFormat} (p0 : Nat) (h : PalHeader)
    (e : formatWithPalette code h.w.toNat = formatWithPalette code' h.w.toNat) :
    loadPaletteBlock s code p0 h = loadPaletteBlock s code' p0 h := by
  simp only [loadPaletteBlock, e]

/-- Codes 2 and 3 are re-derived as Indexed8 from clut width 256 on, else as Indexed4 (rule R168). -/
theorem formatWithPalette_direct (cw : Nat) :
    ∀ code ∈ [PixelFormat.direct16, .direct24],
      formatWithPalette code cw =
        formatWithPalette (if 256 ≤ cw then .indexed8 else .indexed4) cw := by
  intro code hmem
  simp only [List.mem_cons, List.not_mem_nil, or_false] at hmem
  by_cases h : 256 ≤ cw <;> rcases hmem with rfl | rfl <;> simp [formatWithPalette, modeFromClut, h]

/-- Settles O51: the header that the row reads has the clut width, and with it the format. -/
theorem formatIsReDerived : Obligations.FormatIsReDerived := by
  intro s hi hin i hmem
  obtain ⟨code, hcode, rfl⟩ : ∃ code ∈ [PixelFormat.direct16, .direct24], i = paletteRow code hi := by
    simpa [paletteRow] using hmem
  have hrow : (if 256 ≤ s.u16At (s.cur.toNat + 8) then .timIndexed8Pal hi else .timIndexed4Pal hi) =
      paletteRow (if 256 ≤ s.u16At (s.cur.toNat + 8) then .indexed8 else .indexed4) hi := by
    split <;> rfl
  rw [hrow, exec_paletteRow_header s _ hi hin, exec_paletteRow_header s _ hi hin,
    loadPaletteBlock_congr]
  have hw : (s.palHeaderAt s.cur.toNat).w.toNat = s.u16At (s.cur.toNat + 8) := toNat_ofNat_u16At s _
  rw [hw]
  exact formatWithPalette_direct _ code hcode

end Sys2Proof.Machine

/-! SUPPORT. The checks after a container's headers (rules R169 to R177): those of a palette block and of its
load, and those of an image, alone and after a palette block. -/

namespace Sys2Proof.Machine

/-! ### The palette block -/

section
variable (s : State) (code : PixelFormat) (p0 : Nat) (h : PalHeader)

/-- The clut width is checked first (rule R169). -/
theorem loadPaletteBlock_widthBad (hw : clutDimOk h.w.toNat = false) :
    loadPaletteBlock s code p0 h = rejectCandidate s p0 s.cur (paletteBase h) .clutWidthBad := by
  simp only [loadPaletteBlock, hw, Bool.not_false, if_true]

/-- Then the clut height (rule R169). -/
theorem loadPaletteBlock_heightBad (hw : clutDimOk h.w.toNat = true) (hh : clutDimOk h.h.toNat = false) :
    loadPaletteBlock s code p0 h = rejectCandidate s p0 s.cur (paletteBase h) .clutHeightBad := by
  simp only [loadPaletteBlock, hw, hh, Bool.not_true, Bool.not_false, Bool.false_eq_true, if_true,
    if_false]

/-- Then, in tolerant mode, the span of the whole palette (rule R170). -/
theorem loadPaletteBlock_tolerant_short (hw : clutDimOk h.w.toNat = true) (hh : clutDimOk h.h.toNat = true)
    (ht : s.tolerant = true) (hspan : remaining s.slen.toNat s.cur < 2 * h.w.toNat * h.h.toNat) :
    loadPaletteBlock s code p0 h =
      endCandidate s p0 s.cur (paletteBase h) .truncatedInput .paletteTruncated := by
  simp only [loadPaletteBlock, hw, hh, ht, gt_iff_lt, hspan, decide_true, Bool.and_self, Bool.not_true,
    Bool.false_eq_true, if_true, if_false]

end

/-- A strict candidate that meets the end of the stream in its palette load (rules R73, R139). -/
theorem streamEnded_brokenAt (s : State) (c : U64) (p0 ldecl : Nat) (reason : Reason)
    (ht : s.tolerant = false) :
    streamEnded (s.brokenAt.setCur c) p0 c ldecl reason =
      endCandidate (s.brokenAt.setCur c) p0 c ldecl .decodeFault .streamEnd := by
  rw [streamEnded_eq, State.setCur_tolerant, State.brokenAt_tolerant, ht]
  rfl

/-- A candidate that ends changes the outcome, CUR and the draw counter alone (rule R183). -/
theorem endCandidate_eq (s : State) (p0 : Nat) (reached : U64) (ldecl : Nat) (code : Code)
    (reason : Reason) :
    endCandidate s p0 reached ldecl code reason =
      { s.answers code reason .none with
        cur := (endCandidate s p0 reached ldecl code reason).cur
        draws := s.draws + 1 } := rfl

/-- After a load that was cut short it also keeps what the load left (rules R139, R184). -/
theorem endCandidate_brokenAt (s : State) (c : U64) (p0 : Nat) (reached : U64) (ldecl : Nat) (code : Code)
    (reason : Reason) :
    endCandidate (s.brokenAt.setCur c) p0 reached ldecl code reason =
      { s.answers code reason .none with
        cur := (endCandidate (s.brokenAt.setCur c) p0 reached ldecl code reason).cur
        paldim := s.brokenAt.paldim
        pal := s.brokenAt.pal
        draws := s.draws + 2 } := by
  generalize hc : (endCandidate (s.brokenAt.setCur c) p0 reached ldecl code reason).cur = cur
  rw [endCandidate_eq, hc]
  rfl

/-- Settles O52: each check comes after those before it, and the load after them all. -/
theorem paletteBlockChecks : Obligations.PaletteBlockChecks := by
  intro s hi code h8 hin q cw ch count ends
  have hq : q < 2 ^ 64 := s.cur.isLt
  have hcur : (s.cur + BitVec.ofNat 64 12).toNat = q + 12 :=
    toNat_add_ofNat s.cur 12 (by have := slen_lt s; omega)
  have hexec := exec_paletteRow_header s code hi hin
  have hw : (s.palHeaderAt q).w.toNat = cw := toNat_ofNat_u16At s _
  have hh : (s.palHeaderAt q).h.toNat = ch := toNat_ofNat_u16At s _
  have hbase : paletteBase (s.palHeaderAt q) = 8 + (12 + 2 * count cw * count ch) := by
    rw [paletteBase, hw, hh]
    rfl
  have candidate : ∀ {code' reason},
      loadPaletteBlock (s.setCur (s.cur + BitVec.ofNat 64 12)) code (q - 8) (s.palHeaderAt q) =
        endCandidate (s.setCur (s.cur + BitVec.ofNat 64 12)) (q - 8) (s.cur + BitVec.ofNat 64 12)
          (paletteBase (s.palHeaderAt q)) code' reason → ends code' reason := by
    intro code' reason e
    rw [e] at hexec
    exact ⟨_, hexec, endCandidate_ends s _ _ _ _ _ _ _ (by omega) (by omega) (by omega)⟩
  refine ⟨fun hcw => ?width, fun hcw1 hcw2 hch => ?height, fun hl ht hspan => ?tolerant,
    fun hl ht hp => ?strict⟩
  case width =>
    exact candidate (loadPaletteBlock_widthBad _ _ _ _ (by rw [hw]; exact (clutDimOk_eq_false_iff cw).2 hcw))
  case height =>
    exact candidate (loadPaletteBlock_heightBad _ _ _ _ (by rw [hw]; exact clutDimOk_of cw hcw1 hcw2)
      (by rw [hh]; exact (clutDimOk_eq_false_iff ch).2 hch))
  case tolerant =>
    obtain ⟨hcw1, hcw2, hch1, hch2⟩ := hl
    exact candidate (loadPaletteBlock_tolerant_short _ _ _ _ (by rw [hw]; exact clutDimOk_of cw hcw1 hcw2)
      (by rw [hh]; exact clutDimOk_of ch hch1 hch2) ht
      (by rw [hw, hh, State.setCur_cur, State.setCur_slen, remaining, hcur]; exact hspan))
  case strict =>
    have hrows : q + 12 + 2 * cw * s.rowsAsked q ≤ q + 12 + 2 * cw * ch := rowsAsked_le_imageAfter s hl
    have hdecl : paletteBase (s.palHeaderAt q) = 8 + (12 + 2 * cw * ch) := paletteBase_eq s q hl
    obtain ⟨c, hc, e⟩ := readPaletteBlock_past s code (q - 8) hl ht hin hp
    obtain ⟨hlo, hhi⟩ := endCandidate_cursor (s.brokenAt.setCur c) (q - 8) c
      (paletteBase (s.palHeaderAt q)) .decodeFault .streamEnd (by omega)
    rw [streamEnded_brokenAt s c _ _ _ ht] at e
    refine ⟨_, (exec_paletteRow s code hi).trans (congrArg _ e), endCandidate_brokenAt s c _ _ _ _ _, hlo,
      hhi.trans (by omega), s.holdsPalDim_brokenAt, rfl, rfl, rfl, rfl, rfl,
      fun r hr => palRowFlag_brokenPalette s.pal _ s.draws r hr⟩

/-! ### The image -/

/-- The image header at a stream offset fails a check, the first in the order of rule R186, and the outcome
of that check (rules R33, R174 to R177). -/
inductive State.ImageFails (s : State) (fmt : PixelFormat) (a : Nat) : Code → Reason → Prop
  | strideZero : s.u16At (a + 8) = 0 → s.ImageFails fmt a .formatRejected .strideZero
  | heightZero : s.u16At (a + 8) ≠ 0 → s.u16At (a + 10) = 0 →
      s.ImageFails fmt a .formatRejected .heightZero
  | widthZero : s.u16At (a + 8) ≠ 0 → s.u16At (a + 10) ≠ 0 → fmt = .direct24 →
      pixelWidth fmt (s.u16At (a + 8)) = 0 → s.params.zeroWidthD24 = .reject →
        s.ImageFails fmt a .formatRejected .widthZero
  | zeroWidth : s.u16At (a + 8) ≠ 0 → s.u16At (a + 10) ≠ 0 → fmt = .direct24 →
      pixelWidth fmt (s.u16At (a + 8)) = 0 → s.params.zeroWidthD24 = .fault →
        s.ImageFails fmt a .decodeFault .zeroWidth
  | widthTooLarge : s.u16At (a + 8) ≠ 0 → s.u16At (a + 10) ≠ 0 →
      (fmt = .direct24 →
        pixelWidth fmt (s.u16At (a + 8)) ≠ 0 ∨ s.params.zeroWidthD24 = .emptyTexture) →
      ¬s.admitsWidth (pixelWidth fmt (s.u16At (a + 8))) →
        s.ImageFails fmt a .formatRejected .widthTooLarge
  | pageOutOfRange : s.u16At (a + 8) ≠ 0 → s.u16At (a + 10) ≠ 0 →
      (fmt = .direct24 →
        pixelWidth fmt (s.u16At (a + 8)) ≠ 0 ∨ s.params.zeroWidthD24 = .emptyTexture) →
      s.admitsWidth (pixelWidth fmt (s.u16At (a + 8))) →
      1024 ≤ s.u16At (a + 4) ∨ 512 ≤ s.u16At (a + 6) →
        s.ImageFails fmt a .formatRejected .pageOutOfRange

/-- The page check of an origin (rule R177). -/
theorem originOnPage_eq_false {ox oy : Nat} (h : 1024 ≤ ox ∨ 512 ≤ oy) : originOnPage ox oy = false := by
  rw [← Bool.not_eq_true, originOnPage, Bool.and_eq_true, decide_eq_true_eq, decide_eq_true_eq, originPageX,
    originPageY]
  omega

/-- A failed check of the image header ends the candidate with its outcome. -/
theorem checkImage_fails {s : State} {fmt : PixelFormat} {a : Nat} {code : Code} {reason : Reason}
    (hf : s.ImageFails fmt a code reason) (c : U64) (p0 ldecl : Nat) :
    checkImage (s.setCur c) fmt p0 ldecl (s.imgHeaderAt a) =
      endCandidate (s.setCur c) p0 c ldecl code reason := by
  have hstride : (s.imgHeaderAt a).stride.toNat = s.u16At (a + 8) := toNat_ofNat_u16At s _
  have hstride0 : s.u16At (a + 8) ≠ 0 → (s.imgHeaderAt a).stride ≠ 0 := ofNat_u16At_ne s _
  have hheight0 : s.u16At (a + 10) ≠ 0 → (s.imgHeaderAt a).h ≠ 0 := ofNat_u16At_ne s _
  have nonzero : ∀ z, z ≠ .emptyTexture → (fmt = .direct24 →
      pixelWidth fmt (s.u16At (a + 8)) ≠ 0 ∨ s.params.zeroWidthD24 = .emptyTexture) →
        ¬(fmt = .direct24 ∧ pixelWidth fmt (s.u16At (a + 8)) = 0 ∧ s.params.zeroWidthD24 = z) := by
    rintro z hz hgo ⟨h1, h2, h3⟩
    rcases hgo h1 with h | h
    · exact h h2
    · exact hz (h3.symm.trans h)
  simp only [checkImage, hstride, State.setCur_cur, State.setCur_params, State.setCur_maxres]
  cases hf with
  | strideZero hst =>
    rw [if_pos (show (s.imgHeaderAt a).stride = 0 by simp [State.imgHeaderAt, hst])]
    rfl
  | heightZero hst hh =>
    rw [if_neg (hstride0 hst), if_pos (show (s.imgHeaderAt a).h = 0 by simp [State.imgHeaderAt, hh])]
    rfl
  | widthZero hst hh hfmt hw hz =>
    rw [if_neg (hstride0 hst), if_neg (hheight0 hh), if_pos ⟨hfmt, hw, hz⟩]
    rfl
  | zeroWidth hst hh hfmt hw hz =>
    rw [if_neg (hstride0 hst), if_neg (hheight0 hh), if_neg (by simp [hz]), if_pos ⟨hfmt, hw, hz⟩]
  | widthTooLarge hst hh hgo hw =>
    rw [if_neg (hstride0 hst), if_neg (hheight0 hh), if_neg (nonzero _ (by decide) hgo),
      if_neg (nonzero _ (by decide) hgo),
      if_pos (by simpa using (widthTooLarge_eq_false _ _ _).not.2 hw)]
    rfl
  | pageOutOfRange hst hh hgo hw hxy =>
    have hpage : originOnPage (s.imgHeaderAt a).ox.toNat (s.imgHeaderAt a).oy.toNat = false :=
      originOnPage_eq_false (by simpa only [State.imgHeaderAt, toNat_ofNat_u16At] using hxy)
    rw [if_neg (hstride0 hst), if_neg (hheight0 hh), if_neg (nonzero _ (by decide) hgo),
      if_neg (nonzero _ (by decide) hgo), (widthTooLarge_eq_false _ _ _).2 hw, hpage]
    rfl

/-- An image header at CUR that lies in the stream and fails a check (rules R173 to R177). -/
theorem readImage_fails {s : State} {fmt : PixelFormat} {code : Code} {reason : Reason}
    (hf : s.ImageFails fmt s.cur.toNat code reason) (hin : s.cur.toNat + 12 ≤ s.slen.toNat)
    (p0 base : Nat) :
    readImage s fmt p0 base =
      endCandidate (s.setCur (s.cur + BitVec.ofNat 64 12)) p0 (s.cur + BitVec.ofNat 64 12)
        (base + 12 + rowBytes s.params.idx8RowRule fmt (s.u16At (s.cur.toNat + 8)) *
          s.u16At (s.cur.toNat + 10)) code reason := by
  rw [readImage_checks s fmt p0 base hin, checkImage_fails hf]

/-- Such an image without a palette block ends its candidate, CUR between p0 and the declared end of the
container (rule R183). -/
theorem readImage_fails_ends {s : State} {fmt : PixelFormat} {code : Code} {reason : Reason}
    (hf : s.ImageFails fmt s.cur.toNat code reason) (h8 : 8 ≤ s.cur.toNat)
    (hin : s.cur.toNat + 12 ≤ s.slen.toNat) :
    s.candidateEnds (readImage s fmt (s.cur.toNat - 8) 8) (s.cur.toNat - 8)
      (s.cur.toNat + 12 + rowBytes s.params.idx8RowRule fmt (s.u16At (s.cur.toNat + 8)) *
        s.u16At (s.cur.toNat + 10)) code reason := by
  have hp := s.cur.isLt
  have hcur := toNat_add_ofNat s.cur 12 (by have := slen_lt s; omega)
  rw [readImage_fails hf hin]
  exact endCandidate_ends s _ _ _ _ _ _ _ (by omega) (by omega) (by omega)

/-- A palette load changes nothing that the checks of an image read. -/
theorem State.ImageFails.loadedAt {s : State} {fmt : PixelFormat} {a : Nat} {c : Code} {r : Reason}
    (hf : s.ImageFails fmt a c r) (code : PixelFormat) : (s.loadedAt code).ImageFails fmt a c r := by
  cases hf with
  | strideZero h1 => exact .strideZero h1
  | heightZero h1 h2 => exact .heightZero h1 h2
  | widthZero h1 h2 h3 h4 h5 => exact .widthZero h1 h2 h3 h4 h5
  | zeroWidth h1 h2 h3 h4 h5 => exact .zeroWidth h1 h2 h3 h4 h5
  | widthTooLarge h1 h2 h3 h4 => exact .widthTooLarge h1 h2 h3 h4
  | pageOutOfRange h1 h2 h3 h4 h5 => exact .pageOutOfRange h1 h2 h3 h4 h5

/-- Each row with a palette block whose image header lies in the stream and fails a check: the candidate ends
with its palette loaded (rules R309, R339). -/
theorem exec_paletteRow_imageFails (s : State) (code : PixelFormat) (hi : BitVec 28) {fmt8 : Bool}
    {c : Code} {r : Reason} (hf8 : rowsOf256 code (s.u16At (s.cur.toNat + 8)) = fmt8)
    (h8 : 8 ≤ s.cur.toNat) (hl : s.clutLegal s.cur.toNat)
    (hin : s.imageAfter s.cur.toNat + 12 ≤ s.slen.toNat)
    (hf : s.ImageFails (formatOfRows fmt8) (s.imageAfter s.cur.toNat) c r) :
    ∃ t, exec (paletteRow code hi) s = .next t ∧
      s.candidateEndsLoaded t s.cur.toNat fmt8 (s.cur.toNat - 8)
        (s.imageAfter s.cur.toNat + 12 +
          s.palettedRowBytes fmt8 (s.u16At (s.imageAfter s.cur.toNat + 8)) *
            s.u16At (s.imageAfter s.cur.toNat + 10)) c r := by
  subst hf8
  have hrows := rowsAsked_le_imageAfter s hl
  have hdecl : s.imageAfter s.cur.toNat =
      s.cur.toNat + 12 + 2 * s.u16At (s.cur.toNat + 8) * s.u16At (s.cur.toNat + 10) := rfl
  have hcur := s.loadedAt_cur code hl (by omega)
  have hcur' := toNat_add_ofNat (s.loadedAt code).cur 12 (by have := slen_lt s; omega)
  have hp := s.cur.isLt
  refine ⟨_, exec_paletteRow_loaded s code hi hl (by omega) fun _ => by omega, ?_⟩
  rw [readImage_fails (by rw [hcur]; exact hf.loadedAt code) (by rw [hcur]; exact hin), hcur,
    State.loadedAt_params, State.loadedAt_u16At, State.loadedAt_u16At, rowBytes_formatOfRows]
  exact endCandidate_endsLoaded s code _ _ _ _ _ _ _ hl (by omega) (by omega) (by omega)

/-- Settles O53: each clause names the first check that the image header fails. -/
theorem directImageChecks : Obligations.DirectImageChecks := by
  intro s hi h8 q
  refine ⟨?direct, ?paletted⟩
  case direct =>
    intro hin d24 i st h w widthGoesOn ends
    have hwidth : pixelWidth (if d24 then .direct24 else .direct16) st = w := by
      cases d24 <;> simp [w, pixelWidth_direct]
    have hexec : exec i s =
        .next (readImage s (if d24 then .direct24 else .direct16) (s.cur.toNat - 8) 8) := by
      cases d24 <;> rfl
    have hfmt : (if d24 then PixelFormat.direct24 else .direct16) = .direct24 ↔ d24 = true := by
      cases d24 <;> decide
    have hrow : rowBytes s.params.idx8RowRule (if d24 then .direct24 else .direct16) st = 2 * st := by
      cases d24 <;> rfl
    have fails : ∀ {code reason}, s.ImageFails (if d24 then .direct24 else .direct16) q code reason →
        ends code reason := by
      intro code reason hf
      have he := readImage_fails_ends hf h8 hin
      rw [show s.u16At (s.cur.toNat + 8) = st from rfl, hrow] at he
      exact ⟨_, hexec, he⟩
    refine ⟨fun hst => fails (.strideZero hst), fun hst hh => fails (.heightZero hst hh),
      fun hst hh hd hw hz => fails (.widthZero hst hh (hfmt.2 hd) (hwidth.trans hw) hz),
      fun hst hh hd hw hz => fails (.zeroWidth hst hh (hfmt.2 hd) (hwidth.trans hw) hz),
      fun hst hh hgo hw => fails (.widthTooLarge hst hh ?_ (hwidth ▸ hw)),
      fun hst hh hgo hw hxy => fails (.pageOutOfRange hst hh ?_ (hwidth ▸ hw) hxy)⟩
    all_goals exact fun hd => hwidth ▸ hgo (hfmt.1 hd)
  case paletted =>
    intro hl hin code fmt8 qi st h w ends
    have hwidth : pixelWidth (formatOfRows fmt8) st = w := pixelWidth_formatOfRows fmt8 st
    have hfmt : formatOfRows fmt8 ≠ .direct24 := by cases fmt8 <;> decide
    have hw0 : st ≠ 0 → w ≠ 0 := by
      intro hst
      simp only [w]
      split <;> omega
    have fails : ∀ {reason}, s.ImageFails (formatOfRows fmt8) qi .formatRejected reason → ends reason :=
      fun hf => exec_paletteRow_imageFails s code hi rfl h8 hl hin hf
    refine ⟨fun hst => fails (.strideZero hst), fun hst hh => fails (.heightZero hst hh),
      fun hst hh hw => fails (.widthTooLarge hst hh (fun hd => absurd hd hfmt) ?_),
      fun hst hh hw hxy => fails (.pageOutOfRange hst hh (fun hd => absurd hd hfmt) ?_ hxy)⟩
    · rintro ⟨hle, _⟩
      exact absurd (hwidth ▸ hle) (Nat.not_le.2 hw)
    · exact hwidth.symm ▸ State.admitsWidth_of_ne_zero (hw0 hst) hw

end Sys2Proof.Machine

/-! SUPPORT. Whole containers (rules R160 to R182, R201 to R204): a Direct16 image, and a row with a palette
block whose pixels lie in the stream. -/

namespace Sys2Proof.Machine

/-- The texture that an instruction answers is well formed (rules R48, R208). -/
theorem wellFormed_of_exec_ok {i : Instr} {s b : State} {tex : Texture}
    (h : exec i s = .next (b.ok (.texture tex))) : WellFormedTexture tex := by
  obtain ⟨r, hr, _, hp⟩ := (ends_of_exec h).response
  obtain rfl := Option.some.inj hr
  exact hp.2 tex rfl

/-- Row j of the pixels of the image whose header lies at a stream offset (rules R178, R200). -/
def State.imageRowAt (s : State) (fmt : PixelFormat) (a j : Nat) : PixelRow :=
  rowAt s fmt (pixelWidth fmt (s.u16At (a + 8)))
    (a + 12 + j * rowBytes s.params.idx8RowRule fmt (s.u16At (a + 8)))

/-- The texture of the image whose header lies at a stream offset (rule R181). -/
def State.textureAt (s : State) (fmt : PixelFormat) (a : Nat) : Texture :=
  decodedTexture fmt (s.imgHeaderAt a) ((List.range (s.u16At (a + 10))).map (s.imageRowAt fmt a))

section
variable (s : State) (fmt : PixelFormat) (a : Nat)

@[simp] theorem State.textureAt_width :
    (s.textureAt fmt a).width = pixelWidth fmt (s.u16At (a + 8)) :=
  congrArg (pixelWidth fmt) (toNat_ofNat_u16At s (a + 8))
@[simp] theorem State.textureAt_height : (s.textureAt fmt a).height = s.u16At (a + 10) :=
  toNat_ofNat_u16At s (a + 10)
@[simp] theorem State.textureAt_clutIndex :
    (s.textureAt fmt a).clutIndex = if isIndexed fmt then some 0 else none := rfl

/-- The texture stands where its header says (rules R176, R181). -/
theorem State.placedAt_textureAt :
    PlacedAt (s.textureAt fmt a) (s.u16At (a + 4)) (s.u16At (a + 6)) (bitsPerPixel fmt) := by
  obtain ⟨hpage, hx, hy⟩ := decodedTexture_place fmt (s.imgHeaderAt a)
    ((List.range (s.u16At (a + 10))).map (s.imageRowAt fmt a))
  simp only [State.imgHeaderAt, toNat_ofNat_u16At] at hpage hx hy
  exact ⟨rfl, rfl, hpage, hx, hy, rfl⟩

/-- Cell (j, i) of the texture is pixel i of its row j, in its colour and, in a format that has one, its mask
(rules R181, R200). -/
theorem State.cellAt_textureAt {j : Nat} (i : Nat) (hj : j < s.u16At (a + 10)) (hm : hasMask fmt = true) :
    cellAt (s.textureAt fmt a).color j i = (s.imageRowAt fmt a j).color[i]? ∧
      ∃ rows, (s.textureAt fmt a).mask = some rows ∧
        cellAt rows j i = (s.imageRowAt fmt a j).mask[i]? := by
  obtain ⟨hc, hmask⟩ := cellAt_decodedTexture fmt (s.imgHeaderAt a) (s.u16At (a + 10))
    (s.imageRowAt fmt a) j i hj
  exact ⟨hc, _, if_pos hm, hmask⟩

/-- The pixels of the image whose header lies at a stream offset lie in the stream (rules R179, R206). -/
def State.ImageFits : Prop :=
  s.pixelsInside fmt (s.u16At (a + 8)) (s.u16At (a + 10)) (a + 12)

end

/-- An image at CUR that lies in the stream and passes every check: its texture, and CUR just past it. -/
theorem readImage_texture (s : State) (fmt : PixelFormat) (p0 base : Nat)
    (hpass : s.ImagePasses fmt s.cur.toNat) (hfits : s.ImageFits fmt s.cur.toNat) :
    readImage s fmt p0 base =
      (s.setCur (s.cur + BitVec.ofNat 64 (12 + rowBytes s.params.idx8RowRule fmt
        (s.u16At (s.cur.toNat + 8)) * s.u16At (s.cur.toNat + 10)))).ok
        (.texture (s.textureAt fmt s.cur.toNat)) :=
  readImage_inside s fmt p0 base hpass.stride hpass.height hpass.zeroWidth hpass.width hpass.originX
    hpass.originY hfits

/-! ### Direct16 -/

/-- The flag of a raw word as a byte (rules R109, R133). -/
theorem flagByte_rawStp_u16At (s : State) (a : Nat) :
    flagByte (rawStp (BitVec.ofNat 16 (s.u16At a))) = if 32768 ≤ s.u16At a then 1 else 0 := by
  have hlt := u16At_lt s a
  apply BitVec.eq_of_toNat_eq
  rw [flagByte_rawStp_toNat, toNat_ofNat_u16At]
  split
  · change _ = 1
    omega
  · change _ = 0
    omega

/-- The Direct16 header check of the statements is the one of the format (rules R174, R175, R177). -/
theorem imagePasses_direct16 {s : State} {a : Nat} (h : Direct16HeaderPasses s a) :
    s.ImagePasses .direct16 a := by
  obtain ⟨hst, hh, hw, hx, hy⟩ := h
  have hwidth := (pixelWidth_direct (s.u16At (a + 8))).1
  exact ⟨hst, hh, nofun, by rw [hwidth]; exact State.admitsWidth_of_ne_zero hst hw, hx, hy⟩

/-- A Direct16 image has no padding (rules R107, R109). -/
theorem imageFits_direct16 {s : State} {a : Nat} (hh : s.u16At (a + 10) ≠ 0)
    (h : a + 12 + 2 * s.u16At (a + 8) * s.u16At (a + 10) ≤ s.slen.toNat) : s.ImageFits .direct16 a := by
  have hspan : (s.u16At (a + 10) - 1) * (2 * s.u16At (a + 8)) + 2 * s.u16At (a + 8) =
      2 * s.u16At (a + 8) * s.u16At (a + 10) := by
    rw [← Nat.succ_mul, Nat.succ_eq_add_one, Nat.sub_one_add_one hh, Nat.mul_comm]
  simp only [State.ImageFits, State.pixelsInside, rowBytes, usedBytes, (pixelWidth_direct _).1]
  exact ⟨by omega, fun _ => h⟩

/-- The decoded texture is the Direct16 texture of the statements, when it is well formed. -/
theorem isDirect16Texture_textureAt (s : State) (a : Nat)
    (hwf : WellFormedTexture (s.textureAt .direct16 a)) :
    IsDirect16Texture s a (s.textureAt .direct16 a) := by
  have hwidth : (s.textureAt .direct16 a).width = s.u16At (a + 8) :=
    (s.textureAt_width .direct16 a).trans (pixelWidth_direct _).1
  refine ⟨rfl, rfl, hwidth, s.textureAt_height .direct16 a, rfl, s.placedAt_textureAt .direct16 a, hwf,
    fun j i hj hi => ?_⟩
  rw [State.textureAt_height] at hj
  obtain ⟨hc, rows, hrows, hm⟩ := s.cellAt_textureAt .direct16 a i hj rfl
  rw [State.imageRowAt, (pixelWidth_direct _).1] at hc hm
  rw [hwidth] at hi ⊢
  obtain ⟨ec, em⟩ := rowAt_direct16 s (s.u16At (a + 8)) (a + 12 + j * (2 * s.u16At (a + 8))) i hi
  exact ⟨hc.trans ec, rows, hrows, (hm.trans em).trans (congrArg some (flagByte_rawStp_u16At s _))⟩

/-- The row of Direct16 decodes an image that lies in the stream (rules R173 to R182, R204). -/
theorem exec_timDirect16_texture (s : State) (hi : BitVec 28) (h : Direct16ImageFits s s.cur.toNat) :
    exec (.timDirect16 hi) s =
      .next ((s.setCur (s.cur + BitVec.ofNat 64 (12 + 2 * s.u16At (s.cur.toNat + 8) *
        s.u16At (s.cur.toNat + 10)))).ok (.texture (s.textureAt .direct16 s.cur.toNat))) := by
  obtain ⟨hheader, hin⟩ := h
  have hpass := imagePasses_direct16 hheader
  rw [(exec_directRow s hi).1, readImage_texture s .direct16 _ _ hpass
    (imageFits_direct16 hpass.height hin)]
  rfl

/-- Settles O56: the flags word selects the row of Direct16, which decodes the image after it. -/
theorem decodeTimDecodesDirect16 : Obligations.DecodeTimDecodesDirect16 := by
  intro s hc hm htag hver hflags hfits
  have hin := hfits.2
  have hcur : (s.cur + BitVec.ofNat 64 8).toNat = s.cur.toNat + 8 :=
    toNat_add_ofNat s.cur 8 (by have := slen_lt s; omega)
  have hdec := decodeFlags_direct16 (BitVec.ofNat 32 (s.u32At (s.cur.toNat + 4)))
    (by rwa [toNat_ofNat_u32At])
  have hexec := exec_timDirect16_texture (s.setCur (s.cur + BitVec.ofNat 64 8))
    (flagsRest (BitVec.ofNat 32 (s.u32At (s.cur.toNat + 4)))) (by rw [State.setCur_cur, hcur]; exact hfits)
  rw [← hdec, ← exec_decodeTim_flags s hc hm ⟨by omega, htag, hver⟩] at hexec
  have htex := isDirect16Texture_textureAt s (s.cur.toNat + 8) (by
    have := wellFormed_of_exec_ok hexec
    rwa [State.setCur_cur, hcur] at this)
  have hlen : 20 + 2 * (s.textureAt .direct16 (s.cur.toNat + 8)).width *
      (s.textureAt .direct16 (s.cur.toNat + 8)).height =
        8 + (12 + 2 * s.u16At (s.cur.toNat + 8 + 8) * s.u16At (s.cur.toNat + 8 + 10)) := by
    rw [State.textureAt_width, State.textureAt_height, (pixelWidth_direct _).1, ← Nat.add_assoc]
  refine ⟨_, htex, hexec.trans ?_⟩
  rw [State.setCur_cur, hcur, add_ofNat_add, hlen]
  rfl

/-! ### A row with a palette block -/

/-- The index of pixel k of a row of palette indices at a stream offset (rules R110, R203). -/
def State.indexAt (s : State) (fmt8 : Bool) (a k : Nat) : Nat :=
  if fmt8 then (s.u8At (a + k)).toNat else s.nibbleAt a k

/-- An index selects an entry of a row of its format (rule R180). -/
theorem State.indexAt_lt (s : State) (fmt8 : Bool) (a k : Nat) : s.indexAt fmt8 a k < rowSize fmt8 := by
  cases fmt8 with
  | true => exact (s.u8At (a + k)).isLt
  | false =>
    have hb := (s.u8At (a + k / 2)).isLt
    simp only [State.indexAt, State.nibbleAt, rowSize, Bool.false_eq_true, if_false]
    split <;> omega

/-- Pixel k of a row of palette indices takes the colour, and the flag or the raw index, of the entry of row 0
that its index selects (rules R201 to R203). -/
theorem rowAt_formatOfRows (s : State) (fmt8 : Bool) (st a k : Nat)
    (hk : k < pixelWidth (formatOfRows fmt8) st) :
    let row := rowAt s (formatOfRows fmt8) (pixelWidth (formatOfRows fmt8) st) a
    let e := palCell s.pal 0 (s.indexAt fmt8 a k)
    row.color[k]? = some e.color ∧
      row.mask[k]? = some (if s.params.indexedMaskSource = .rawIndex then
        BitVec.ofNat 8 (s.indexAt fmt8 a k) else e.stp) := by
  have hmask : ∀ idx st, maskOf s.params.indexedMaskSource idx st =
      if s.params.indexedMaskSource = .rawIndex then idx else st := by
    intro idx st
    cases s.params.indexedMaskSource <;> rfl
  cases fmt8 with
  | true =>
    obtain ⟨hc, hm⟩ := rowAt_indexed8 s _ a k hk
    rw [hmask] at hm
    have hidx : BitVec.ofNat 8 (s.indexAt true a k) = s.u8At (a + k) := BitVec.ofNat_toNat _ _
    exact ⟨hc, by rw [hidx]; exact hm⟩
  | false =>
    have heven : pixelWidth (formatOfRows false) st % 2 = 0 := by
      rw [pixelWidth_formatOfRows]
      simp only [Bool.false_eq_true, if_false]
      omega
    obtain ⟨hc, hm⟩ := rowAt_indexed4 s _ a k hk heven
    rw [hmask] at hm
    exact ⟨hc, hm⟩

/-- The pixels of an image after a palette block lie in the stream, in the words of the statements. -/
theorem imageFits_formatOfRows {s : State} {fmt8 : Bool} {a : Nat}
    (hin : a + 12 + s.palettedRowBytes fmt8 (s.u16At (a + 8)) * (s.u16At (a + 10) - 1) +
      2 * s.u16At (a + 8) ≤ s.slen.toNat)
    (ht : s.tolerant = true →
      a + 12 + s.palettedRowBytes fmt8 (s.u16At (a + 8)) * s.u16At (a + 10) ≤ s.slen.toNat) :
    s.ImageFits (formatOfRows fmt8) a := by
  rw [State.ImageFits, State.pixelsInside, rowBytes_formatOfRows, usedBytes_formatOfRows,
    Nat.mul_comm (s.u16At (a + 10) - 1)]
  exact ⟨hin, ht⟩

/-- A palette load changes nothing that places the pixels of an image. -/
theorem State.ImageFits.loadedAt {s : State} {fmt : PixelFormat} {a : Nat} (h : s.ImageFits fmt a)
    (code : PixelFormat) : (s.loadedAt code).ImageFits fmt a := by
  simpa only [State.ImageFits, State.pixelsInside, State.loadedAt_u16At, State.loadedAt_params,
    State.loadedAt_slen, State.loadedAt_tolerant] using h

/-- CUR after a load, from CUR before it (rules R106, R134). -/
theorem State.loadedAt_cur_eq (s : State) (code : PixelFormat) :
    (s.loadedAt code).cur = s.cur + BitVec.ofNat 64
      (12 + 2 * s.u16At (s.cur.toNat + 8) * s.u16At (s.cur.toNat + 10)) := rfl

/-- What a format with palette indices gives its texture (rules R47, R103). -/
theorem formatOfRows_fields (fmt8 : Bool) :
    bitsPerPixel (formatOfRows fmt8) = (if fmt8 then 8 else 4) ∧ isIndexed (formatOfRows fmt8) = true ∧
      hasMask (formatOfRows fmt8) = true := by
  cases fmt8 <;> exact ⟨rfl, rfl, rfl⟩

/-- The table after a load at CUR (rules R134, R168). -/
theorem State.loadedAt_pal (s : State) (code : PixelFormat) :
    (s.loadedAt code).pal =
      s.loadedTable (rowsOf256 code (s.u16At (s.cur.toNat + 8))) (s.cur.toNat + 12)
        (s.u16At (s.cur.toNat + 8)) (s.rowsAsked s.cur.toNat) := rfl

/-- Entry c of row 0 of a loaded palette (rules R134, R135, R137). -/
theorem palCell_loadedAt (s : State) (code : PixelFormat) (hl : s.clutLegal s.cur.toNat) {fmt8 : Bool}
    (hf8 : rowsOf256 code (s.u16At (s.cur.toNat + 8)) = fmt8) {c : Nat} (hc : c < rowSize fmt8) :
    palCell (s.loadedAt code).pal 0 c =
      s.entryAt (s.cur.toNat + 12) (s.u16At (s.cur.toNat + 8)) (rowSize fmt8) 0 c := by
  subst hf8
  obtain ⟨hcw, _, hch, _⟩ := hl
  have hrows : 0 < s.rowsAsked s.cur.toNat := by unfold State.rowsAsked; split <;> omega
  rw [State.loadedAt_pal]
  exact palCell_of_cellAt (cellAt_rows_loadedTable s _ _ _ hcw hrows hc)

/-- Holding a load is a matter of PALDIM and the table alone. -/
theorem State.holdsPalette.congr {s t u : State} {q : Nat} {fmt8 : Bool} (h : s.holdsPalette t q fmt8)
    (hdim : u.paldim = t.paldim) (hpal : u.pal = t.pal) : s.holdsPalette u q fmt8 := by
  simp only [State.holdsPalette, State.holdsPalDim, hdim, hpal]
  exact h

/-- Each row with a palette block whose image header passes and whose pixels lie in the stream: its palette is
loaded and its texture answered, with CUR just past the pixels (rules R167 to R182). -/
theorem exec_paletteRow_texture (s : State) (code : PixelFormat) (hi : BitVec 28) {fmt8 : Bool}
    (hf8 : rowsOf256 code (s.u16At (s.cur.toNat + 8)) = fmt8) (hl : s.clutLegal s.cur.toNat)
    (hpass : s.ImagePasses (formatOfRows fmt8) (s.imageAfter s.cur.toNat))
    (hfits : s.ImageFits (formatOfRows fmt8) (s.imageAfter s.cur.toNat)) :
    exec (paletteRow code hi) s =
      .next (((s.loadedAt code).setCur (s.cur + BitVec.ofNat 64
        (12 + 2 * s.u16At (s.cur.toNat + 8) * s.u16At (s.cur.toNat + 10) + 12 +
          s.palettedRowBytes fmt8 (s.u16At (s.imageAfter s.cur.toNat + 8)) *
            s.u16At (s.imageAfter s.cur.toNat + 10)))).ok
        (.texture ((s.loadedAt code).textureAt (formatOfRows fmt8) (s.imageAfter s.cur.toNat)))) := by
  subst hf8
  have hrows := rowsAsked_le_imageAfter s hl
  have hin : s.imageAfter s.cur.toNat + 12 ≤ s.slen.toNat := by
    obtain ⟨h, _⟩ := hfits
    omega
  have hcur := s.loadedAt_cur code hl (by omega)
  rw [exec_paletteRow_loaded s code hi hl (by omega) fun _ => by omega,
    readImage_texture _ _ _ _ (by rw [hcur]; exact hpass.loadedAt code)
      (by rw [hcur]; exact hfits.loadedAt code), hcur,
    s.loadedAt_cur_eq code, add_ofNat_add, State.loadedAt_params, State.loadedAt_u16At,
    State.loadedAt_u16At, rowBytes_formatOfRows, ← Nat.add_assoc]

/-- Settles O58: the row loads its palette, and each pixel finds its entry in row 0 of the load. -/
theorem palettedRowsDecode : Obligations.PalettedRowsDecode := by
  intro s hi i code hmem q cw ch fmt8 size qi st h w rowLen hl hst hh hw hx hy hin htol
  obtain rfl : i = paletteRow code hi := by
    simp only [List.mem_cons, Prod.mk.injEq, List.not_mem_nil, or_false] at hmem
    rcases hmem with ⟨rfl, rfl⟩ | ⟨rfl, rfl⟩ | ⟨rfl, rfl⟩ | ⟨rfl, rfl⟩ <;> rfl
  have hwidth : pixelWidth (formatOfRows fmt8) st = w := pixelWidth_formatOfRows fmt8 st
  have hw0 : w ≠ 0 := by simp only [w]; split <;> omega
  have hpass : s.ImagePasses (formatOfRows fmt8) qi :=
    ⟨hst, hh, by cases fmt8 <;> nofun, by rw [hwidth]; exact State.admitsWidth_of_ne_zero hw0 hw, hx, hy⟩
  have hexec := exec_paletteRow_texture s code hi rfl hl hpass (imageFits_formatOfRows hin htol)
  obtain ⟨hbpp, hidx, hmask⟩ := formatOfRows_fields fmt8
  refine ⟨_, (s.loadedAt code).textureAt (formatOfRows fmt8) qi, hexec, ?frame, ?load, rfl, hbpp, ?width,
    State.textureAt_height _ _ _, ?clut, wellFormed_of_exec_ok hexec, ?place, fun j k hj hk => ?pixel⟩
  case frame => rfl
  case width => exact (State.textureAt_width _ _ _).trans hwidth
  case load => exact (s.holdsPalette_loadedAt code hl).congr rfl rfl
  case place => exact hbpp ▸ State.placedAt_textureAt _ _ _
  case clut => rw [State.textureAt_clutIndex, hidx, if_pos rfl]
  case pixel =>
    intro a idx e
    obtain ⟨hcolor, rows, hrows, hflag⟩ :=
      (s.loadedAt code).cellAt_textureAt (formatOfRows fmt8) qi k hj hmask
    obtain ⟨ecolor, eflag⟩ := rowAt_formatOfRows (s.loadedAt code) fmt8 st a k (hwidth.symm ▸ hk)
    have hentry : palCell (s.loadedAt code).pal 0 ((s.loadedAt code).indexAt fmt8 a k) = e :=
      palCell_loadedAt s code hl rfl (s.indexAt_lt fmt8 a k)
    rw [hentry] at ecolor eflag
    rw [State.imageRowAt, State.loadedAt_params, State.loadedAt_u16At, rowBytes_formatOfRows] at hcolor hflag
    exact ⟨hcolor.trans ecolor, rows, hrows, hflag.trans eflag⟩

end Sys2Proof.Machine

/-! SUPPORT. What the commands and rows that read the stream leave alone (rules R184, R185, R309): one lemma per
operation, then per command. -/

namespace Sys2Proof.Machine

/-- The part of the state that no reader of the stream changes: CUR, the outcome, PALDIM, the palette table and
the draw counter are left out. -/
def State.untouched (s : State) : State :=
  { s with cur := 0, status := 0, response := none, paldim := 0, pal := Palette.initial, draws := 0 }

/-- States with the same untouched part differ in what a reader of the stream changes alone. -/
theorem State.eq_of_untouched {s t : State} (h : t.untouched = s.untouched) :
    t = { s with
      cur := t.cur, status := t.status, response := t.response, paldim := t.paldim, pal := t.pal,
      draws := t.draws } :=
  calc t = { t.untouched with
        cur := t.cur, status := t.status, response := t.response, paldim := t.paldim, pal := t.pal,
        draws := t.draws } := rfl
    _ = { s.untouched with
        cur := t.cur, status := t.status, response := t.response, paldim := t.paldim, pal := t.pal,
        draws := t.draws } := by rw [h]

section
variable (s : State)

/-! ### The operations of a decoder -/

@[simp] theorem State.finish_untouched (c : Code) (r : Reason) (x : Result) :
    (s.finish c r x).untouched = s.untouched := rfl
@[simp] theorem State.ok_untouched (x : Result) : (s.ok x).untouched = s.untouched := rfl
@[simp] theorem State.illegal_untouched (r : Reason) : (s.illegal r).untouched = s.untouched := rfl
@[simp] theorem State.setCur_untouched (c : U64) : (s.setCur c).untouched = s.untouched := rfl
@[simp] theorem State.anyCur_untouched (lo hi : Nat) : (s.anyCur lo hi).untouched = s.untouched := rfl
@[simp] theorem State.setPalDim_untouched (dx dy w h : U16) :
    (s.setPalDim dx dy w h).untouched = s.untouched := rfl
@[simp] theorem State.setPal_untouched (p : Palette) : (s.setPal p).untouched = s.untouched := rfl

@[simp] theorem endCandidate_untouched (p0 : Nat) (reached : U64) (ldecl : Nat) (code : Code) (r : Reason) :
    (endCandidate s p0 reached ldecl code r).untouched = s.untouched := rfl

@[simp] theorem rejectCandidate_untouched (p0 : Nat) (reached : U64) (ldecl : Nat) (r : Reason) :
    (rejectCandidate s p0 reached ldecl r).untouched = s.untouched := rfl

@[simp] theorem streamEnded_untouched (p0 : Nat) (reached : U64) (ldecl : Nat) (r : Reason) :
    (streamEnded s p0 reached ldecl r).untouched = s.untouched := by
  rw [streamEnded_eq, endCandidate_untouched]

/-- A palette load, done or cut short. -/
theorem untouched_of_paletteLoad {s s' : State} {fmt8 : Bool} {cw ch : Nat} {first : Bool}
    (h : paletteLoad s fmt8 cw ch first = .done s' ∨ paletteLoad s fmt8 cw ch first = .eos s') :
    s'.untouched = s.untouched := by
  obtain ⟨ws, c, _, _, e⟩ | ⟨c, e⟩ := paletteLoad_cases s fmt8 cw ch first
  · obtain rfl : _ = s' := by simpa [e] using h
    rw [State.setCur_untouched, State.setPal_untouched]
  · obtain rfl : _ = s' := by simpa [e] using h
    rw [State.setCur_untouched, State.setPal_untouched]

/-! ### READ_PALETTE -/

theorem readPaletteRows_untouched (fmt8 first : Bool) (cw ch : Nat) :
    (readPaletteRows s fmt8 first cw ch).untouched = s.untouched := by
  unfold readPaletteRows
  split
  · simp
  · split
    · next s' hl => simp [untouched_of_paletteLoad (.inl hl)]
    · next s' hl => simp [untouched_of_paletteLoad (.inr hl)]

/-! ### The TIM decoder -/

theorem decodePixels_untouched (fmt : PixelFormat) (p0 ldecl : Nat) (hd : ImgHeader) :
    (decodePixels s fmt p0 ldecl hd).untouched = s.untouched := by
  simp only [decodePixels]
  split
  · simp
  · split <;> simp

theorem checkImage_untouched (fmt : PixelFormat) (p0 ldecl : Nat) (hd : ImgHeader) :
    (checkImage s fmt p0 ldecl hd).untouched = s.untouched := by
  simp only [checkImage]
  split_ifs <;> simp [decodePixels_untouched]

theorem readImage_untouched (fmt : PixelFormat) (p0 base : Nat) :
    (readImage s fmt p0 base).untouched = s.untouched := by
  unfold readImage
  split <;> simp [checkImage_untouched]

theorem loadPaletteBlock_untouched (code : PixelFormat) (p0 : Nat) (h : PalHeader) :
    (loadPaletteBlock s code p0 h).untouched = s.untouched := by
  simp only [loadPaletteBlock]
  split_ifs
  · simp
  · simp
  · simp
  · split
    · next s' hl => simp [readImage_untouched, untouched_of_paletteLoad (.inl hl)]
    · next s' hl => simp [untouched_of_paletteLoad (.inr hl)]

theorem readPaletteBlock_untouched (code : PixelFormat) (p0 : Nat) :
    (readPaletteBlock s code p0).untouched = s.untouched := by
  unfold readPaletteBlock
  split <;> simp [loadPaletteBlock_untouched]

end

/-! ### Every reader of the stream -/

/-- Every state that an outcome goes on to has the untouched part of `s`. -/
def LeavesUntouched (s : State) (o : Out) : Prop := ∀ t, o = .next t → t.untouched = s.untouched

theorem leavesUntouched_next {s t : State} : LeavesUntouched s (.next t) ↔ t.untouched = s.untouched := by
  simp [LeavesUntouched]

section
variable (s : State)

theorem execReadPalette_leavesUntouched (m : BitVec 2) (first : Bool) (w h : U64) :
    LeavesUntouched s (execReadPalette m first w h s) := by
  apply leavesUntouched_next.2
  split_ifs <;> simp [readPaletteRows_untouched]

/-- The sixteen rows of the flags word (rule R103). -/
theorem runFlags_leavesUntouched (code : BitVec 4) (hi : BitVec 28) :
    LeavesUntouched s (runFlags code hi s) := by
  unfold runFlags
  split
  case h_1 | h_2 => exact leavesUntouched_next.2 (rejectCandidate_untouched s _ _ _ _)
  case h_3 | h_4 => exact leavesUntouched_next.2 (readImage_untouched s _ _ _)
  case h_9 | h_10 | h_11 | h_12 => exact leavesUntouched_next.2 (readPaletteBlock_untouched s _ _)
  all_goals exact leavesUntouched_next.2 (s.finish_untouched _ _ _)

theorem execDecodeTim_leavesUntouched : LeavesUntouched s (execDecodeTim s) := by
  unfold execDecodeTim
  split
  · obtain ⟨w, c, h⟩ | ⟨c, h⟩ | ⟨c, r, _, h⟩ := readHeader_cases s
    · rw [h]; exact runFlags_leavesUntouched (s.setCur c) _ _
    · rw [h]; exact leavesUntouched_next.2 (streamEnded_untouched s _ _ _ _)
    · rw [h]; exact leavesUntouched_next.2 (rejectCandidate_untouched s _ _ _ _)
  · exact leavesUntouched_next.2 (s.illegal_untouched _)

/-- Every command and every row that reads the stream (rules R140, R160, R184). -/
theorem exec_leavesUntouched {i : Instr} (hi : readsStream i = true) : LeavesUntouched s (exec i s) := by
  cases i with
  | decodeTim => exact execDecodeTim_leavesUntouched s
  | readPalette m first w h => exact execReadPalette_leavesUntouched s m first w h
  | timIndexed4 | timIndexed8 => exact leavesUntouched_next.2 (rejectCandidate_untouched s _ _ _ _)
  | timDirect16 | timDirect24 => exact leavesUntouched_next.2 (readImage_untouched s _ _ _)
  | timIndexed4Pal | timIndexed8Pal | timDirect16Pal | timDirect24Pal =>
    exact leavesUntouched_next.2 (readPaletteBlock_untouched s _ _)
  | timMixed | timInvalid5 | timInvalid6 | timInvalid7 | timMixedPal | timInvalid5Pal | timInvalid6Pal
  | timInvalid7Pal => exact leavesUntouched_next.2 (s.finish_untouched _ _ _)
  | setup | getModeFromClut | draw | clear | clearAll | updatePage | updateAllPages | isUsed | containsPage
  | clampPage | clampCoord | exportPageColor | exportPageStp | exportTextureGrid | exportPageTiled
  | readReg | writeReg => cases hi

end

/-- Settles O59: every operation of a reader of the stream keeps the rest of the state. -/
theorem decodersTouchNoPage : Obligations.DecodersTouchNoPage :=
  fun _ s t hi h => State.eq_of_untouched (exec_leavesUntouched s hi t h)

end Sys2Proof.Machine

/-! SUPPORT. What DECODE_TIM depends on (rule R185): two runs from states with the same inputs give the same
answer, operation by operation. The palette table counts only through the load of the container itself. -/

namespace Sys2Proof.Machine

/-! ### Inputs and answers -/

/-- Two states hold the same inputs of DECODE_TIM (rule R185). -/
structure SameInputs (s u : State) : Prop where
  stream : s.stream = u.stream
  slen : s.slen = u.slen
  cur : s.cur = u.cur
  cfg : s.cfg = u.cfg
  maxres : s.maxres = u.maxres
  params : s.params = u.params

/-- Two commands ended with the same answer: the outcome, the result and, where the spec fixes it, CUR (rules
R166, R182, R183). -/
def SameAnswer (s' u' : State) : Prop :=
  s'.response = u'.response ∧ s'.status = u'.status ∧
    ∀ r, s'.response = some r → r.code = .ok ∨ r.reason = .formatCodeInvalid → s'.cur = u'.cur

/-- Two outcomes go on to the same answer. -/
def SameAnswers (o o' : Out) : Prop := ∀ s' u', o = .next s' → o' = .next u' → SameAnswer s' u'

theorem sameAnswers_next {s' u' : State} (h : SameAnswer s' u') : SameAnswers (.next s') (.next u') := by
  intro s'' u'' hs hu
  cases hs
  cases hu
  exact h

section
variable {s u : State} (h : SameInputs s u)
include h

theorem SameInputs.tolerant_eq : s.tolerant = u.tolerant := by rw [State.tolerant, State.tolerant, h.cfg]
theorem SameInputs.ignoreVersion_eq : s.ignoreVersion = u.ignoreVersion := by
  rw [State.ignoreVersion, State.ignoreVersion, h.cfg]
theorem SameInputs.firstRowOnly_eq : s.firstRowOnly = u.firstRowOnly := by
  rw [State.firstRowOnly, State.firstRowOnly, h.cfg]

theorem SameInputs.setCur (c : U64) : SameInputs (s.setCur c) (u.setCur c) :=
  ⟨h.stream, h.slen, rfl, h.cfg, h.maxres, h.params⟩

theorem SameInputs.setPalDim (dx dy w ht : U16) :
    SameInputs (s.setPalDim dx dy w ht) (u.setPalDim dx dy w ht) :=
  ⟨h.stream, h.slen, h.cur, h.cfg, h.maxres, h.params⟩

theorem SameInputs.setPal (p q : Palette) : SameInputs (s.setPal p) (u.setPal q) :=
  ⟨h.stream, h.slen, h.cur, h.cfg, h.maxres, h.params⟩

end

/-! ### Ends of a candidate -/

/-- An outcome that fixes CUR, from states with the same CUR. -/
theorem sameAnswer_finish {s u : State} (h : s.cur = u.cur) (c : Code) (r : Reason) (x : Result) :
    SameAnswer (s.finish c r x) (u.finish c r x) :=
  ⟨rfl, rfl, fun _ _ _ => h⟩

/-- An outcome without result leaves CUR free, but for the fast reject (rules R166, R183). -/
theorem sameAnswer_finish_free (s u : State) {c : Code} {r : Reason} (hc : c ≠ .ok)
    (hr : r ≠ .formatCodeInvalid) (x : Result) : SameAnswer (s.finish c r x) (u.finish c r x) := by
  refine ⟨rfl, rfl, fun q hq hfix => ?_⟩
  obtain rfl := Option.some.inj hq
  exact (hfix.elim hc hr).elim

theorem sameAnswer_endCandidate (s u : State) (p0 p0' : Nat) (c c' : U64) (l l' : Nat) {code : Code}
    {r : Reason} (hc : code ≠ .ok) (hr : r ≠ .formatCodeInvalid) :
    SameAnswer (endCandidate s p0 c l code r) (endCandidate u p0' c' l' code r) :=
  sameAnswer_finish_free _ _ hc hr _

theorem sameAnswer_rejectCandidate (s u : State) (p0 p0' : Nat) (c c' : U64) (l l' : Nat) {r : Reason}
    (hr : r ≠ .formatCodeInvalid) :
    SameAnswer (rejectCandidate s p0 c l r) (rejectCandidate u p0' c' l' r) :=
  sameAnswer_endCandidate _ _ _ _ _ _ _ _ (by decide) hr

/-- The end of the stream, in the mode that both states have (rule R73). -/
theorem sameAnswer_streamEnded {s u : State} (h : s.tolerant = u.tolerant) (p0 p0' : Nat) (c c' : U64)
    (l l' : Nat) {r : Reason} (hr : r ≠ .formatCodeInvalid) :
    SameAnswer (streamEnded s p0 c l r) (streamEnded u p0' c' l' r) := by
  rw [streamEnded_eq, streamEnded_eq, h]
  exact sameAnswer_endCandidate _ _ _ _ _ _ _ _ (by split <;> decide) (by split <;> simp [hr])

/-! ### The pixels -/

/-- Two palettes have the same entries in row 0, as far as an index of this format reaches (rule R180). -/
def SameRow0 (fmt8 : Bool) (p q : Palette) : Prop := ∀ i, i < rowSize fmt8 → palCell p 0 i = palCell q 0 i

/-- Two states give a format the same palette, if it needs one. -/
def SamePalette (fmt : PixelFormat) (s u : State) : Prop :=
  isIndexed fmt = true → SameRow0 (fmt == .indexed8) s.pal u.pal

theorem samePalette_of_direct {fmt : PixelFormat} {s u : State} (hf : isIndexed fmt = false) :
    SamePalette fmt s u := fun h => by
  rw [hf] at h
  cases h

theorem SamePalette.setCur {fmt : PixelFormat} {s u : State} (h : SamePalette fmt s u) (c : U64) :
    SamePalette fmt (s.setCur c) (u.setCur c) := h

/-- A row of indices that row 0 has. -/
theorem indexedRow_congr {fmt8 : Bool} {p q : Palette} (h : SameRow0 fmt8 p q) (src : IndexedMaskSource)
    {idxs : List Byte} (hi : ∀ i ∈ idxs, i.toNat < rowSize fmt8) :
    indexedRow src p idxs = indexedRow src q idxs := by
  simp only [indexedRow, PixelRow.mk.injEq]
  exact ⟨List.map_congr_left fun i him => by rw [h _ (hi i him)],
    List.map_congr_left fun i him => by rw [h _ (hi i him)]⟩

/-- The indices of the bytes of an Indexed4 row are 4-bit indices (rule R110). -/
theorem toNat_lt_of_mem_flatMap_nibbles {bs : List Byte} :
    ∀ i ∈ bs.flatMap nibbles, i.toNat < rowSize false := by
  intro i hi
  obtain ⟨b, _, hb⟩ := List.mem_flatMap.1 hi
  exact toNat_lt_of_mem_nibbles hb

section
variable {s u : State} (h : SameInputs s u)
include h

theorem readRow_congr {fmt : PixelFormat} (hp : SamePalette fmt s u) (w : Nat) :
    readRow s fmt w = readRow u fmt w := by
  cases fmt with
  | indexed4 =>
    have hrow : (fun bs : List Byte => indexedRow u.params.indexedMaskSource s.pal (bs.flatMap nibbles)) =
        fun bs => indexedRow u.params.indexedMaskSource u.pal (bs.flatMap nibbles) :=
      funext fun bs => indexedRow_congr (hp rfl) _ toNat_lt_of_mem_flatMap_nibbles
    simp only [readRow, h.stream, h.slen, h.params, hrow]
  | indexed8 =>
    have hrow : indexedRow u.params.indexedMaskSource s.pal =
        indexedRow u.params.indexedMaskSource u.pal :=
      funext fun bs => indexedRow_congr (hp rfl) _ fun i _ => i.isLt
    simp only [readRow, h.stream, h.slen, h.params, hrow]
  | direct16 | direct24 => simp only [readRow, h.stream, h.slen]

theorem unpack_congr {fmt : PixelFormat} (hp : SamePalette fmt s u) (w ht rowLen : Nat) :
    unpack s fmt w ht rowLen = unpack u fmt w ht rowLen := by
  have hrow : unpackRow s fmt w rowLen = unpackRow u fmt w rowLen :=
    funext fun c => by simp only [unpackRow, readRow_congr h hp]
  rw [unpack, unpack, hrow]

theorem decodePixels_sameAnswer {fmt : PixelFormat} (hp : SamePalette fmt s u) (p0 ldecl : Nat)
    (hd : ImgHeader) : SameAnswer (decodePixels s fmt p0 ldecl hd) (decodePixels u fmt p0 ldecl hd) := by
  simp only [decodePixels, h.tolerant_eq, h.slen, h.cur, h.params, unpack_congr h hp]
  split
  · exact sameAnswer_endCandidate _ _ _ _ _ _ _ _ (by decide) (by decide)
  · split
    · exact sameAnswer_finish rfl _ _ _
    · exact sameAnswer_streamEnded h.tolerant_eq _ _ _ _ _ _ (by decide)

theorem checkImage_sameAnswer {fmt : PixelFormat} (hp : SamePalette fmt s u) (p0 ldecl : Nat)
    (hd : ImgHeader) : SameAnswer (checkImage s fmt p0 ldecl hd) (checkImage u fmt p0 ldecl hd) := by
  simp only [checkImage, h.cur, h.params, h.maxres]
  split_ifs
  case neg => exact decodePixels_sameAnswer h hp p0 ldecl hd
  all_goals exact sameAnswer_endCandidate _ _ _ _ _ _ _ _ (by decide) (by decide)

/-- An image, after the palette it needs (rules R173 to R182). -/
theorem readImage_sameAnswer {fmt : PixelFormat} (hp : SamePalette fmt s u) (p0 base : Nat) :
    SameAnswer (readImage s fmt p0 base) (readImage u fmt p0 base) := by
  simp only [readImage, h.stream, h.slen, h.cur, h.params]
  split
  · exact sameAnswer_streamEnded h.tolerant_eq _ _ _ _ _ _ (by decide)
  · next hd c _ => exact checkImage_sameAnswer (h.setCur c) (hp.setCur c) p0 _ hd

end

/-! ### The palette load -/

/-- A cell that is defined depends on the rows alone (rule R42). -/
theorem palCell_congr {p q : Palette} (h : p.rows = q.rows) {r c : Nat} {e : PalEntry}
    (he : cellAt p.rows r c = some e) : palCell p r c = palCell q r c :=
  (palCell_of_cellAt he).trans (palCell_of_cellAt (h ▸ he)).symm

/-- Two loads of the same rows, at least one, define row 0 alike (rules R42, R134). -/
theorem sameRow0_loadedPalette (p q : Palette) (x : UnreadEntry) (fmt8 : Bool) (cw : Nat)
    (ws : List (List U16)) (epoch epoch' : Nat) (h1 : 1 ≤ ws.length) (hw : ∀ w ∈ ws, w.length = cw) :
    SameRow0 fmt8 (loadedPalette p x fmt8 cw ws epoch) (loadedPalette q x fmt8 cw ws epoch') := by
  intro i hi
  obtain ⟨hlen, hrows⟩ := dims_rows_loadedPalette p x fmt8 cw ws epoch hw
  have h0 : 0 < (loadedPalette p x fmt8 cw ws epoch).rows.length := by omega
  have hi' : i < (loadedPalette p x fmt8 cw ws epoch).rows[0].length := by
    rw [hrows _ (List.getElem_mem h0)]
    exact hi
  have he : cellAt (loadedPalette p x fmt8 cw ws epoch).rows 0 i =
      some (loadedPalette p x fmt8 cw ws epoch).rows[0][i] := by
    simp only [cellAt, List.getElem?_eq_getElem h0, List.getElem?_eq_getElem hi']
  have hsame : (loadedPalette p x fmt8 cw ws epoch).rows = (loadedPalette q x fmt8 cw ws epoch').rows := rfl
  exact palCell_congr hsame he

section
variable {s u : State} (h : SameInputs s u)
include h

/-- Both loads complete with the same row 0, or both meet the end of the stream (rules R134 to R139). -/
theorem paletteLoad_sameInputs (fmt8 : Bool) (cw ch : Nat) (first : Bool) (hch : clutDimOk ch = true) :
    (∃ s' u', paletteLoad s fmt8 cw ch first = .done s' ∧ paletteLoad u fmt8 cw ch first = .done u' ∧
      SameInputs s' u' ∧ SameRow0 fmt8 s'.pal u'.pal) ∨
    ∃ s' u', paletteLoad s fmt8 cw ch first = .eos s' ∧ paletteLoad u fmt8 cw ch first = .eos u' ∧
      SameInputs s' u' := by
  have hn : 1 ≤ rowsDecoded first ch := by
    have := (clutDimOk_iff ch).1 hch
    unfold rowsDecoded
    split <;> omega
  simp only [paletteLoad, h.stream, h.slen, h.cur, h.params]
  cases e : readRows u.stream u.slen.toNat cw (rowsDecoded first ch) u.cur with
  | eos c => exact .inr ⟨_, _, rfl, rfl, (h.setPal _ _).setCur c⟩
  | ok ws c =>
    have hl : ws.length = rowsDecoded first ch := length_readMany _ _ _ _ e
    have hw : ∀ w ∈ ws, w.length = cw :=
      mem_readMany (fun w => w.length = cw) (fun _ _ _ hr => length_readMany _ _ _ _ hr) _ _ _ _ e
    exact .inl ⟨_, _, rfl, rfl, (h.setPal _ _).setCur _,
      sameRow0_loadedPalette _ _ _ fmt8 cw ws _ _ (by omega) hw⟩

theorem loadPaletteBlock_sameAnswer (code : PixelFormat) (p0 : Nat) (hd : PalHeader) :
    SameAnswer (loadPaletteBlock s code p0 hd) (loadPaletteBlock u code p0 hd) := by
  simp only [loadPaletteBlock, h.cur, h.tolerant_eq, h.slen, h.firstRowOnly_eq]
  split_ifs with hw hh
  · exact sameAnswer_rejectCandidate _ _ _ _ _ _ _ _ (by decide)
  · exact sameAnswer_rejectCandidate _ _ _ _ _ _ _ _ (by decide)
  · exact sameAnswer_endCandidate _ _ _ _ _ _ _ _ (by decide) (by decide)
  · obtain ⟨s', u', es, eu, h', hrow⟩ | ⟨s', u', es, eu, h'⟩ :=
      paletteLoad_sameInputs (h.setPalDim hd.dx hd.dy hd.w hd.h)
        (formatWithPalette code hd.w.toNat == .indexed8) hd.w.toNat hd.h.toNat u.firstRowOnly (by simpa using hh)
    · rw [es, eu]
      exact readImage_sameAnswer h' (fun _ => hrow) p0 _
    · rw [es, eu]
      exact sameAnswer_streamEnded h'.tolerant_eq _ _ _ _ _ _ (by decide)

theorem readPaletteBlock_sameAnswer (code : PixelFormat) (p0 : Nat) :
    SameAnswer (readPaletteBlock s code p0) (readPaletteBlock u code p0) := by
  simp only [readPaletteBlock, h.stream, h.slen, h.cur]
  split
  · exact sameAnswer_streamEnded h.tolerant_eq _ _ _ _ _ _ (by decide)
  · exact loadPaletteBlock_sameAnswer (h.setCur _) code p0 _

/-! ### DECODE_TIM -/

/-- The sixteen rows of the flags word (rule R103). -/
theorem runFlags_sameAnswers (code : BitVec 4) (hi : BitVec 28) :
    SameAnswers (runFlags code hi s) (runFlags code hi u) := by
  have hp0 : candidateOf s = candidateOf u := by rw [candidateOf, candidateOf, h.cur]
  unfold runFlags
  split
  case h_1 | h_2 => exact sameAnswers_next (sameAnswer_rejectCandidate _ _ _ _ _ _ _ _ (by decide))
  case h_3 | h_4 =>
    refine sameAnswers_next ?_
    rw [hp0]
    exact readImage_sameAnswer h (samePalette_of_direct rfl) _ _
  case h_9 | h_10 | h_11 | h_12 =>
    refine sameAnswers_next ?_
    rw [hp0]
    exact readPaletteBlock_sameAnswer h _ _
  all_goals exact sameAnswers_next (sameAnswer_finish h.cur _ _ _)

/-- Both headers give the same flags word, with the same inputs after it, or both end the candidate (rules R162
to R165). -/
theorem readHeader_sameInputs :
    (∃ w s' u', readHeader s = .flags w s' ∧ readHeader u = .flags w u' ∧ SameInputs s' u') ∨
      ∃ s' u', readHeader s = .ended s' ∧ readHeader u = .ended u' ∧ SameAnswer s' u' := by
  have past : ∀ c : U64, SameAnswer (streamEnded s u.cur.toNat c 8 .headerTruncated)
      (streamEnded u u.cur.toNat c 8 .headerTruncated) := fun c =>
    sameAnswer_streamEnded h.tolerant_eq _ _ _ _ _ _ (by decide)
  simp only [readHeader, h.stream, h.slen, h.cur]
  split
  · exact .inr ⟨_, _, rfl, rfl, past _⟩
  split
  · exact .inr ⟨_, _, rfl, rfl, sameAnswer_rejectCandidate _ _ _ _ _ _ _ _ (by decide)⟩
  simp only [readVersion, h.stream, h.slen, h.ignoreVersion_eq]
  split
  · exact .inr ⟨_, _, rfl, rfl, past _⟩
  split
  · exact .inr ⟨_, _, rfl, rfl, sameAnswer_rejectCandidate _ _ _ _ _ _ _ _ (by decide)⟩
  simp only [readFlags, h.stream, h.slen]
  split
  · exact .inr ⟨_, _, rfl, rfl, past _⟩
  · exact .inl ⟨_, _, _, rfl, rfl, h.setCur _⟩

/-- DECODE_TIM from the same inputs and written bits (rule R185). -/
theorem execDecodeTim_sameAnswers (hc : s.curWritten = u.curWritten)
    (hm : s.maxresWritten = u.maxresWritten) : SameAnswers (execDecodeTim s) (execDecodeTim u) := by
  simp only [execDecodeTim, hc, hm]
  split
  · obtain ⟨w, s', u', es, eu, h'⟩ | ⟨s', u', es, eu, h'⟩ := readHeader_sameInputs h
    · rw [es, eu]
      exact runFlags_sameAnswers h' _ _
    · rw [es, eu]
      exact sameAnswers_next h'
  · exact sameAnswers_next (sameAnswer_finish h.cur _ _ _)

end

/-- Settles O60: the two runs take the same branches, and differ in nothing that the answer shows. -/
theorem decodeTimIsIndependent : Obligations.DecodeTimIsIndependent :=
  fun _ _ s' u' hstream hslen hcur hcw hcfg hmax hmw hpar hs hu =>
    execDecodeTim_sameAnswers ⟨hstream, hslen, hcur, hcfg, hmax, hpar⟩ hcw hmw s' u' hs hu

end Sys2Proof.Machine

/-! SUPPORT. The rows of Direct16 and Direct24 (rules R173 to R182, R204, R205): an image whose pixels lie in
the stream, decoded pixel by pixel. -/

namespace Sys2Proof.Machine

/-- Settles O54: the row of Direct16 answers the texture of the header at CUR, and its width and height give
the length that CUR moves by. -/
theorem direct16RowDecodes : Obligations.Direct16RowDecodes := by
  intro s hi hfits
  have hexec := exec_timDirect16_texture s hi hfits
  refine ⟨_, isDirect16Texture_textureAt s s.cur.toNat (wellFormed_of_exec_ok hexec), hexec.trans ?_⟩
  rw [State.textureAt_width, State.textureAt_height, (pixelWidth_direct _).1]
  rfl

/-- The pixels of a Direct24 image lie in the stream, in the words of the statements (rules R112, R206). -/
theorem imageFits_direct24 {s : State} {a : Nat}
    (hin : a + 12 + 2 * s.u16At (a + 8) * (s.u16At (a + 10) - 1) + 3 * (2 * s.u16At (a + 8) / 3) ≤
      s.slen.toNat)
    (ht : s.tolerant = true → a + 12 + 2 * s.u16At (a + 8) * s.u16At (a + 10) ≤ s.slen.toNat) :
    s.ImageFits .direct24 a := by
  simp only [State.ImageFits, State.pixelsInside, rowBytes, usedBytes, (pixelWidth_direct _).2]
  exact ⟨by rwa [Nat.mul_comm (s.u16At (a + 10) - 1), Nat.mul_comm _ 3], ht⟩

/-- Every pixel of a Direct24 texture is opaque, its colour the three bytes of its place (rules R112, R205). -/
theorem cellAt_textureAt_direct24 (s : State) (a : Nat) {j i : Nat} (hj : j < s.u16At (a + 10))
    (hi : i < 2 * s.u16At (a + 8) / 3) :
    let b := a + 12 + j * (2 * s.u16At (a + 8)) + 3 * i
    cellAt (s.textureAt .direct24 a).color j i =
      some ⟨255, s.u8At b, s.u8At (b + 1), s.u8At (b + 2)⟩ := by
  have hrow := (cellAt_decodedTexture .direct24 (s.imgHeaderAt a) (s.u16At (a + 10))
    (s.imageRowAt .direct24 a) j i hj).1
  rw [State.imageRowAt, (pixelWidth_direct _).2] at hrow
  exact hrow.trans (rowAt_direct24 s _ (a + 12 + j * (2 * s.u16At (a + 8))) i hi)

/-- Settles O57: the header passes its checks, and the row of Direct24 answers its texture. -/
theorem direct24RowDecodes : Obligations.Direct24RowDecodes := by
  intro s hi q st h hst hh hw hz hx hy hin ht
  have hwidth : pixelWidth .direct24 st = 2 * st / 3 := (pixelWidth_direct st).2
  have hzero : pixelWidth .direct24 st ≠ 0 ∨ s.params.zeroWidthD24 = .emptyTexture :=
    hz.imp_left fun h1 => by rw [hwidth]; omega
  have hpass : s.ImagePasses .direct24 q :=
    ⟨hst, hh, fun _ => hzero, hwidth.symm ▸ hw, hx, hy⟩
  have hexec : exec (.timDirect24 hi) s =
      .next ((s.setCur (s.cur + BitVec.ofNat 64 (12 + 2 * st * h))).ok
        (.texture (s.textureAt .direct24 q))) := by
    rw [(exec_directRow s hi).2, readImage_texture s .direct24 _ _ hpass (imageFits_direct24 hin ht)]
    rfl
  exact ⟨_, hexec, rfl, rfl, (s.textureAt_width .direct24 q).trans hwidth, s.textureAt_height .direct24 q,
    rfl, rfl, wellFormed_of_exec_ok hexec, s.placedAt_textureAt .direct24 q,
    fun j i hj hi => cellAt_textureAt_direct24 s q hj hi⟩

end Sys2Proof.Machine

/-! SUPPORT. The page store (spec/43_page_store.md): what each of its commands makes of a store that is set
up, and the answers of the helpers. -/

namespace Sys2Proof.Machine

/-! ### With and without a store -/

/-- A page command into a store that is set up runs its body (rule R231). -/
theorem next_whenSetUp_ready {s : State} (h : s.pagesReady = true) (b : State) :
    (.next (s.whenSetUp b) : Out) = .next b :=
  congrArg _ (s.whenSetUp_ready b h)

/-- A page command without a store is NOT_SETUP, whatever its body (rule R231). -/
theorem next_whenSetUp_not {s : State} (h : s.pagesReady = false) (b : State) :
    (.next (s.whenSetUp b) : Out) = .next (s.answers .illegalCommand .notSetup .none) :=
  congrArg _ (s.whenSetUp_not b h)

/-- READ_REG of PAGEFLAGS checks the store before it reads (rules R231, R290). -/
theorem exec_readReg_pageFlags_not {s : State} (h : s.pagesReady = false) :
    exec (.readReg 9) s = .next (s.answers .illegalCommand .notSetup .none) := by
  have hlow : ¬10 ≤ (9 : BitVec 5).toNat := by decide
  have hflags : (9 : BitVec 5).toNat = 9 ∧ s.pagesReady = false := ⟨rfl, h⟩
  rw [← illegal_eq_answers]
  simp only [exec, execReadReg, if_neg hlow, if_pos hflags]

/-- Outcomes with different responses are different. -/
theorem next_ne_of_response_ne {t u : State} (h : t.response ≠ u.response) :
    (.next t : Out) ≠ .next u :=
  fun e => h (congrArg State.response (Host.Outcome.next.inj e))

/-- EXPORT_TEXTURE_GRID answers OK or BAD_OPERAND (rule R272). -/
theorem exec_exportTextureGrid_cases (s : State) (cols : U64) (l : List Texture) :
    (∃ x, exec (.exportTextureGrid cols l) s = .next (s.ok x)) ∨
      exec (.exportTextureGrid cols l) s = .next (s.illegal .badOperand) := by
  simp only [exec, execExportTextureGrid]
  split_ifs
  · exact .inr rfl
  · exact .inl ⟨_, rfl⟩
  · exact .inr rfl

/-- Settles O17: the check of PAGES_READY stands before the body of each page command, and the helpers
answer OK or BAD_OPERAND. -/
theorem pageCommandsNeedSetup : Obligations.PageCommandsNeedSetup := by
  intro s h
  have hnot := next_whenSetUp_not h
  refine ⟨fun _ _ => hnot _, fun _ => hnot _, hnot _, fun _ _ => hnot _, fun _ => hnot _, fun _ => hnot _,
    fun _ => hnot _, fun _ => hnot _, fun _ _ _ _ _ _ _ _ => hnot _, exec_readReg_pageFlags_not h,
    fun v l i hi => ?_⟩
  have hok : ∀ x, (.next (s.ok x) : Out) ≠ .next (s.answers .illegalCommand .notSetup .none) :=
    fun x => next_ne_of_response_ne nofun
  simp only [List.mem_cons, List.not_mem_nil, or_false] at hi
  obtain rfl | rfl | rfl | rfl := hi
  · exact hok _
  · exact hok _
  · exact hok _
  · obtain ⟨x, e⟩ | e := exec_exportTextureGrid_cases s v l
    · exact e ▸ hok x
    · exact e ▸ next_ne_of_response_ne nofun

/-! ### Clearing -/

/-- A cleared page is unused, modified, and holds the background in every cell (rules R230, R247). -/
theorem clearedPage_background (bg : U32) (stp : Byte) :
    (clearedPage bg stp).used = false ∧ (clearedPage bg stp).modified = true ∧
      ∀ x y, x < 256 → y < 256 →
        argb32 (colorCell (clearedPage bg stp) x y) = bg ∧ stpCell (clearedPage bg stp) x y = stp := by
  refine ⟨rfl, rfl, fun x y hx hy => ⟨?_, stpCell_clearedPage bg stp hx hy⟩⟩
  rw [colorCell_clearedPage bg stp hx hy, argb32_colorOfArgb32]

/-- The page that the P field names has that number (rule R114). -/
theorem pageOf_eq {p : BitVec 5} {q : Fin 32} (h : q.val = p.toNat) : pageOf p = q := Fin.ext h.symm

theorem pageOf_ne {p : BitVec 5} {q : Fin 32} (h : q.val ≠ p.toNat) : pageOf p ≠ q :=
  fun e => h (congrArg Fin.val e.symm)

/-- The P field names every page. -/
theorem pageOf_surjective : Function.Surjective pageOf := fun q => ⟨.ofFin q, rfl⟩

theorem exec_setup (s : State) (hc : s.bgcolorWritten = true) (hs : s.bgstpWritten = true) :
    exec .setup s = .next ((clearPages s).setReady.ok .none) := by
  simp only [exec, execSetup, hc, hs, Bool.and_self, if_true]

theorem exec_setup_unwritten (s : State) (h : s.bgcolorWritten = false ∨ s.bgstpWritten = false) :
    exec .setup s = .next (s.illegal .uninitialized) := by
  have hw : (s.bgcolorWritten && s.bgstpWritten) = false := Bool.and_eq_false_iff.2 h
  simp only [exec, execSetup, hw, Bool.false_eq_true, if_false]

theorem exec_clear (s : State) (p : BitVec 5) (hr : s.pagesReady = true) :
    exec (.clear p) s = .next ((clearPage s (pageOf p)).ok .none) :=
  next_whenSetUp_ready hr _

theorem exec_clearAll (s : State) (hr : s.pagesReady = true) :
    exec .clearAll s = .next ((clearPages s).ok .none) :=
  next_whenSetUp_ready hr _

/-- Clearing the store replaces the page array alone, each page by the cleared page (rules R230, R238). -/
theorem clearPages_frame (s : State) :
    ∃ v, clearPages s = { s with pages := v } ∧ ∀ p : Fin 32, v[p] = clearedPage s.bgcolor s.bgstp :=
  ⟨_, clearPages_eq s, fun p => by simp⟩

/-- Settles O18: SETUP clears every page and then sets PAGES_READY. -/
theorem setupInitialisesEveryPage : Obligations.SetupInitialisesEveryPage := by
  refine fun s => ⟨fun hc hs => ?_, exec_setup_unwritten s⟩
  obtain ⟨v, e, hv⟩ := clearPages_frame s
  rw [exec_setup s hc hs, e]
  refine ⟨_, rfl, rfl, fun p => ?_⟩
  have hp : (({ s with pages := v } : State).setReady.ok .none).page p = clearedPage s.bgcolor s.bgstp :=
    hv p
  exact hp ▸ clearedPage_background s.bgcolor s.bgstp

/-- Settles O22: CLEAR replaces the page that P names by the cleared page. -/
theorem clearResetsOnePage : Obligations.ClearResetsOnePage := by
  refine fun s p hr => ⟨_, exec_clear s p hr, rfl, fun q => ⟨fun hne => ?_, fun heq => ?_⟩⟩
  · exact s.page_setPage_ne (pageOf p) q _ (pageOf_ne hne)
  · obtain rfl := pageOf_eq heq
    have hp : ((clearPage s (pageOf p)).ok .none).page (pageOf p) = clearedPage s.bgcolor s.bgstp :=
      s.page_setPage_self (pageOf p) _
    exact hp ▸ clearedPage_background s.bgcolor s.bgstp

/-- Clearing the pages of a list that holds every page, in whatever order and with repeats, clears the
store (rule R238). -/
theorem foldl_clearPage_all (s : State) {l : List (Fin 32)} (hl : ∀ p, p ∈ l) :
    l.foldl clearPage s = clearPages s := by
  obtain ⟨v, ev, hv⟩ := foldl_clearPage l s
  obtain ⟨w, ew, hw⟩ := clearPages_frame s
  have e : v = w := pages_ext fun p => by rw [hv p, if_pos (hl p), hw p]
  rw [ev, ew, e]

/-- CLEARs that start from an answered command clear their pages; each overwrites the answer of the one
before. -/
theorem runClears_ok (l : List (BitVec 5)) (s : State) (hr : s.pagesReady = true) :
    runClears l (s.ok .none) = .next (((l.map pageOf).foldl clearPage s).ok .none) := by
  induction l generalizing s with
  | nil => rfl
  | cons p l ih =>
    calc runClears (p :: l) (s.ok .none)
        = runClears l ((clearPage s (pageOf p)).ok .none) := by
          simp only [runClears, List.foldl_cons, exec_clear (s.ok .none) p hr]
          rfl
      _ = .next (((l.map pageOf).foldl clearPage (clearPage s (pageOf p))).ok .none) :=
          ih (clearPage s (pageOf p)) hr

/-- CLEARs of at least one page clear the pages of the list in order. -/
theorem runClears_cons (p : BitVec 5) (l : List (BitVec 5)) (s : State) (hr : s.pagesReady = true) :
    runClears (p :: l) s = .next ((((p :: l).map pageOf).foldl clearPage s).ok .none) := by
  have hfirst : runClears (p :: l) s = runClears l ((clearPage s (pageOf p)).ok .none) := by
    simp only [runClears, List.foldl_cons, exec_clear s p hr]
  exact hfirst.trans (runClears_ok l (clearPage s (pageOf p)) hr)

/-- Settles O23: a list that holds every page is not empty, and its CLEARs clear the store as CLEAR_ALL
does. -/
theorem clearAllIsEveryClear : Obligations.ClearAllIsEveryClear := by
  refine fun s hr => ⟨?_, fun l hl => ?_⟩
  · obtain ⟨v, e, hv⟩ := clearPages_frame s
    rw [exec_clearAll s hr, e]
    refine ⟨_, rfl, rfl, fun q => ?_⟩
    have hq : (({ s with pages := v } : State).ok .none).page q = clearedPage s.bgcolor s.bgstp := hv q
    exact hq ▸ clearedPage_background s.bgcolor s.bgstp
  · have hall : ∀ q, q ∈ l.map pageOf := fun q => by
      obtain ⟨p, rfl⟩ := pageOf_surjective q
      exact List.mem_map_of_mem (hl p)
    cases l with
    | nil => cases hl 0
    | cons p l => rw [runClears_cons p l s hr, foldl_clearPage_all s hall, exec_clearAll s hr]

/-! ### Drawing -/

/-- What DRAW makes of a colour cell: the covering pixel's colour, if one covers it (rules R233, R235). -/
theorem colorCell_drawTexture (par : Params) (suppress : Bool) {t : Texture} (ht : WellFormedTexture t)
    (pg : Page) {x y : Nat} (hx : x < 256) (hy : y < 256) :
    colorCell (drawTexture par suppress t pg) x y =
      drawnColor (colorCell pg x y) (coveringPixel t x y) := by
  have hshape := sameShape_of_dims ht.1 (dims_drawMask par.opaqueStp t ht)
  rw [colorCell, drawTexture, (markDraw_cells _ _ _).1]
  refine (colorCell_drawRows _ _ _ _ _ x y pg hshape hx hy).trans ?_
  by_cases hin : t.x ≤ x ∧ t.y ≤ y
  · rw [coveringPixel, if_pos hin, if_pos hin.symm]
  · rw [coveringPixel, if_neg hin, if_neg (hin ∘ And.symm)]
    rfl

/-- What DRAW makes of a side-band cell: the covering pixel's mask value, if one covers it (rules R234,
R235). -/
theorem stpCell_drawTexture (par : Params) (suppress : Bool) {t : Texture} (ht : WellFormedTexture t)
    (pg : Page) {x y : Nat} (hx : x < 256) (hy : y < 256) :
    stpCell (drawTexture par suppress t pg) x y =
      drawnStp par.maskWriteMode (stpCell pg x y) (coveringPixel t x y)
        (some (coveringMask par.opaqueStp t x y)) := by
  have hshape := sameShape_of_dims ht.1 (dims_drawMask par.opaqueStp t ht)
  rw [stpCell, drawTexture, (markDraw_cells _ _ _).2]
  refine (stpCell_drawRows _ _ _ _ _ x y pg hshape hx hy).trans ?_
  by_cases hin : t.x ≤ x ∧ t.y ≤ y
  · rw [coveringPixel, if_pos hin, if_pos hin.symm]
    have hsome := cellAt_isSome_of_sameShape hshape (y - t.y) (x - t.x)
    cases hc : cellAt t.color (y - t.y) (x - t.x) with
    | none => rfl
    | some c =>
      rw [hc] at hsome
      obtain ⟨m, hm⟩ := Option.isSome_iff_exists.1 hsome.symm
      rw [hm, cellAt_drawMask par.opaqueStp t x y m hm]
  · rw [coveringPixel, if_neg hin, if_neg (hin ∘ And.symm)]
    rfl

/-- The marks of a draw (rule R236). -/
theorem markDraw_flags (marks : DeferredDrawMarks) (suppress : Bool) (pg : Page) :
    (markDraw marks suppress pg).used =
        (if suppress = true ∧ marks = .markNeither then pg.used else true) ∧
      (markDraw marks suppress pg).modified =
        (if suppress = true ∧ marks ≠ .markBoth then pg.modified else true) := by
  cases suppress with
  | false => simp [markDraw]
  | true => cases marks <;> simp [markDraw]

/-- The flags of a page after DRAW are its marks alone (rules R232, R236). -/
theorem drawTexture_flags (par : Params) (suppress : Bool) (t : Texture) (pg : Page) :
    (drawTexture par suppress t pg).used =
        (if suppress = true ∧ par.deferredDrawMarks = .markNeither then pg.used else true) ∧
      (drawTexture par suppress t pg).modified =
        (if suppress = true ∧ par.deferredDrawMarks ≠ .markBoth then pg.modified else true) := by
  obtain ⟨hused, hmod⟩ :=
    drawRows_flags par.maskWriteMode t.color (drawMask par.opaqueStp t) t.x t.y pg
  rw [← hused, ← hmod]
  exact markDraw_flags par.deferredDrawMarks suppress _

/-- A well-formed texture's page is the one it names (rule R48). -/
theorem pageOfNat_val {t : Texture} (ht : WellFormedTexture t) : (pageOfNat t.page).val = t.page := by
  obtain ⟨_, _, hp, _⟩ := ht
  exact Nat.mod_eq_of_lt (by omega)

/-- Settles O19: DRAW replaces the texture's page by the drawn page, whose cells and flags the lemmas above
give. -/
theorem drawCompositesTheTexture : Obligations.DrawCompositesTheTexture := by
  intro s suppress tex hr ht
  refine ⟨_, exec_draw s suppress tex hr ht, rfl, fun p hne => ?_, fun p heq => ?_⟩
  · exact s.page_setPage_ne _ p _ fun e => hne (e ▸ pageOfNat_val ht)
  · obtain rfl : pageOfNat tex.page = p := Fin.ext ((pageOfNat_val ht).trans heq.symm)
    set drawn := drawTexture s.params suppress tex (s.page (pageOfNat tex.page)) with hdrawn
    have hpage : ((s.setPage (pageOfNat tex.page) drawn).ok .none).page (pageOfNat tex.page) = drawn :=
      s.page_setPage_self _ drawn
    rw [hpage]
    refine ⟨fun x y hx hy => ?_, drawTexture_flags s.params suppress tex _⟩
    rw [hdrawn, colorCell_drawTexture _ _ ht _ hx hy, stpCell_drawTexture _ _ ht _ hx hy]
    cases coveringPixel tex x y <;> exact ⟨rfl, rfl⟩

/-! ### Uploading -/

theorem exec_updatePage (s : State) (p : BitVec 5) (force : Bool) (hr : s.pagesReady = true) :
    exec (.updatePage p force) s =
      .next ((updatePage force s (pageOf p)).1.ok (.bit (updatePage force s (pageOf p)).2)) :=
  next_whenSetUp_ready hr _

theorem exec_updateAllPages (s : State) (force : Bool) (hr : s.pagesReady = true) :
    exec (.updateAllPages force) s =
      .next ((updatePages force allPages s).1.ok (.int (updatePages force allPages s).2)) :=
  next_whenSetUp_ready hr _

/-- Settles O24: the two cases of UPDATE_PAGE's body. -/
theorem updatePageUploads : Obligations.UpdatePageUploads := by
  intro s p force q hr hq
  obtain rfl := pageOf_eq hq
  rw [exec_updatePage s p force hr]
  obtain ⟨hsel, e⟩ | ⟨hclear, hclean, e⟩ := updatePage_cases force s (pageOf p)
  · rw [e]
    refine ⟨fun _ => ⟨_, rfl, rfl, ?_, fun o ho => ?_⟩, fun hf hm => ?_⟩
    · exact (s.upload (pageOf p)).page_setPage_self (pageOf p) _
    · exact (s.upload (pageOf p)).page_setPage_ne (pageOf p) o _ ho.symm
    · simp [hf, hm] at hsel
  · rw [e]
    exact ⟨fun hsel => by simp [hclear, hclean] at hsel, fun _ _ => rfl⟩

/-- A page is cleaned exactly when UPDATE_ALL_PAGES selects it (rule R240). -/
theorem cleaned_eq_ite (force : Bool) (s : State) (p : Fin 32) :
    cleaned force (s.page p) =
      if p ∈ uploadable force s allPages then { s.page p with modified := false } else s.page p := by
  have hmem : p ∈ uploadable force s allPages ↔ (force || (s.page p).modified) = true := by
    simp [uploadable, mem_allPages]
  simp only [cleaned, hmem]

/-- With force every page is selected. -/
theorem length_uploadable_force (s : State) : (uploadable true s allPages).length = 32 := by
  simp [uploadable, allPages]

/-- Settles O25: UPDATE_ALL_PAGES updates each page once, in ascending order. -/
theorem updateAllPagesInOrder : Obligations.UpdateAllPagesInOrder := by
  intro s force hr sel
  obtain ⟨v, e, hv⟩ := updatePages_eq force allPages nodup_allPages s
  rw [exec_updateAllPages s force hr, e]
  refine ⟨_, rfl, rfl, fun hf => ?_, fun p => ?_⟩
  · subst hf
    exact length_uploadable_force s
  · exact (hv p).trans ((if_pos (mem_allPages p)).trans (cleaned_eq_ite force s p))

/-! ### UPLOADS -/

/-- No operation removes an event from UPLOADS (rules R52, R312). -/
theorem Op.extends_uploads {s t : State} (op : Op s t) : s.uploads <+: t.uploads := by
  cases op with
  | takeMove | loadBytes | setCur | anyCur | setPalDim | load | cutShort | clear | draw | finish =>
    exact List.prefix_rfl
  | setReg r v => rw [State.setReg_uploads]
  | setup => rw [State.setReady_uploads, clearPages_eq]
  | update force p =>
    obtain ⟨_, e⟩ | ⟨_, _, e⟩ := updatePage_cases force s p
    · rw [e, State.setPage_uploads, State.upload_uploads]
      exact List.prefix_append _ _
    · rw [e]

/-- No instruction removes an event from UPLOADS. -/
theorem exec_extends_uploads {i : Instr} {s t : State} (h : exec i s = .next t) :
    s.uploads <+: t.uploads :=
  (ends_of_exec h).reaches.keeps (P := fun u => s.uploads <+: u.uploads)
    (fun op hs => hs.trans op.extends_uploads) List.prefix_rfl

section
variable (s : State)

@[simp] theorem State.ok_uploads (x : Result) : (s.ok x).uploads = s.uploads := rfl
@[simp] theorem State.illegal_uploads (r : Reason) : (s.illegal r).uploads = s.uploads := rfl
@[simp] theorem clearPage_uploads (p : Fin 32) : (clearPage s p).uploads = s.uploads := rfl
@[simp] theorem clearPages_uploads : (clearPages s).uploads = s.uploads := by rw [clearPages_eq]

/-- A page command keeps UPLOADS if its body does (rule R231). -/
theorem State.whenSetUp_uploads {b : State} (h : b.uploads = s.uploads) :
    (s.whenSetUp b).uploads = s.uploads := by
  unfold State.whenSetUp
  split
  · exact h
  · rfl

end

/-- UPLOADS is in the part of the state that no reader of the stream changes (rule R184). -/
theorem uploads_of_untouched {s t : State} (h : t.untouched = s.untouched) : t.uploads = s.uploads :=
  have e : t.untouched.uploads = s.untouched.uploads := congrArg State.uploads h
  e

/-- Every instruction but the two updates keeps UPLOADS (rules R236, R312). -/
theorem uploads_of_exec {i : Instr} {s t : State} (h : exec i s = .next t)
    (hone : ∀ p f, i ≠ .updatePage p f) (hall : ∀ f, i ≠ .updateAllPages f) : t.uploads = s.uploads := by
  cases i with
  | updatePage p f => exact absurd rfl (hone p f)
  | updateAllPages f => exact absurd rfl (hall f)
  | setup | exportTextureGrid | readReg | writeReg =>
    cases h
    split_ifs <;> simp
  | draw | exportPageTiled =>
    cases h
    apply State.whenSetUp_uploads
    split_ifs <;> simp
  | clear | clearAll | isUsed | exportPageColor | exportPageStp =>
    cases h
    exact s.whenSetUp_uploads (by simp)
  | getModeFromClut | containsPage | clampPage | clampCoord =>
    cases h
    rfl
  | decodeTim | readPalette | timIndexed4 | timIndexed8 | timDirect16 | timDirect24 | timMixed | timInvalid5
  | timInvalid6 | timInvalid7 | timIndexed4Pal | timIndexed8Pal | timDirect16Pal | timDirect24Pal
  | timMixedPal | timInvalid5Pal | timInvalid6Pal | timInvalid7Pal =>
    exact uploads_of_untouched (exec_leavesUntouched s rfl t h)

/-- Settles O29: every operation extends UPLOADS, and only those of the two updates change it. -/
theorem onlyUpdatesEmitUploads : Obligations.OnlyUpdatesEmitUploads := by
  intro i s t h
  obtain ⟨l, hl⟩ := exec_extends_uploads h
  exact ⟨⟨l, hl.symm⟩, uploads_of_exec h⟩

/-! ### The answers -/

/-- Settles O26: IS_USED answers from the page that P names. -/
theorem isUsedAnswers : Obligations.IsUsedAnswers := by
  intro s p q hr hq
  obtain rfl := pageOf_eq hq
  exact next_whenSetUp_ready hr _

/-- Settles O27: ARG0 is compared as a signed number, and the two bounds of CONTAINS_PAGE are one
condition. -/
theorem rangeHelpersAnswer : Obligations.RangeHelpersAnswer := by
  refine fun s v => ⟨?_, rfl, rfl⟩
  rw [Bool.decide_and]
  rfl

end Sys2Proof.Machine

/-! SUPPORT. The exports (rules R270 to R274): the image that each of them answers, cell by cell, and that it
changes nothing else. -/

namespace Sys2Proof.Machine

/-! ### The page exports -/

/-- Settles O31: each command answers the image of the region's cells of the page that P names. -/
theorem pageExportsReturnTheRegions : Obligations.PageExportsReturnTheRegions := by
  intro s p q hr hq
  obtain rfl := pageOf_eq hq
  exact ⟨⟨_, next_whenSetUp_ready hr _, rfl, rfl, dims_imageOf 256 256 _, cellAt_imageOf 256 256 _⟩,
    ⟨_, next_whenSetUp_ready hr _, rfl, rfl, dims_imageOf 256 256 _, cellAt_imageOf 256 256 _⟩⟩

/-- The operand check of EXPORT_PAGE_TILED is the condition of rule R273. -/
theorem tiledOk_iff (rx ry rw rh nx ny : U16) (hi : U32) :
    tiledOk rx ry rw rh nx ny hi = true ↔
      hi = 0 ∧ rw ≠ 0 ∧ rh ≠ 0 ∧ nx ≠ 0 ∧ ny ≠ 0 ∧ rx.toNat + rw.toNat ≤ 256 ∧
        ry.toNat + rh.toNat ≤ 256 := by
  simp only [tiledOk, Bool.and_eq_true, decide_eq_true_eq, and_assoc]

/-- EXPORT_PAGE_TILED into a store that is set up answers its image where its operands are legal, and
BAD_OPERAND where they are not (rule R273). -/
theorem exec_exportPageTiled (s : State) (p : BitVec 5) (rx ry rw rh nx ny : U16) (hi : U32)
    (hr : s.pagesReady = true) :
    exec (.exportPageTiled p rx ry rw rh nx ny hi) s = .next
      (if tiledOk rx ry rw rh nx ny hi then
        s.ok (.colorImage
          (tiledImage (s.page (pageOf p)) rx.toNat ry.toNat rw.toNat rh.toNat nx.toNat ny.toNat))
      else s.illegal .badOperand) :=
  next_whenSetUp_ready hr _

/-- Settles O32: a legal rectangle gives the image whose cells wrap round in it. -/
theorem tiledExportRepeatsTheRectangle : Obligations.TiledExportRepeatsTheRectangle := by
  intro s p q rx ry rw rh nx ny hi hr hq
  obtain rfl := pageOf_eq hq
  rw [exec_exportPageTiled s p rx ry rw rh nx ny hi hr]
  constructor
  · intro hlegal
    rw [if_pos ((tiledOk_iff rx ry rw rh nx ny hi).2 hlegal)]
    exact ⟨_, rfl, rfl, rfl, dims_imageOf _ _ _, cellAt_imageOf _ _ _⟩
  · intro hbad
    rw [if_neg fun hok => hbad ((tiledOk_iff rx ry rw rh nx ny hi).1 hok)]
    rfl

/-! ### The texture grid -/

/-- An array with dimensions has a cell exactly inside them. -/
theorem cellAt_isSome_iff {α : Type} {w h : Nat} {rows : List (List α)} (hd : Dims w h rows) (j i : Nat) :
    (cellAt rows j i).isSome = true ↔ j < h ∧ i < w := by
  obtain ⟨rfl, hw⟩ := hd
  unfold cellAt
  by_cases hj : j < rows.length
  · have hrow := hw rows[j] (List.getElem_mem hj)
    simp [hj, hrow]
  · simp [hj]

/-- A place in block `q` lies before the end of `m` blocks. -/
theorem mul_add_lt_mul {q m r b : Nat} (hq : q < m) (hr : r < b) : q * b + r < m * b := by
  rw [Nat.mul_comm q b]
  exact Nat.mul_add_lt_mul_of_lt_of_lt hq hr

/-- A place in block `q` determines the block and the place in it. -/
theorem mul_add_div_mod {r b : Nat} (q : Nat) (hr : r < b) : (q * b + r) / b = q ∧ (q * b + r) % b = r :=
  (Nat.div_mod_unique (Nat.zero_lt_of_lt hr)).2 ⟨by rw [Nat.mul_comm]; omega, hr⟩

/-- The rows of the grid hold every texture (rule R272). -/
theorem div_lt_gridRows {k n cols : Nat} (hk : k < n) (hcols : 0 < cols) :
    k / cols < (n + cols - 1) / cols :=
  calc k / cols < k / cols + 1 := Nat.lt_succ_self _
    _ = (k + cols) / cols := (Nat.add_div_right k hcols).symm
    _ ≤ (n + cols - 1) / cols := Nat.div_le_div_right (by omega)

/-- A cell of the grid image is the colour that the texture of its grid cell has there, if it has one (rule
R272). -/
theorem gridCell_eq (texs : List Texture) (cols cw ch y x : Nat) :
    gridCell texs cols cw ch y x =
      (texs[y / ch * cols + x / cw]?.bind fun t => cellAt t.color (y % ch) (x % cw)).getD colorZero := by
  unfold gridCell
  cases texs[y / ch * cols + x / cw]? with
  | none => rfl
  | some t =>
    simp only [Option.bind_some, cellAt]
    cases t.color[y % ch]? <;> rfl

/-- Texture k shows from the top left of its grid cell (rule R272). -/
theorem gridCell_place {texs : List Texture} {cols cw ch k j i : Nat} (hk : k < texs.length)
    (hj : j < ch) (hi : i < cw) :
    gridCell texs cols cw ch (k / cols * ch + j) (k % cols * cw + i) =
      (cellAt texs[k].color j i).getD colorZero := by
  obtain ⟨hrow, hj'⟩ := mul_add_div_mod (k / cols) hj
  obtain ⟨hcol, hi'⟩ := mul_add_div_mod (k % cols) hi
  have hindex : k / cols * cols + k % cols = k := by rw [Nat.mul_comm, Nat.div_add_mod]
  rw [gridCell_eq, hrow, hj', hcol, hi', hindex, List.getElem?_eq_getElem hk, Option.bind_some]

/-- A cell that no texture covers is colour zero: one that took a colour from its grid cell's texture would be a
covered place of that texture (rule R272). -/
theorem gridCell_uncovered {texs : List Texture} {cols cw ch y x : Nat}
    (hwf : ∀ tex ∈ texs, WellFormedTexture tex) (hx : x < cols * cw)
    (hout : ∀ k (hk : k < texs.length) j i, j < texs[k].height → i < texs[k].width →
      ¬(y = k / cols * ch + j ∧ x = k % cols * cw + i)) :
    gridCell texs cols cw ch y x = colorZero := by
  rw [gridCell_eq]
  by_cases hk : y / ch * cols + x / cw < texs.length
  · rw [List.getElem?_eq_getElem hk, Option.bind_some]
    have hdims := (hwf _ (List.getElem_mem hk)).1
    cases hcell : cellAt texs[y / ch * cols + x / cw].color (y % ch) (x % cw) with
    | none => rfl
    | some c =>
      obtain ⟨hj, hi⟩ := (cellAt_isSome_iff hdims _ _).1 (by rw [hcell]; rfl)
      have hcol : x / cw < cols := Nat.div_lt_of_lt_mul (by rwa [Nat.mul_comm])
      obtain ⟨hrow, hcol'⟩ := mul_add_div_mod (y / ch) hcol
      refine absurd ⟨?_, ?_⟩ (hout _ hk _ _ hj hi)
      · rw [hrow, Nat.mul_comm, Nat.div_add_mod]
      · rw [hcol', Nat.mul_comm, Nat.div_add_mod]
  · rw [List.getElem?_eq_none (Nat.le_of_not_lt hk)]
    rfl

/-- A cell inside the grid image (rule R272). -/
theorem cellAt_gridImage {texs : List Texture} {cols y x : Nat} (hy : y < (gridImage texs cols).height)
    (hx : x < (gridImage texs cols).width) :
    cellAt (gridImage texs cols).rows y x =
      some (gridCell texs cols (maxOf (texs.map Texture.width)) (maxOf (texs.map Texture.height)) y x) :=
  cellAt_imageOf _ _ _ y x hy hx

/-- The largest size of the textures of a list bounds them all and is the size of one of them. -/
theorem maxOf_map {α : Type} (f : α → Nat) {l : List α} (hl : l ≠ []) :
    (∀ a ∈ l, f a ≤ maxOf (l.map f)) ∧ ∃ a ∈ l, f a = maxOf (l.map f) :=
  ⟨fun _ ha => le_maxOf _ _ (List.mem_map_of_mem ha), List.mem_map.1 (maxOf_mem _ (by simpa using hl))⟩

/-- EXPORT_TEXTURE_GRID of no texture, or of a column count out of range, is BAD_OPERAND (rule R272). -/
theorem exec_exportTextureGrid_bad {s : State} {cols : U64} {l : List Texture}
    (h : l.length = 0 ∨ cols.toNat = 0 ∨ cols.toNat > l.length) :
    exec (.exportTextureGrid cols l) s = .next (s.illegal .badOperand) := by
  simp only [exec, execExportTextureGrid, if_pos h]

/-- EXPORT_TEXTURE_GRID of well-formed textures, in a column count in range, answers the grid image (rule
R272). -/
theorem exec_exportTextureGrid_image {s : State} {cols : U64} {l : List Texture} (h0 : 0 < cols.toNat)
    (hn : cols.toNat ≤ l.length) (hwf : ∀ tex ∈ l, WellFormedTexture tex) :
    exec (.exportTextureGrid cols l) s = .next (s.ok (.colorImage (gridImage l cols.toNat))) := by
  have hrange : ¬(l.length = 0 ∨ cols.toNat = 0 ∨ cols.toNat > l.length) := by omega
  have hall : l.all textureOk = true := List.all_eq_true.2 fun t ht => (textureOk_iff t).2 (hwf t ht)
  simp only [exec, execExportTextureGrid, if_neg hrange, if_pos hall]

/-- Settles O33: the cells of the grid image are read at a texture's place and outside every texture. -/
theorem gridExportPlacesTheTextures : Obligations.GridExportPlacesTheTextures := by
  refine fun s cols l => ⟨exec_exportTextureGrid_bad, fun h0 hn hwf => ?_⟩
  have hl : l ≠ [] := List.length_pos_iff.1 (Nat.lt_of_lt_of_le h0 hn)
  obtain ⟨hcw, hcw'⟩ := maxOf_map Texture.width hl
  obtain ⟨hch, hch'⟩ := maxOf_map Texture.height hl
  refine ⟨gridImage l cols.toNat, _, _, exec_exportTextureGrid_image h0 hn hwf,
    fun t ht => ⟨hcw t ht, hch t ht⟩, hcw', hch', rfl, rfl, dims_imageOf _ _ _,
    fun k hk j i hj hi => ?_, fun y x hy hx hout => ?_⟩
  · have hmem := List.getElem_mem hk
    have hj' := Nat.lt_of_lt_of_le hj (hch _ hmem)
    have hi' := Nat.lt_of_lt_of_le hi (hcw _ hmem)
    obtain ⟨c, hc⟩ := Option.isSome_iff_exists.1 ((cellAt_isSome_iff (hwf _ hmem).1 j i).2 ⟨hj, hi⟩)
    rw [cellAt_gridImage (mul_add_lt_mul (div_lt_gridRows hk h0) hj')
      (mul_add_lt_mul (Nat.mod_lt k h0) hi'), gridCell_place hk hj' hi', hc]
    rfl
  · rw [cellAt_gridImage hy hx, gridCell_uncovered hwf hx hout]

/-! ### Exports only read -/

/-- Nothing but STATUS and the response differs from `s` (rule R274). -/
def OnlyAnswers (s t : State) : Prop := t = { s with status := t.status, response := t.response }

theorem onlyAnswers_finish (s : State) (c : Code) (r : Reason) (x : Result) :
    OnlyAnswers s (s.finish c r x) := rfl

/-- A page command only answers if its body does (rule R231). -/
theorem onlyAnswers_whenSetUp {s b : State} (h : OnlyAnswers s b) : OnlyAnswers s (s.whenSetUp b) := by
  unfold State.whenSetUp
  split
  · exact h
  · exact onlyAnswers_finish s _ _ _

/-- EXPORT_TEXTURE_GRID only answers. -/
theorem onlyAnswers_exportTextureGrid {s t : State} {cols : U64} {l : List Texture}
    (h : exec (.exportTextureGrid cols l) s = .next t) : OnlyAnswers s t := by
  obtain ⟨x, e⟩ | e := exec_exportTextureGrid_cases s cols l
  all_goals
    rw [e] at h
    cases h
    exact onlyAnswers_finish s _ _ _

/-- EXPORT_PAGE_TILED only answers. -/
theorem onlyAnswers_exportPageTiled {s t : State} {p : BitVec 5} {rx ry rw rh nx ny : U16} {hi : U32}
    (h : exec (.exportPageTiled p rx ry rw rh nx ny hi) s = .next t) : OnlyAnswers s t := by
  cases h
  apply onlyAnswers_whenSetUp
  split
  · exact onlyAnswers_finish s _ _ _
  · exact onlyAnswers_finish s _ _ _

/-- Settles O34: each of the exports only answers, and what an instruction answers without OK has no result. -/
theorem exportsAreReadOnly : Obligations.ExportsAreReadOnly := by
  intro s t i hi h
  obtain ⟨r, hr, _, ⟨_, hnone⟩, _⟩ := (ends_of_exec h).response
  refine ⟨?_, r, hr, hnone⟩
  obtain ⟨p, rfl⟩ | ⟨p, rfl⟩ | ⟨cols, l, rfl⟩ | ⟨p, rx, ry, rw, rh, nx, ny, hi, rfl⟩ := hi
  · cases h
    exact onlyAnswers_whenSetUp (onlyAnswers_finish s _ _ _)
  · cases h
    exact onlyAnswers_whenSetUp (onlyAnswers_finish s _ _ _)
  · exact onlyAnswers_exportTextureGrid h
  · exact onlyAnswers_exportPageTiled h

end Sys2Proof.Machine

/-! SUPPORT. Register access (spec/45_register_access.md): what READ_REG and WRITE_REG answer at each of their
checks, and past the last of them (rules R290, R291). -/

namespace Sys2Proof.Machine

section
variable {s : State} {r : BitVec 5} {v : U64}

/-! ### READ_REG -/

theorem exec_readReg_badRegister (h : 10 ≤ r.toNat) :
    exec (.readReg r) s = .next (s.answers .illegalCommand .badRegister .none) :=
  congrArg Host.Outcome.next (if_pos h)

/-- Below PAGEFLAGS no check of the store stands before the check of the written bit. -/
theorem exec_readReg_uninitialized (hr : r.toNat < 9) (hw : regWritten s r.toNat = false) :
    exec (.readReg r) s = .next (s.answers .illegalCommand .uninitialized .none) := by
  have hstore : ¬(r.toNat = 9 ∧ s.pagesReady = false) := fun h => absurd h.1 hr.ne
  rw [← illegal_eq_answers]
  simp only [exec, execReadReg, if_neg (show ¬10 ≤ r.toNat by omega), if_neg hstore, hw,
    Bool.false_eq_true, if_false]

/-- The value returned is that of the state before the command, STATUS included. -/
theorem exec_readReg_ok (hr : r.toNat < 10) (hstore : r.toNat = 9 → s.pagesReady = true)
    (hw : regWritten s r.toNat = true) :
    exec (.readReg r) s = .next (s.answers .ok .none (.reg (regValue s r.toNat))) := by
  have hready : ¬(r.toNat = 9 ∧ s.pagesReady = false) := fun ⟨h9, hp⟩ => by simp [hstore h9] at hp
  rw [← ok_eq_answers]
  simp only [exec, execReadReg, if_neg (Nat.not_le.2 hr), if_neg hready, hw, if_true]

/-- Below PAGEFLAGS a register is readable once it is written. -/
theorem exec_readReg_ok_of_lt (hr : r.toNat < 9) (hw : regWritten s r.toNat = true) :
    exec (.readReg r) s = .next (s.answers .ok .none (.reg (regValue s r.toNat))) :=
  exec_readReg_ok (Nat.lt_succ_of_lt hr) (fun h => absurd h hr.ne) hw

/-! ### WRITE_REG -/

theorem exec_writeReg_badRegister (h : 10 ≤ r.toNat) :
    exec (.writeReg r v) s = .next (s.answers .illegalCommand .badRegister .none) :=
  congrArg Host.Outcome.next (if_pos h)

theorem exec_writeReg_readOnlyRegister (h5 : 5 ≤ r.toNat) (h10 : r.toNat < 10) :
    exec (.writeReg r v) s = .next (s.answers .illegalCommand .readOnlyRegister .none) :=
  congrArg Host.Outcome.next ((if_neg (Nat.not_le.2 h10)).trans (if_pos h5))

/-- A writable register refuses a value wider than it is. -/
theorem exec_writeReg_badOperand (hr : r.toNat < 5) (hv : 2 ^ regWidth r.toNat ≤ v.toNat) :
    exec (.writeReg r v) s = .next (s.answers .illegalCommand .badOperand .none) := by
  rw [← illegal_eq_answers]
  simp only [exec, execWriteReg, if_neg (show ¬10 ≤ r.toNat by omega), if_neg (Nat.not_le.2 hr), if_pos hv]

/-- A writable register takes a value that fits it. -/
theorem exec_writeReg_ok (hr : r.toNat < 5) (hv : v.toNat < 2 ^ regWidth r.toNat) :
    exec (.writeReg r v) s = .next ((s.setReg r.toNat v).ok .none) := by
  simp only [exec, execWriteReg, if_neg (show ¬10 ≤ r.toNat by omega), if_neg (Nat.not_le.2 hr),
    if_neg (Nat.not_le.2 hv)]

/-- CFG, MAXRES and BGCOLOR have 32 bits (rule R31). -/
theorem regWidth_of_le_two {n : Nat} (h : n ≤ 2) : regWidth n = 32 := by
  interval_cases n <;> rfl

/-- What CFG takes of a value, as arithmetic (rule R32). -/
theorem cfgValue_eq_ofNat (v : U64) : cfgValue v = BitVec.ofNat 32 (v.toNat % 8) := by
  apply BitVec.eq_of_toNat_eq
  simp only [cfgValue, BitVec.toNat_setWidth, BitVec.extractLsb'_toNat, BitVec.toNat_ofNat, Nat.shiftRight_zero]

end

/-! ### The statements -/

/-- Settles O35: the four checks in their order, then the ten registers one by one, each zero-extended to 64
bits. -/
theorem readRegReturnsTheRegister : Obligations.ReadRegReturnsTheRegister := by
  intro s r
  refine ⟨exec_readReg_badRegister, ?_, ?_, ?_⟩
  · rintro rfl hp
    exact exec_readReg_pageFlags_not hp
  · rintro (⟨rfl, hw⟩ | ⟨rfl, hw⟩ | ⟨rfl, hw⟩ | ⟨rfl, hw⟩) <;>
      exact exec_readReg_uninitialized (by decide) hw
  · rintro _ (⟨rfl, rfl⟩ | ⟨rfl, hw, rfl⟩ | ⟨rfl, hw, rfl⟩ | ⟨rfl, hw, rfl⟩ | ⟨rfl, hw, rfl⟩ | ⟨rfl, rfl⟩ |
      ⟨rfl, rfl⟩ | ⟨rfl, rfl⟩ | ⟨rfl, rfl⟩ | ⟨rfl, hp, rfl⟩) <;>
      simp only [BitVec.ofNat_toNat, BitVec.setWidth_eq]
    · exact exec_readReg_ok_of_lt (by decide) rfl
    · exact exec_readReg_ok_of_lt (by decide) hw
    · exact exec_readReg_ok_of_lt (by decide) hw
    · exact exec_readReg_ok_of_lt (by decide) hw
    · exact exec_readReg_ok_of_lt (by decide) hw
    · exact exec_readReg_ok_of_lt (by decide) rfl
    · exact exec_readReg_ok_of_lt (by decide) rfl
    · exact exec_readReg_ok_of_lt (by decide) rfl
    · exact exec_readReg_ok_of_lt (by decide) rfl
    · exact exec_readReg_ok (by decide) (fun _ => hp) rfl

/-- Settles O36: the three refusals in their order, then the five writable registers one by one. -/
theorem writeRegSetsTheRegister : Obligations.WriteRegSetsTheRegister := by
  intro s r v
  refine ⟨exec_writeReg_badRegister, exec_writeReg_readOnlyRegister, ?_, fun h => ?_, fun h => ?_,
    fun h => ?_, fun h => ?_, exec_writeReg_ok (r := 4) (by decide) v.isLt⟩
  · rintro (⟨hr, hv⟩ | ⟨rfl, hv⟩)
    · exact exec_writeReg_badOperand (by omega) (by rwa [regWidth_of_le_two hr])
    · exact exec_writeReg_badOperand (by decide) hv
  · rw [← cfgValue_eq_ofNat]
    exact exec_writeReg_ok (by decide) h
  · rw [BitVec.ofNat_toNat]
    exact exec_writeReg_ok (by decide) h
  · rw [BitVec.ofNat_toNat]
    exact exec_writeReg_ok (by decide) h
  · rw [BitVec.ofNat_toNat]
    exact exec_writeReg_ok (by decide) h

end Sys2Proof.Machine

/-! SUPPORT. Exceptions (spec/60_exceptions.md): the number that STATUS shows, and that a command which ends with
ILLEGAL_COMMAND has changed nothing else (rule R304). A refusal stands before the first change of state, and what
follows a change ends with another code. -/

namespace Sys2Proof.Machine

/-! ### STATUS -/

/-- STATUS holds the code in its low byte and the reason above it (rules R38, R306). -/
theorem statusWord_toNat (c : Code) (r : Reason) :
    (statusWord c r).toNat = c.toByte.toNat + 256 * r.toByte.toNat := by
  rw [statusWord, append_toNat]
  omega

/-- Settles O15: STATUS packs two bytes, whose numbers are those of the two tables. -/
theorem statusNumbers : Obligations.StatusNumbers := ⟨statusWord_toNat, rfl, rfl⟩

/-! ### The code of the last outcome -/

/-- The code of the last command's outcome, none before the first command. -/
def State.outcome (s : State) : Option Code := s.response.map (·.code)

theorem State.outcome_of_response {s : State} {r : Response} {c : Code} (h : s.response = some r)
    (hc : r.code = c) : s.outcome = some c := by
  rw [State.outcome, h, Option.map_some, hc]

section
variable (s : State)

@[simp] theorem State.finish_outcome (c : Code) (r : Reason) (x : Result) :
    (s.finish c r x).outcome = some c := rfl
@[simp] theorem State.ok_outcome (x : Result) : (s.ok x).outcome = some .ok := rfl

@[simp] theorem endCandidate_outcome (p0 : Nat) (reached : U64) (ldecl : Nat) (code : Code) (r : Reason) :
    (endCandidate s p0 reached ldecl code r).outcome = some code := rfl

@[simp] theorem rejectCandidate_outcome (p0 : Nat) (reached : U64) (ldecl : Nat) (r : Reason) :
    (rejectCandidate s p0 reached ldecl r).outcome = some .formatRejected := rfl

/-- The end of the stream is no illegal command, in either mode (rule R73). -/
theorem streamEnded_outcome_ne (p0 : Nat) (reached : U64) (ldecl : Nat) (r : Reason) :
    (streamEnded s p0 reached ldecl r).outcome ≠ some .illegalCommand := by
  rw [streamEnded_eq, endCandidate_outcome]
  split <;> decide

/-! ### Past the operand checks no decoder gives ILLEGAL_COMMAND -/

theorem readPaletteRows_outcome_ne (fmt8 first : Bool) (cw ch : Nat) :
    (readPaletteRows s fmt8 first cw ch).outcome ≠ some .illegalCommand := by
  unfold readPaletteRows
  split
  · simp
  · split
    · simp
    · rw [State.finish_outcome]
      split <;> decide

theorem decodePixels_outcome_ne (fmt : PixelFormat) (p0 ldecl : Nat) (hd : ImgHeader) :
    (decodePixels s fmt p0 ldecl hd).outcome ≠ some .illegalCommand := by
  simp only [decodePixels]
  split
  · simp
  · split
    · simp
    · exact streamEnded_outcome_ne s _ _ _ _

theorem checkImage_outcome_ne (fmt : PixelFormat) (p0 ldecl : Nat) (hd : ImgHeader) :
    (checkImage s fmt p0 ldecl hd).outcome ≠ some .illegalCommand := by
  simp only [checkImage]
  split_ifs
  case neg => exact decodePixels_outcome_ne s fmt p0 ldecl hd
  all_goals simp

theorem readImage_outcome_ne (fmt : PixelFormat) (p0 base : Nat) :
    (readImage s fmt p0 base).outcome ≠ some .illegalCommand := by
  unfold readImage
  split
  · exact streamEnded_outcome_ne s _ _ _ _
  · exact checkImage_outcome_ne _ fmt p0 _ _

theorem loadPaletteBlock_outcome_ne (code : PixelFormat) (p0 : Nat) (h : PalHeader) :
    (loadPaletteBlock s code p0 h).outcome ≠ some .illegalCommand := by
  simp only [loadPaletteBlock]
  split_ifs
  · simp
  · simp
  · simp
  · split
    · exact readImage_outcome_ne _ _ p0 _
    · exact streamEnded_outcome_ne _ _ _ _ _

theorem readPaletteBlock_outcome_ne (code : PixelFormat) (p0 : Nat) :
    (readPaletteBlock s code p0).outcome ≠ some .illegalCommand := by
  unfold readPaletteBlock
  split
  · exact streamEnded_outcome_ne s _ _ _ _
  · exact loadPaletteBlock_outcome_ne _ code p0 _

theorem rejectNoPalette_outcome_ne : (rejectNoPalette s).outcome ≠ some .illegalCommand := by
  simp [rejectNoPalette]

theorem fastReject_outcome_ne : (fastReject s).outcome ≠ some .illegalCommand := by
  simp [fastReject]

end

/-! ### An illegal command only answers -/

/-- If `t` ended with ILLEGAL_COMMAND, nothing but STATUS and the response differs from `s` (rule R304). -/
def IllegalOnlyAnswers (s t : State) : Prop := t.outcome = some .illegalCommand → OnlyAnswers s t

/-- So for every state that an outcome goes on to. -/
def IllegalIsFramed (s : State) (o : Out) : Prop := ∀ t, o = .next t → IllegalOnlyAnswers s t

theorem illegalIsFramed_next {s t : State} (h : IllegalOnlyAnswers s t) : IllegalIsFramed s (.next t) := by
  intro t' e
  cases e
  exact h

/-- A state that did not end with ILLEGAL_COMMAND is free to differ. -/
theorem illegalIsFramed_of_ne {s t : State} (h : t.outcome ≠ some .illegalCommand) :
    IllegalIsFramed s (.next t) :=
  illegalIsFramed_next fun e => absurd e h

section
variable {s : State}

/-- An outcome recorded in the state the command started from. -/
theorem illegalOnlyAnswers_finish (c : Code) (r : Reason) (x : Result) :
    IllegalOnlyAnswers s (s.finish c r x) :=
  fun _ => onlyAnswers_finish s c r x

theorem illegalOnlyAnswers_illegal (r : Reason) : IllegalOnlyAnswers s (s.illegal r) :=
  illegalOnlyAnswers_finish _ r _

/-- OK is no illegal command, whatever was changed before it. -/
theorem illegalOnlyAnswers_ok (b : State) (x : Result) : IllegalOnlyAnswers s (b.ok x) := nofun

/-- A page command without a store is refused as it started (rule R231). -/
theorem illegalOnlyAnswers_whenSetUp {b : State} (h : IllegalOnlyAnswers s b) :
    IllegalOnlyAnswers s (s.whenSetUp b) := by
  unfold State.whenSetUp
  split
  · exact h
  · exact illegalOnlyAnswers_illegal _

/-- A page command whose body answers OK. -/
theorem illegalIsFramed_whenSetUp_ok (b : State) (x : Result) :
    IllegalIsFramed s (.next (s.whenSetUp (b.ok x))) :=
  illegalIsFramed_next (illegalOnlyAnswers_whenSetUp (illegalOnlyAnswers_ok b x))

end

section
variable (s : State)

theorem execSetup_illegalIsFramed : IllegalIsFramed s (execSetup s) := by
  apply illegalIsFramed_next
  split
  · exact illegalOnlyAnswers_ok _ _
  · exact illegalOnlyAnswers_illegal _

theorem execDraw_illegalIsFramed (suppress : Bool) (t : Texture) :
    IllegalIsFramed s (execDraw suppress t s) := by
  apply illegalIsFramed_next
  apply illegalOnlyAnswers_whenSetUp
  split
  · exact illegalOnlyAnswers_ok _ _
  · exact illegalOnlyAnswers_illegal _

theorem execReadReg_illegalIsFramed (r : BitVec 5) : IllegalIsFramed s (execReadReg r s) := by
  apply illegalIsFramed_next
  split_ifs
  · exact illegalOnlyAnswers_illegal _
  · exact illegalOnlyAnswers_illegal _
  · exact illegalOnlyAnswers_ok _ _
  · exact illegalOnlyAnswers_illegal _

theorem execWriteReg_illegalIsFramed (r : BitVec 5) (v : U64) :
    IllegalIsFramed s (execWriteReg r v s) := by
  apply illegalIsFramed_next
  split_ifs
  · exact illegalOnlyAnswers_illegal _
  · exact illegalOnlyAnswers_illegal _
  · exact illegalOnlyAnswers_illegal _
  · exact illegalOnlyAnswers_ok _ _

/-- The operand checks of READ_PALETTE stand before the load (rule R140). -/
theorem execReadPalette_illegalIsFramed (m : BitVec 2) (first : Bool) (w h : U64) :
    IllegalIsFramed s (execReadPalette m first w h s) := by
  apply illegalIsFramed_next
  split_ifs
  · exact illegalOnlyAnswers_illegal _
  · exact illegalOnlyAnswers_illegal _
  · exact illegalOnlyAnswers_illegal _
  · exact illegalOnlyAnswers_finish _ _ _
  · exact fun e => absurd e (readPaletteRows_outcome_ne s _ _ _ _)

/-- The sixteen rows of the flags word (rule R103), run from any state `u` that the header left. -/
theorem runFlags_illegalIsFramed (u : State) (code : BitVec 4) (hi : BitVec 28) :
    IllegalIsFramed s (runFlags code hi u) := by
  unfold runFlags
  split
  case h_1 | h_2 => exact illegalIsFramed_of_ne (rejectNoPalette_outcome_ne u)
  case h_3 | h_4 => exact illegalIsFramed_of_ne (readImage_outcome_ne u _ _ _)
  case h_9 | h_10 | h_11 | h_12 => exact illegalIsFramed_of_ne (readPaletteBlock_outcome_ne u _ _)
  all_goals exact illegalIsFramed_of_ne (fastReject_outcome_ne u)

/-- DECODE_TIM is refused for its unwritten registers alone (rule R160). -/
theorem execDecodeTim_illegalIsFramed : IllegalIsFramed s (execDecodeTim s) := by
  unfold execDecodeTim
  split
  · obtain ⟨w, c, h⟩ | ⟨c, h⟩ | ⟨c, r, _, h⟩ := readHeader_cases s
    · rw [h]
      exact runFlags_illegalIsFramed s _ _ _
    · rw [h]
      exact illegalIsFramed_of_ne (streamEnded_outcome_ne s _ _ _ _)
    · rw [h]
      exact illegalIsFramed_of_ne (by simp)
  · exact illegalIsFramed_next (illegalOnlyAnswers_illegal _)

/-- Every instruction (rule R304). -/
theorem exec_illegalIsFramed (i : Instr) : IllegalIsFramed s (exec i s) := by
  cases i with
  | setup => exact execSetup_illegalIsFramed s
  | decodeTim => exact execDecodeTim_illegalIsFramed s
  | readPalette m first w h => exact execReadPalette_illegalIsFramed s m first w h
  | draw suppress t => exact execDraw_illegalIsFramed s suppress t
  | clear | clearAll | updatePage | updateAllPages | isUsed | exportPageColor | exportPageStp =>
    exact illegalIsFramed_whenSetUp_ok _ _
  | getModeFromClut | containsPage | clampPage | clampCoord =>
    exact illegalIsFramed_next (illegalOnlyAnswers_ok s _)
  | exportTextureGrid => exact fun _ h _ => onlyAnswers_exportTextureGrid h
  | exportPageTiled => exact fun _ h _ => onlyAnswers_exportPageTiled h
  | readReg r => exact execReadReg_illegalIsFramed s r
  | writeReg r v => exact execWriteReg_illegalIsFramed s r v
  | timIndexed4 | timIndexed8 => exact illegalIsFramed_of_ne (rejectNoPalette_outcome_ne s)
  | timDirect16 | timDirect24 => exact illegalIsFramed_of_ne (readImage_outcome_ne s _ _ _)
  | timIndexed4Pal | timIndexed8Pal | timDirect16Pal | timDirect24Pal =>
    exact illegalIsFramed_of_ne (readPaletteBlock_outcome_ne s _ _)
  | timMixed | timInvalid5 | timInvalid6 | timInvalid7 | timMixedPal | timInvalid5Pal | timInvalid6Pal
  | timInvalid7Pal => exact illegalIsFramed_of_ne (fastReject_outcome_ne s)

/-- Every illegal encoding (rules R117, R307). -/
theorem illegalEncoding_illegalIsFramed (e : DecodeError) : IllegalIsFramed s (illegalEncoding s e) := by
  intro t h
  cases e with
  | badOpcode | reservedBits | badFormat =>
    cases h
    exact illegalOnlyAnswers_illegal _
  | payloadMismatch => cases h

end

/-- A command that decodes is run by the step, on the state with the host's move taken (rules R83, R121). -/
theorem step_of_decode_ok {s : State} {c : Transaction} {rest : List HostMove} {i : Instr}
    (hinbox : s.inbox = .command c :: rest) (hi : decode (.command c) = .ok i) :
    step s = exec i (s.takeMove rest) := by
  simp only [step, hinbox, hi]

/-- A command step, whatever its encoding, counted from the state with the host's move taken. -/
theorem step_command_illegalIsFramed {s : State} {c : Transaction} {rest : List HostMove}
    (hinbox : s.inbox = .command c :: rest) : IllegalIsFramed (s.takeMove rest) (step s) := by
  cases hd : decode (.command c) with
  | ok i =>
    rw [step_of_decode_ok hinbox hd]
    exact exec_illegalIsFramed _ i
  | error e =>
    rw [step_of_decode_error hinbox hd]
    exact illegalEncoding_illegalIsFramed _ e

/-- Settles O16: every branch that answers ILLEGAL_COMMAND answers in the state it started from. -/
theorem illegalCommandChangesOnlyStatus : Obligations.IllegalCommandChangesOnlyStatus := by
  refine ⟨fun i s t r h hr hc => ?instruction, fun s t c rest r hinbox h hr hc => ?command⟩
  case instruction => exact exec_illegalIsFramed s i t h (State.outcome_of_response hr hc)
  case command => exact step_command_illegalIsFramed hinbox t h (State.outcome_of_response hr hc)

end Sys2Proof.Machine

/-! SUPPORT. Statements about an idle step, an overlong stream load and the reset state. -/

namespace Sys2Proof.Machine

/-- The step waits while the host has made no move (rule R331). -/
theorem step_of_inbox_nil {s : State} (hinbox : s.inbox = []) : step s = .next s := by
  simp only [step, hinbox]

/-- A stream load is run by the step, on the state with the host's move taken (rules R7, R83). -/
theorem step_of_loadStream {s : State} {bytes : List Byte} {rest : List HostMove}
    (hinbox : s.inbox = .loadStream bytes :: rest) : step s = loadStream bytes (s.takeMove rest) := by
  simp only [step, hinbox]

/-- SLEN cannot hold the length of such a load (rule R37, log entry 9). -/
theorem loadStream_of_overlong {bytes : List Byte} (hlen : 2 ^ 32 ≤ bytes.length) (s : State) :
    loadStream bytes s = .refused .streamTooLong :=
  if_neg (Nat.not_lt.2 hlen)

/-- PALINFO of a table that holds nothing: each field of its layout is zero (rule R39). -/
@[simp] theorem palInfo_initial : palInfo Palette.initial = 0 :=
  BitVec.eq_of_toNat_eq (by rw [palInfo_toNat]; rfl)

/-- Settles O8: the step's branch for an empty inbox, and a load's branch past SLEN's range. -/
theorem stepWaitsAndRefusesOverlongLoads : Obligations.StepWaitsAndRefusesOverlongLoads := by
  refine ⟨fun s hinbox => ?waits, fun s bytes rest hinbox hlen => ?refuses⟩
  case waits => exact step_of_inbox_nil hinbox
  case refuses => rw [step_of_loadStream hinbox, loadStream_of_overlong hlen]

/-- Settles O9: PALINFO is computed from the empty palette table; every other value is a field of the reset
state as it was written down. -/
theorem resetHasTheStatedValues : Obligations.ResetHasTheStatedValues :=
  ⟨rfl, rfl, palInfo_initial, rfl, rfl, rfl, rfl, rfl, rfl, rfl, rfl, rfl⟩

end Sys2Proof.Machine
